-- ==== Sys2Proof/Word.lean ====
section
/-! DEFINITION. The words of LZS-CORE: the character (R7 CHAR_W, R10) and the symbol (R10). -/

namespace Sys2Proof

/-- A character: an integer in 0 .. 2^CHAR_W − 1 with CHAR_W = 16, fixed by the spec (R7, R10). -/
abbrev Char16 := BitVec 16

/-- A symbol: one element of the encoded stream, an unsigned integer (R9, R10). Its bound, 2^bitsPerChar, is
a number the host programs, so it is an invariant of the spaces and not a width of the type (log 19). -/
abbrev Symbol := Nat

end Sys2Proof
end

