-- ==== Sys2Proof/Config.lean ====
section
/-! DEFINITION. The implementation parameters of R7 and the free values (what the spec gives no value). -/

namespace Sys2Proof

/-- The parameters of R7, all but CHAR_W, which is fixed at 16. `none` is the spec's ∞, and for the two counter
widths the unbounded naturals of R137. -/
structure Params where
  /-- BPC_MAX: largest bitsPerChar accepted, and the width of a symbol element in bits. -/
  bpcMax : Nat
  /-- LIT_MSB_FIRST: a literal payload goes most significant bit first. -/
  litMsbFirst : Bool
  /-- STRICT_OVERRUN: the overrun of R232 is a TruncatedInput failure. -/
  strictOverrun : Bool
  /-- DICT_CAP: largest value dictSize may reach. -/
  dictCap : Option Nat
  /-- OUT_CAP: capacity of an output space in elements. -/
  outCap : Option Nat
  /-- CNT_W: width of the counters of a finite implementation. -/
  cntW : Option Nat
  /-- LEN_W: width of the length registers of a finite implementation. -/
  lenW : Option Nat
  deriving DecidableEq, Repr

/-- The defaults of R7: "With the defaults and unbounded naturals the model is LZS's ideal machine"
(92_eei_decisions.md, open parameters). -/
def Params.default : Params :=
  { bpcMax := 16, litMsbFirst := true, strictOverrun := false, dictCap := none, outCap := none,
    cntW := none, lenW := none }

/-- BPC_MAX is "any value from 1 to 255" (R7). -/
abbrev Params.wf (p : Params) : Prop := 1 ≤ p.bpcMax ∧ p.bpcMax ≤ 255

/-- No capacity and no counter is finite: the machine of R242. -/
abbrev Params.unbounded (p : Params) : Prop :=
  p.dictCap = none ∧ p.outCap = none ∧ p.cntW = none ∧ p.lenW = none

/-- A value the spec leaves open (log 13), applied to the counter State.freeCount. -/
opaque Config.freeValue : Nat → Nat

/-- What ENC.ii or DEC.dictSize, which no step of the command has set yet, gives to FINFO where the very first value of dictSize
exceeds DICT_CAP or CNT_W (R52, R274, log 30). -/
opaque Config.unsetCounter : Params → Nat

/-- Contents the spec leaves open of one memory space (R310, log 21), applied to State.freeCount. -/
opaque Config.freeCells : Nat → List (Nat × Nat)

end Sys2Proof
end

