-- ==== Sys2Proof/Syntax.lean ====
section
/-! DEFINITION. The syntax of LZS-CORE: one constructor of Instr per row of spec/opcode_table.json. -/

namespace Sys2Proof

/-- The two engines (R20). -/
inductive Engine where
  | enc
  | dec
  deriving DecidableEq, Repr

/-- A phrase, "a non-empty finite sequence of characters" (R10). -/
structure Phrase where
  first : Char16
  rest : List Char16
  deriving DecidableEq, Repr

/-- The failure causes (R271 to R274). -/
inductive Cause where
  | truncatedInput
  | corruptCode
  | invalidArgument
  | capacityExceeded
  deriving DecidableEq, Repr

/-- The kinds of normal completion (R279). -/
inductive Kind where
  | seq
  | null
  | overrun
  deriving DecidableEq, Repr

/-- What OutAppend appends, and so to which engine's OUT space: a symbol to ENC_OUT, a character to DEC_OUT
(R12, R60). -/
inductive OutItem where
  | symbol (v : Symbol)
  | char (c : Char16)
  deriving DecidableEq, Repr

/-- The instructions: host command words, stream tokens and the internal operations (R114). -/
inductive Instr where
  -- command words (R110)
  | encStart
  | encStartAbsent
  | encNop (absent : Bool)
  | decStart
  | decStartAbsent
  | decNop (absent : Bool)
  -- header tokens (R95)
  | hdrLit8 (c : BitVec 8)
  | hdrLit16 (c : Char16)
  | hdrEos
  | hdrIllegal
  -- loop tokens (R96)
  | lit8 (c : BitVec 8)
  | lit16 (c : Char16)
  | eos
  | ref (k : Nat)
  | refnew
  | illegal (k : Nat)
  -- the padding (R100)
  | pad
  -- internal operations
  | tick (e : Engine)
  | putbit (b : Bool)
  | putlsb (v n : Nat)
  | putmsb (v m : Nat)
  | flush
  | getbit
  | refill
  | getlsb (n : Nat)
  | getmsb (m : Nat)
  | encChar
  | registerChar (c : Char16)
  | register (wc : Phrase)
  | emit (p : Phrase)
  | emitLiteral (p : Phrase)
  | encFinish
  | decHeader
  | decToken
  | registerLit (c : Char16)
  | registerPhrase (p : Phrase)
  | outAppend (x : OutItem)
  | finish (e : Engine) (k : Kind)
  | raise (e : Engine) (c : Cause) (info : Nat)
  deriving DecidableEq, Repr

/-- Where the bits of an instruction are presented, which the bits themselves do not say: the CTRL register written
(R110), the first token of a stream (R95), a later token, whose reading depends on the code width and on
DEC.dictSize (R96, R98), or the rest of a symbol after EOS, `room` bits (R100). -/
inductive Port where
  | encCtrl
  | decCtrl
  | header
  | loop (numBits dictSize : Nat)
  | padding (room : Nat)
  deriving DecidableEq, Repr

/-- A token as the decoder reads it at the head of a stream (R95). -/
inductive HeaderToken where
  | lit8 (c : BitVec 8)
  | lit16 (c : Char16)
  | eos
  | illegal
  deriving DecidableEq, Repr

/-- A token as the decoder reads it in the loop (R96). -/
inductive LoopToken where
  | lit8 (c : BitVec 8)
  | lit16 (c : Char16)
  | eos
  | ref (k : Nat)
  | refnew
  | illegal (k : Nat)
  deriving DecidableEq, Repr

/-- The row of the table a header token is. -/
def HeaderToken.instr : HeaderToken → Instr
  | .lit8 c => .hdrLit8 c
  | .lit16 c => .hdrLit16 c
  | .eos => .hdrEos
  | .illegal => .hdrIllegal

/-- The row of the table a loop token is. -/
def LoopToken.instr : LoopToken → Instr
  | .lit8 c => .lit8 c
  | .lit16 c => .lit16 c
  | .eos => .eos
  | .ref k => .ref k
  | .refnew => .refnew
  | .illegal k => .illegal k

end Sys2Proof
end

