-- ==== Sys2Proof/WellFormed.lean ====
section
/-! DEFINITION. Which instructions the spec's own rules form, and which bits may present them. -/

namespace Sys2Proof

/-- The operands the spec's rules give each instruction. -/
def Instr.wf : Instr → Bool
  | .encStart => true
  | .encStartAbsent => true
  | .encNop _ => true
  | .decStart => true
  | .decStartAbsent => true
  | .decNop _ => true
  | .hdrLit8 _ => true
  | .hdrLit16 _ => true
  | .hdrEos => true
  | .hdrIllegal => true
  | .lit8 _ => true
  | .lit16 _ => true
  | .eos => true
  | .ref k => decide (3 ≤ k)                                     -- R92: codes 0, 1, 2 name no phrase
  | .refnew => true
  | .illegal k => decide (4 ≤ k)                                 -- R238: above dictSize, which is at least 3
  | .pad => true
  | .tick _ => true
  | .putbit _ => true
  | .putlsb v n => decide (2 ≤ n) && decide (v < 2 ^ n)          -- R152
  | .putmsb v m => (m == 8 || m == 16) && decide (v < 2 ^ m)     -- R153
  | .flush => true
  | .getbit => true
  | .refill => true
  | .getlsb n => decide (2 ≤ n)                                  -- R163, R134
  | .getmsb m => m == 8 || m == 16                               -- R164
  | .encChar => true
  | .registerChar _ => true
  | .register wc => !wc.rest.isEmpty                             -- R185: one character goes by REGISTER_CHAR
  | .emit _ => true
  | .emitLiteral p => p.rest.isEmpty                             -- R189
  | .encFinish => true
  | .decHeader => true
  | .decToken => true
  | .registerLit _ => true
  | .registerPhrase p => !p.rest.isEmpty                         -- R240
  | .outAppend _ => true
  | .finish .enc k => k == .seq                                  -- R25: NULL and OVERRUN are the decoder's
  | .finish .dec _ => true
  | .raise .enc c _ => c == .invalidArgument || c == .capacityExceeded   -- R276
  | .raise .dec c info => !(c == .truncatedInput) || info == 0   -- R271

/-- The ports the rules form: a loop port has a code width of R134 and a dictionary size of R42, and padding is 1 bit or
more (R100). -/
def Port.wf : Port → Bool
  | .encCtrl => true
  | .decCtrl => true
  | .header => true
  | .loop n d => decide (2 ≤ n) && decide (3 ≤ d)
  | .padding room => decide (1 ≤ room)

/-- A loop port the rules form, with code width `n` and dictionary size `d` that allow the code. -/
def Port.loops (allowed : Nat → Nat → Bool) : Port → Bool
  | .encCtrl => false
  | .decCtrl => false
  | .header => false
  | .loop n d => Port.wf (.loop n d) && allowed n d
  | .padding _ => false

/-- A padding port the rules form. -/
def Port.pads : Port → Bool
  | .encCtrl => false
  | .decCtrl => false
  | .header => false
  | .loop _ _ => false
  | .padding room => Port.wf (.padding room)

/-- The bits at port `q` can present the instruction: the row's context and its range of codes (R95, R96, R100, R110); the
internal operations "have no encoding on any interface" (R114). -/
def Instr.fits (q : Port) : Instr → Bool
  | .encStart => q == .encCtrl
  | .encStartAbsent => q == .encCtrl
  | .encNop _ => q == .encCtrl
  | .decStart => q == .decCtrl
  | .decStartAbsent => q == .decCtrl
  | .decNop _ => q == .decCtrl
  | .hdrLit8 _ => q == .header
  | .hdrLit16 _ => q == .header
  | .hdrEos => q == .header
  | .hdrIllegal => q == .header
  | .lit8 _ => q.loops fun _ _ => true
  | .lit16 _ => q.loops fun _ _ => true
  | .eos => q.loops fun _ _ => true
  | .ref k => q.loops fun n d => decide (3 ≤ k) && decide (k < d) && decide (k < 2 ^ n)
  | .refnew => q.loops fun n d => decide (d < 2 ^ n)
  | .illegal k => q.loops fun n d => decide (d < k) && decide (k < 2 ^ n)
  | .pad => q.pads
  | .tick _ => false
  | .putbit _ => false
  | .putlsb _ _ => false
  | .putmsb _ _ => false
  | .flush => false
  | .getbit => false
  | .refill => false
  | .getlsb _ => false
  | .getmsb _ => false
  | .encChar => false
  | .registerChar _ => false
  | .register _ => false
  | .emit _ => false
  | .emitLiteral _ => false
  | .encFinish => false
  | .decHeader => false
  | .decToken => false
  | .registerLit _ => false
  | .registerPhrase _ => false
  | .outAppend _ => false
  | .finish _ _ => false
  | .raise _ _ _ => false

end Sys2Proof
end

