-- ==== Sys2Proof/Decode.lean ====
section
/-! DEFINITION. From bits to instructions and back: fields (R93, R94, R99), the decoder, the encoder. -/

namespace Sys2Proof

/-! ### Fields -/

/-- The `n` bits of a code in stream order, bit 0 first (R93): bit i of `v` is (v >> i) & 1 (R9). -/
def codeBits (v n : Nat) : List Bool := (List.range n).map v.testBit

/-- The code assembled from its bits, the i-th weighing 2^i (R99). -/
def codeOfBits : List Bool → Nat
  | [] => 0
  | b :: bs => b.toNat + 2 * codeOfBits bs

/-- The `m` bits of a literal payload in stream order (R94), most significant first when LIT_MSB_FIRST. -/
def payloadBits (msbFirst : Bool) (v m : Nat) : List Bool :=
  if msbFirst then (codeBits v m).reverse else codeBits v m

/-- The payload assembled from its bits (R99), the i-th of m weighing 2^(m−1−i) when LIT_MSB_FIRST. -/
def payloadOfBits (msbFirst : Bool) (bs : List Bool) : Nat :=
  if msbFirst then codeOfBits bs.reverse else codeOfBits bs

/-! ### Classification of an assembled code -/

/-- What a code value says (R92, R95, R96). -/
inductive CodeClass where
  | lit8
  | lit16
  | eos
  | stored
  | selfRef
  | illegal
  deriving DecidableEq, Repr

/-- The 2-bit header code: 0, 1 a literal, 2 the end marker, anything else illegal (R95, R102 (a)). -/
def headerClass (code : Nat) : CodeClass :=
  if code = 0 then .lit8 else if code = 1 then .lit16 else if code = 2 then .eos else .illegal

/-- The five-way dispatch of R247 on `code` against 0, 1, 2 and DEC.dictSize. -/
def loopClass (dictSize code : Nat) : CodeClass :=
  if code = 0 then .lit8
  else if code = 1 then .lit16
  else if code = 2 then .eos
  else if code < dictSize then .stored
  else if code = dictSize then .selfRef
  else .illegal

/-! ### The decoder -/

/-- Why bits present no instruction. -/
inductive DecodeError where
  /-- The bits end inside the instruction (R271: TruncatedInput). -/
  | truncated
  /-- The rest of the symbol is not the row PAD. The decoder engine never reads it (R103). -/
  | padNotZero
  deriving DecidableEq, Repr

/-- The first `n` bits and the rest. -/
def takeBits (n : Nat) (bs : List Bool) : Except DecodeError (List Bool × List Bool) :=
  if bs.length < n then .error .truncated else .ok (bs.take n, bs.drop n)

/-- A command word (R110): bit 0 START, bit 1 ABSENT. "Bits above bit 1 do not exist" (R22). -/
def decodeCommand (e : Engine) (w : Nat) : Instr :=
  match e, w.testBit 0, w.testBit 1 with
  | .enc, true, false => .encStart
  | .enc, true, true => .encStartAbsent
  | .enc, false, absent => .encNop absent
  | .dec, true, false => .decStart
  | .dec, true, true => .decStartAbsent
  | .dec, false, absent => .decNop absent

/-- The command word at the head of the bits of a CTRL write. -/
def decodeCommandBits (e : Engine) (bs : List Bool) : Except DecodeError (Instr × List Bool) :=
  match takeBits 2 bs with
  | .error x => .error x
  | .ok (w, rest) => .ok (decodeCommand e (codeOfBits w), rest)

/-- The header token at the head of the bits (R95). -/
def decodeHeader (p : Params) (bs : List Bool) : Except DecodeError (HeaderToken × List Bool) :=
  match takeBits 2 bs with
  | .error x => .error x
  | .ok (code, rest) =>
    match headerClass (codeOfBits code) with
    | .lit8 =>
      match takeBits 8 rest with
      | .error x => .error x
      | .ok (c, rest) => .ok (.lit8 (BitVec.ofNat 8 (payloadOfBits p.litMsbFirst c)), rest)
    | .lit16 =>
      match takeBits 16 rest with
      | .error x => .error x
      | .ok (c, rest) => .ok (.lit16 (BitVec.ofNat 16 (payloadOfBits p.litMsbFirst c)), rest)
    | .eos => .ok (.eos, rest)
    | .stored => .ok (.illegal, rest)
    | .selfRef => .ok (.illegal, rest)
    | .illegal => .ok (.illegal, rest)

/-- The loop token at the head of the bits, its code `n` bits wide, read against dictSize `d` (R96). -/
def decodeLoop (p : Params) (n d : Nat) (bs : List Bool) : Except DecodeError (LoopToken × List Bool) :=
  match takeBits n bs with
  | .error x => .error x
  | .ok (code, rest) =>
    match loopClass d (codeOfBits code) with
    | .lit8 =>
      match takeBits 8 rest with
      | .error x => .error x
      | .ok (c, rest) => .ok (.lit8 (BitVec.ofNat 8 (payloadOfBits p.litMsbFirst c)), rest)
    | .lit16 =>
      match takeBits 16 rest with
      | .error x => .error x
      | .ok (c, rest) => .ok (.lit16 (BitVec.ofNat 16 (payloadOfBits p.litMsbFirst c)), rest)
    | .eos => .ok (.eos, rest)
    | .stored => .ok (.ref (codeOfBits code), rest)
    | .selfRef => .ok (.refnew, rest)
    | .illegal => .ok (.illegal (codeOfBits code), rest)

/-- The padding of a symbol with `room` bits left (R100). -/
def decodePadding (room : Nat) (bs : List Bool) : Except DecodeError (Instr × List Bool) :=
  match takeBits room bs with
  | .error x => .error x
  | .ok (z, rest) => if z.all (! ·) then .ok (.pad, rest) else .error .padNotZero

/-- The instruction the bits present at a port, and the bits after it. Total: every list of bits gives an instruction or an
error by name. The internal operations have no encoding (R114). -/
def decode (p : Params) : Port → List Bool → Except DecodeError (Instr × List Bool)
  | .encCtrl, bs => decodeCommandBits .enc bs
  | .decCtrl, bs => decodeCommandBits .dec bs
  | .header, bs =>
    match decodeHeader p bs with
    | .error x => .error x
    | .ok (t, rest) => .ok (t.instr, rest)
  | .loop n d, bs =>
    match decodeLoop p n d bs with
    | .error x => .error x
    | .ok (t, rest) => .ok (t.instr, rest)
  | .padding room, bs => decodePadding room bs

/-! ### The encoder -/

/-- The code width at a port: 2 for the header, numBits in the loop (R98). -/
def Port.codeWidth : Port → Nat
  | .encCtrl => 2
  | .decCtrl => 2
  | .header => 2
  | .loop n _ => n
  | .padding room => room

/-- DEC.dictSize at a port, which is the code of REFNEW (R96). -/
def Port.dictSize : Port → Nat
  | .encCtrl => 0
  | .decCtrl => 0
  | .header => 0
  | .loop _ d => d
  | .padding _ => 0

/-- The stream bits of an instruction at a port, from the formats of R95, R96, R100 and R110; `none` where the instruction
has no encoding there. -/
def encode (p : Params) (q : Port) (i : Instr) : Option (List Bool) :=
  if i.fits q then
    match i with
    | .encStart => some [true, false]
    | .encStartAbsent => some [true, true]
    | .encNop absent => some [false, absent]
    | .decStart => some [true, false]
    | .decStartAbsent => some [true, true]
    | .decNop absent => some [false, absent]
    | .hdrLit8 c => some (codeBits 0 2 ++ payloadBits p.litMsbFirst c.toNat 8)
    | .hdrLit16 c => some (codeBits 1 2 ++ payloadBits p.litMsbFirst c.toNat 16)
    | .hdrEos => some (codeBits 2 2)
    | .hdrIllegal => some (codeBits 3 2)
    | .lit8 c => some (codeBits 0 q.codeWidth ++ payloadBits p.litMsbFirst c.toNat 8)
    | .lit16 c => some (codeBits 1 q.codeWidth ++ payloadBits p.litMsbFirst c.toNat 16)
    | .eos => some (codeBits 2 q.codeWidth)
    | .ref k => some (codeBits k q.codeWidth)
    | .refnew => some (codeBits q.dictSize q.codeWidth)
    | .illegal k => some (codeBits k q.codeWidth)
    | .pad => some (List.replicate q.codeWidth false)
    | .tick _ => none
    | .putbit _ => none
    | .putlsb _ _ => none
    | .putmsb _ _ => none
    | .flush => none
    | .getbit => none
    | .refill => none
    | .getlsb _ => none
    | .getmsb _ => none
    | .encChar => none
    | .registerChar _ => none
    | .register _ => none
    | .emit _ => none
    | .emitLiteral _ => none
    | .encFinish => none
    | .decHeader => none
    | .decToken => none
    | .registerLit _ => none
    | .registerPhrase _ => none
    | .outAppend _ => none
    | .finish _ _ => none
    | .raise _ _ _ => none
  else none

/-! ### The host's table words -/

/-- The longest header token, HDR.LIT16, in bits (R95). -/
def longestHeader : Nat := 18

/-- The bits of a table word, bit 0 first, with zeros above `nbits`. -/
def tableBits (nbits w : Nat) : List Bool :=
  (List.range (max nbits longestHeader)).map (w % 2 ^ nbits).testBit

/-- The table numbers command words and stream tokens alike from bit 0 and does not say where a word arrives. A word of one
byte below 4 is taken as a command word for ENC_CTRL, except 2, which only the row HDR.EOS names in full; every
other word is taken as the first token of a stream (log 10). -/
def tableWordIsCommand (nbits w : Nat) : Bool :=
  decide (nbits ≤ 8) && decide (w < 4) && !(w == 2)

/-- The instruction the decoder reads from a word of the opcode table. -/
def decodeTableWord (nbits w : Nat) : Option Instr :=
  if tableWordIsCommand nbits w then some (decodeCommand .enc w)
  else
    match decode Params.default .header (tableBits nbits w) with
    | .ok (i, _) => some i
    | .error _ => none

end Sys2Proof
end

