-- ==== Sys2Proof/Machine/State.lean ====
section
/-! DEFINITION. The state of LZS-CORE as plain data, its reset value, and the reasons a step can stop. -/

namespace Sys2Proof.Machine

/-- A space of elements addressed by a natural index from 0 (R60): the pairs (index, element) of the elements that differ
from what an unlisted index reads as, indices strictly rising (log 3, log 4). -/
abbrev Memory (α : Type) := List (Nat × α)

/-- ENC.phase (R34). -/
inductive EncPhase where
  | idle
  | scan
  | done
  deriving DecidableEq, Repr

/-- DEC.phase (R43). -/
inductive DecPhase where
  | idle
  | header
  | loop
  | done
  deriving DecidableEq, Repr

/-- The encoder engine: its host-visible registers (R21), its working registers (R27 to R34), its two spaces (R60). -/
structure Enc where
  /-- ENC_BPC (R23). -/
  bpcReg : BitVec 8
  /-- ENC_LEN (R24). -/
  lenReg : Nat
  /-- ENC_STATUS (R25). -/
  status : BitVec 8
  /-- ENC_OUTLEN (R26). -/
  outLen : Nat
  /-- ENC_FINFO (R26). -/
  fInfo : Nat
  /-- ENC.ii, the input cursor (R27). -/
  ii : Nat
  /-- ENC.w, the longest matched phrase, possibly empty (R28). -/
  w : List Char16
  /-- ENC.dictSize, the next code (R29). -/
  dictSize : Nat
  /-- ENC.numBits (R30). -/
  numBits : Nat
  /-- ENC.enlargeIn (R30). -/
  enlargeIn : Nat
  /-- ENC.acc, the bits collected for the next symbol (R31). -/
  acc : Nat
  /-- ENC.pos, how many (R31). -/
  pos : Nat
  /-- ENC.bpc, the latched ENC_BPC (R31). -/
  bpc : Nat
  /-- ENC.len, the latched ENC_LEN (R34). -/
  len : Nat
  /-- ENC.dict, phrase to code, in the order of registration (R32). -/
  dict : List (Phrase × Nat)
  /-- ENC.pend, the pending-literal set, no phrase twice (R33). -/
  pend : List Phrase
  /-- ENC.phase (R34). -/
  phase : EncPhase
  /-- ENC_IN (R61). -/
  inMem : Memory Char16
  /-- ENC_OUT (R62). -/
  outMem : Memory Symbol
  deriving DecidableEq, Repr

/-- The decoder engine: its host-visible registers (R35), its working registers (R37 to R43), its two spaces (R60). -/
structure Dec where
  /-- DEC_RESET (R35). -/
  resetReg : Nat
  /-- DEC_LEN (R35). -/
  lenReg : Nat
  /-- DEC_STATUS (R25, R35). -/
  status : BitVec 8
  /-- DEC_OUTLEN (R35). -/
  outLen : Nat
  /-- DEC_FINFO (R35). -/
  fInfo : Nat
  /-- DEC_FIDX (R35). -/
  fIdx : Nat
  /-- DEC.val, the symbol being consumed (R37). -/
  val : Symbol
  /-- DEC.position, the one-hot mask of the next bit (R37). -/
  position : Nat
  /-- DEC.index, the index of the next symbol to fetch (R37). -/
  index : Nat
  /-- DEC.exh, the exhausted flag (R38). -/
  exh : Bool
  /-- DEC.resetValue, the latched DEC_RESET (R43). -/
  resetValue : Nat
  /-- DEC.len, the latched DEC_LEN (R43). -/
  len : Nat
  /-- DEC.w, the previously decoded phrase (R39). -/
  w : Phrase
  /-- DEC.dictSize, the next free index (R40). -/
  dictSize : Nat
  /-- DEC.numBits (R41). -/
  numBits : Nat
  /-- DEC.enlargeIn (R41). -/
  enlargeIn : Nat
  /-- DEC.dict, index to phrase, in the order of registration (R42). -/
  dict : List (Nat × Phrase)
  /-- DEC.phase (R43). -/
  phase : DecPhase
  /-- DEC_IN (R63). -/
  inMem : Memory Symbol
  /-- DEC_OUT (R64). -/
  outMem : Memory Char16
  deriving DecidableEq, Repr

/-- The agents (R287). -/
inductive Agent where
  | host
  | enc
  | dec
  deriving DecidableEq, Repr

/-- One access of the host: registers by number (R21, R35, R36), the IN spaces it owns, the OUT spaces it reads (R60), the
reset input (R310). -/
inductive HostAccess where
  | writeReg (n : Fin 16) (v : Nat)
  | readReg (n : Fin 16)
  | writeEncIn (i : Nat) (c : Char16)
  | writeDecIn (i : Nat) (v : Symbol)
  | readEncOut (i : Nat)
  | readDecOut (i : Nat)
  | hardReset
  deriving DecidableEq, Repr

/-- The whole machine. -/
structure State where
  /-- The parameters of R7, constant (R46, log 1). -/
  cfg : Params
  /-- The encoder engine. -/
  enc : Enc
  /-- The decoder engine. -/
  dec : Dec
  /-- MODEL's own: the accesses the host has yet to make, the next first (log 7). -/
  host : List HostAccess
  /-- MODEL's own: the agents that move next; empty means the default order (log 6). -/
  sched : List Agent
  /-- MODEL's own: what the host's last read returned (log 7). -/
  hostData : Nat
  /-- MODEL's own: what the last GETBIT, GETLSB or GETMSB run as a step of its own returned (log 8). -/
  ret : Nat
  /-- MODEL's own: the counter applied to the free values of Config (log 13). -/
  freeCount : Nat
  deriving DecidableEq, Repr

/-- Why the machine stops with a fault. The failures of the spec are no such stop: they are next states (R280, log 5). -/
inductive Fault where
  /-- Raised by EMIT, and by ENC.CHAR and ENC.FINISH through it, for a phrase that is neither pending nor in ENC.dict: R188
  gives EMIT the precondition p ∈ dom(ENC.dict) and no effect without it. Safe; no state of a command reaches it
  (Safety.lean, log 15). -/
  | emitWithoutCode
  deriving DecidableEq, Repr

/-- Why the machine refuses a step. -/
inductive Refusal where
  /-- Raised by exec for an instruction that has no meaning yet. Safe. -/
  | notModelled (mnemonic : String)
  /-- Raised by a host write to an engine's IN space while that engine is BUSY: R77, R288. Safe. -/
  | inWriteWhileBusy (e : Engine)
  /-- Raised by a host read of an engine's OUT space before that engine is DONE: R317, R288. Safe. -/
  | outReadBeforeDone (e : Engine)
  /-- Raised by a host write of a value that the register or element has no bits for, which "cannot be written"
  (95_test_vectors.md H9). Safe (log 14). -/
  | hostValueTooWide
  deriving DecidableEq, Repr

/-- The encoder after reset: host registers 0 and phase IDLE by R50; every other register is unspecified there and holds
the value named in log 2. -/
def Enc.reset : Enc :=
  { bpcReg := 0, lenReg := 0, status := 0, outLen := 0, fInfo := 0, ii := 0, w := [], dictSize := 0, numBits := 0,
    enlargeIn := 0, acc := 0, pos := 0, bpc := 0, len := 0, dict := [], pend := [], phase := .idle, inMem := [],
    outMem := [] }

/-- The decoder after reset: host registers 0 and phase IDLE by R50; every other register is unspecified there and holds
the value named in log 2. -/
def Dec.reset : Dec :=
  { resetReg := 0, lenReg := 0, status := 0, outLen := 0, fInfo := 0, fIdx := 0, val := 0, position := 0, index := 0,
    exh := false, resetValue := 0, len := 0, w := { first := 0, rest := [] }, dictSize := 0, numBits := 0,
    enlargeIn := 0, dict := [], phase := .idle, inMem := [], outMem := [] }

/-- The machine after reset (R310, R312): both engines IDLE, all host registers 0, no access of the host pending. -/
def State.reset : State :=
  { cfg := Params.default, enc := Enc.reset, dec := Dec.reset, host := [], sched := [], hostData := 0, ret := 0,
    freeCount := 0 }

end Sys2Proof.Machine
end

