-- ==== Sys2Proof/Machine/Flags.lean ====
section
/-! DEFINITION. The status word of R25 and the flags the rules test. The block has no arithmetic flags (R45). -/

namespace Sys2Proof.Machine

/-- STATE = IDLE. -/
def stateIdle : BitVec 2 := 0#2
/-- STATE = BUSY. -/
def stateBusy : BitVec 2 := 1#2
/-- STATE = DONE. -/
def stateDone : BitVec 2 := 2#2

/-- KIND = FAIL. -/
def kindFail : BitVec 2 := 3#2

/-- The number of a completion kind (R25). -/
def kindNumber : Kind → BitVec 2
  | .seq => 0#2
  | .null => 1#2
  | .overrun => 2#2

/-- The number of a cause (R25). -/
def causeNumber : Cause → BitVec 3
  | .truncatedInput => 1#3
  | .corruptCode => 2#3
  | .invalidArgument => 3#3
  | .capacityExceeded => 4#3

/-- The status word: STATE in bits 1:0, KIND in bits 3:2, CAUSE in bits 6:4, bit 7 reads 0 (R25). -/
def statusWord (state kind : BitVec 2) (cause : BitVec 3) : BitVec 8 := 0#1 ++ cause ++ kind ++ state

/-- The field STATE. -/
def statusState (w : BitVec 8) : BitVec 2 := w.extractLsb' 0 2
/-- The field KIND. -/
def statusKind (w : BitVec 8) : BitVec 2 := w.extractLsb' 2 2
/-- The field CAUSE. -/
def statusCause (w : BitVec 8) : BitVec 3 := w.extractLsb' 4 3

/-- The word START writes (R180, R220): BUSY, KIND 0, CAUSE 0. -/
def statusBusy : BitVec 8 := statusWord stateBusy 0#2 0#3
/-- The word of a normal completion (R279). -/
def statusFinished (k : Kind) : BitVec 8 := statusWord stateDone (kindNumber k) 0#3
/-- The word of a failure (R280). -/
def statusFailed (c : Cause) : BitVec 8 := statusWord stateDone kindFail (causeNumber c)

/-- STATE = BUSY, the test of R22 and R318. -/
def isBusy (w : BitVec 8) : Bool := statusState w == stateBusy
/-- STATE = DONE, the test of R317. -/
def isDone (w : BitVec 8) : Bool := statusState w == stateDone
/-- STATE = DONE and KIND = SEQ: the OUT space is valid up to OUTLEN (R317). -/
def isResult (w : BitVec 8) : Bool := isDone w && statusKind w == kindNumber .seq

/-- STATE as the encoder's phase mirrors it (R34). -/
def EncPhase.state : EncPhase → BitVec 2
  | .idle => stateIdle
  | .scan => stateBusy
  | .done => stateDone

/-- STATE as the decoder's phase mirrors it (R43). -/
def DecPhase.state : DecPhase → BitVec 2
  | .idle => stateIdle
  | .header => stateBusy
  | .loop => stateBusy
  | .done => stateDone

/-- The decoder's command "has passed START's checks" (R280) exactly in the phases HEADER and LOOP (R220, log 22). -/
def DecPhase.pastStart : DecPhase → Bool
  | .idle => false
  | .header => true
  | .loop => true
  | .done => false

end Sys2Proof.Machine
end

