-- ==== Sys2Proof/Machine/Operands.lean ====
section
/-! DEFINITION. Operand forms: phrases, the dictionaries as partial maps, memory elements, register widths. -/

namespace Sys2Proof.Machine

/-! ### Phrases (R9, R10) -/

/-- The one-character phrase [c]. -/
def single (c : Char16) : Phrase := { first := c, rest := [] }

/-- The characters of a phrase in order. -/
def phraseChars (p : Phrase) : List Char16 := p.first :: p.rest

/-- `s ++ [c]` for a possibly empty sequence `s` (R16: wc = w ++ [c]). -/
def extend (s : List Char16) (c : Char16) : Phrase :=
  match s with
  | [] => single c
  | x :: xs => { first := x, rest := xs ++ [c] }

/-- `p ++ [c]`. -/
def append (p : Phrase) (c : Char16) : Phrase := { first := p.first, rest := p.rest ++ [c] }

/-! ### Partial maps (R11) -/

/-- The value at a key, if the key is in the domain. -/
def find {κ β : Type} [DecidableEq κ] : List (κ × β) → κ → Option β
  | [], _ => none
  | (j, x) :: m, k => if j = k then some x else find m k

/-- `m[k] <- v`: a key in the domain keeps its place, a new key is listed last. -/
def assign {κ β : Type} [DecidableEq κ] : List (κ × β) → κ → β → List (κ × β)
  | [], k, v => [(k, v)]
  | (j, x) :: m, k, v => if j = k then (j, v) :: m else (j, x) :: assign m k v

/-- `k ∈ dom(m)`. -/
def inDomain {κ β : Type} [DecidableEq κ] (m : List (κ × β)) (k : κ) : Bool := (find m k).isSome

/-! ### Sets of phrases (R33) -/

/-- `s ∪ {p}`. -/
def insertPhrase (p : Phrase) (s : List Phrase) : List Phrase := if p ∈ s then s else s ++ [p]

/-- `s \ {p}`. -/
def removePhrase (p : Phrase) (s : List Phrase) : List Phrase := s.filter (fun q => !(q == p))

/-! ### Memory spaces (R12, R60) -/

/-- What an element that nothing has written reads as: 0. The contents of the spaces after reset are unspecified (R50);
DESIGN CHOICE, unsafe (log 3). -/
def unlisted {α : Type} [Inhabited α] : α := default

/-- MemRead(SPACE, i). -/
def Memory.read {α : Type} [Inhabited α] : Memory α → Nat → α
  | [], _ => unlisted
  | (j, x) :: m, i => if j = i then x else Memory.read m i

/-- MemWrite(SPACE, i, v), which keeps the canonical form. -/
def Memory.write {α : Type} [Inhabited α] [DecidableEq α] : Memory α → Nat → α → Memory α
  | [], i, v => if v = unlisted then [] else [(i, v)]
  | (j, x) :: m, i, v =>
    if i < j then (if v = unlisted then (j, x) :: m else (i, v) :: (j, x) :: m)
    else if i = j then (if v = unlisted then m else (i, v) :: m)
    else (j, x) :: Memory.write m i v

/-- The canonical form: indices strictly rising, no element listed that reads as unlisted. -/
abbrev Memory.wf {α : Type} [Inhabited α] (m : Memory α) : Prop :=
  m.Pairwise (fun a b => a.1 < b.1) ∧ ∀ c ∈ m, c.2 ≠ unlisted

/-- The elements at `i`, `i + 1`, .., `i + n − 1`. -/
def Memory.slice {α : Type} [Inhabited α] (m : Memory α) (i n : Nat) : List α := (List.range' i n).map (Memory.read m)

/-- The space that holds the listed elements and nothing else. -/
def Memory.ofCells {α : Type} [Inhabited α] [DecidableEq α] (cells : List (Nat × α)) : Memory α :=
  cells.foldl (fun m c => Memory.write m c.1 c.2) []

/-! ### Bounds of registers and elements -/

/-- `n` fits a register of `w` bits; `none` is the unbounded natural (R137). -/
def fitsWidth (w : Option Nat) (n : Nat) : Bool := !w.any (fun w => decide (2 ^ w ≤ n))

/-- A registration would take dictSize from `n` past DICT_CAP, or past what a CNT_W-bit counter holds (R185, R137, R274,
log 17). -/
def dictFull (p : Params) (n : Nat) : Bool := p.dictCap.any (fun c => decide (c ≤ n)) || !fitsWidth p.cntW (n + 1)

/-- OutAppend at OUTLEN = `n` would pass OUT_CAP (R66), or take OUTLEN past what LEN_W bits hold (R137, R274, log 17). -/
def outFull (p : Params) (n : Nat) : Bool := p.outCap.any (fun c => decide (c ≤ n)) || !fitsWidth p.lenW (n + 1)

/-- A legal bitsPerChar: 1 .. BPC_MAX (R23, R182). -/
def legalBpc (p : Params) (n : Nat) : Bool := decide (1 ≤ n) && decide (n ≤ p.bpcMax)

/-- A legal resetValue: one of 2^0, 2^1, .., 2^(BPC_MAX−1) (R35, R223). -/
def legalReset (p : Params) (r : Nat) : Bool := (List.range p.bpcMax).any (fun i => r == 2 ^ i)

end Sys2Proof.Machine
end

