-- ==== Sys2Proof/Machine/Ops.lean ====
section
/-! DEFINITION. The operations every meaning is made of: how a command ends, the schedule, the bit cursors, the registrations,
the emissions. Each is one piece of the spec's pseudocode, over the state of one engine. -/

namespace Sys2Proof.Machine

/-! ### Sequencing -/

/-- What a piece of pseudocode of one engine comes to: it ran to its end with a value, or it ended the command by raise or
finish, after which "nothing after it in the same pseudocode block is executed" (R13), or it has no meaning. -/
inductive Run (σ α : Type) where
  | ok (a : α) (s : σ)
  | ended (s : σ)
  | fault (f : Fault)

/-- `r` and then `k`, unless `r` ended the command. -/
def Run.andThen {σ α β : Type} (r : Run σ α) (k : α → σ → Run σ β) : Run σ β :=
  match r with
  | .ok a s => k a s
  | .ended s => .ended s
  | .fault f => .fault f

/-- The state of the machine after an operation of the encoder. -/
def encOutcome (s : State) (r : Run Enc Unit) : Host.Outcome State Fault Refusal :=
  match r with
  | .ok _ e => .next { s with enc := e }
  | .ended e => .next { s with enc := e }
  | .fault f => .fault f

/-- The state of the machine after an operation of the decoder. -/
def decOutcome (s : State) (r : Run Dec Unit) : Host.Outcome State Fault Refusal :=
  match r with
  | .ok _ d => .next { s with dec := d }
  | .ended d => .next { s with dec := d }
  | .fault f => .fault f

/-- The state of the machine after a reading operation of the decoder, whose value is left in `ret` (log 8). -/
def readOutcome (s : State) (r : Run Dec Nat) : Host.Outcome State Fault Refusal :=
  match r with
  | .ok v d => .next { s with dec := d, ret := v }
  | .ended d => .next { s with dec := d }
  | .fault f => .fault f

/-! ### How a command ends: failure entry (R280) and completion (R279). There is no return from a failure (R281). -/

/-- raise Cause(info) on the encoder (R280). ENC_FINFO takes the whole of `info`: where LEN_W is finite and `info` needs more bits,
that is a DESIGN CHOICE, unsafe (log 31). -/
def Enc.raise (c : Cause) (info : Nat) (e : Enc) : Enc :=
  { e with outLen := 0, fInfo := info, status := statusFailed c, phase := .done }

/-- raise Cause(info) on the decoder (R280): DEC_FIDX too, once the command has passed START's checks. DEC_FINFO and DEC_FIDX take
the whole of `info` and DEC.index: where LEN_W is finite and one needs more bits, that is a DESIGN CHOICE, unsafe (log 31). -/
def Dec.raise (c : Cause) (info : Nat) (d : Dec) : Dec :=
  { d with outLen := 0, fInfo := info, fIdx := if d.phase.pastStart then d.index else d.fIdx,
           status := statusFailed c, phase := .done }

/-- finish(KIND) on the encoder (R279), which produces SEQ only (R25). -/
def Enc.finish (k : Kind) (e : Enc) : Enc :=
  { e with outLen := if k = .seq then e.outLen else 0, status := statusFinished k, phase := .done }

/-- finish(KIND) on the decoder (R279). DEC_FIDX takes the whole of DEC.index (log 31). -/
def Dec.finish (k : Kind) (d : Dec) : Dec :=
  { d with outLen := if k = .seq then d.outLen else 0, fIdx := if k = .overrun then d.index else d.fIdx,
           status := statusFinished k, phase := .done }

/-! ### OutAppend (R12, R66) -/

/-- OutAppend(ENC, v). -/
def Enc.outAppend (p : Params) (v : Symbol) (e : Enc) : Run Enc Unit :=
  if outFull p e.outLen then .ended (e.raise .capacityExceeded e.ii)
  else .ok () { e with outMem := Memory.write e.outMem e.outLen v, outLen := e.outLen + 1 }

/-- OutAppend(DEC, c). -/
def Dec.outAppend (p : Params) (c : Char16) (d : Dec) : Run Dec Unit :=
  if outFull p d.outLen then .ended (d.raise .capacityExceeded d.dictSize)
  else .ok () { d with outMem := Memory.write d.outMem d.outLen c, outLen := d.outLen + 1 }

/-- OutAppend(DEC, x) for each character x of a sequence in order (R239). -/
def Dec.outAppendAll (p : Params) : List Char16 → Dec → Run Dec Unit
  | [], d => .ok () d
  | c :: cs, d => (d.outAppend p c).andThen fun _ d => Dec.outAppendAll p cs d

/-! ### The schedule (R132) -/

/-- TICK on a pair (numBits, enlargeIn). -/
def tickPair (numBits enlargeIn : Nat) : Nat × Nat :=
  if enlargeIn - 1 = 0 then (numBits + 1, 2 ^ numBits) else (numBits, enlargeIn - 1)

/-- TICK(ENC). -/
def Enc.tick (e : Enc) : Enc :=
  { e with numBits := (tickPair e.numBits e.enlargeIn).1, enlargeIn := (tickPair e.numBits e.enlargeIn).2 }

/-- TICK(DEC). -/
def Dec.tick (d : Dec) : Dec :=
  { d with numBits := (tickPair d.numBits d.enlargeIn).1, enlargeIn := (tickPair d.numBits d.enlargeIn).2 }

/-! ### The bit writer (R150 to R157) -/

/-- PUTBIT(b) (R151). -/
def Enc.putBit (p : Params) (b : Bool) (e : Enc) : Run Enc Unit :=
  let e' := { e with acc := (e.acc <<< 1) ||| b.toNat, pos := e.pos + 1 }
  if e'.pos = e'.bpc then (e'.outAppend p e'.acc).andThen fun _ e => .ok () { e with acc := 0, pos := 0 }
  else .ok () e'

/-- PUTBIT of each bit in order. -/
def Enc.putBits (p : Params) : List Bool → Enc → Run Enc Unit
  | [], e => .ok () e
  | b :: bs, e => (e.putBit p b).andThen fun _ e => Enc.putBits p bs e

/-- PUTLSB(v, n) (R152). -/
def Enc.putLsb (p : Params) (v n : Nat) (e : Enc) : Run Enc Unit := e.putBits p (codeBits v n)

/-- PUTMSB(v, m) (R153). -/
def Enc.putMsb (p : Params) (v m : Nat) (e : Enc) : Run Enc Unit := e.putBits p (payloadBits p.litMsbFirst v m)

/-- FLUSH (R156): bpc − pos times PUTBIT(0). -/
def Enc.flush (p : Params) (e : Enc) : Run Enc Unit := e.putBits p (List.replicate (e.bpc - e.pos) false)

/-! ### The bit reader (R158 to R166) -/

/-- REFILL() (R161): no access is made at or beyond DEC.len (R162). -/
def Dec.refill (d : Dec) : Dec :=
  if d.index < d.len then
    { d with position := d.resetValue, val := Memory.read d.inMem d.index, index := d.index + 1 }
  else { d with position := d.resetValue, exh := true, index := d.index + 1 }

/-- GETBIT() (R160). -/
def Dec.getBit (d : Dec) : Run Dec Bool :=
  if d.exh then .ended (d.raise .truncatedInput 0)
  else
    let b := !(d.val &&& d.position == 0)
    let d' := { d with position := d.position >>> 1 }
    .ok b (if d'.position = 0 then d'.refill else d')

/-- `n` bits by GETBIT, in the order delivered. -/
def Dec.getBits : Nat → Dec → Run Dec (List Bool)
  | 0, d => .ok [] d
  | n + 1, d => d.getBit.andThen fun b d => (Dec.getBits n d).andThen fun bs d => .ok (b :: bs) d

/-- GETLSB(n) (R163): the bits assembled as a code (R99). -/
def Dec.getLsb (n : Nat) (d : Dec) : Run Dec Nat := (d.getBits n).andThen fun bs d => .ok (codeOfBits bs) d

/-- GETMSB(m) (R164): the bits assembled as a payload (R99). -/
def Dec.getMsb (p : Params) (m : Nat) (d : Dec) : Run Dec Nat :=
  (d.getBits m).andThen fun bs d => .ok (payloadOfBits p.litMsbFirst bs) d

/-! ### Registrations -/

/-- REGISTER_CHAR(c) (R185). -/
def Enc.registerChar (p : Params) (c : Char16) (e : Enc) : Run Enc Unit :=
  if dictFull p e.dictSize then .ended (e.raise .capacityExceeded e.ii)
  else .ok () { e with dict := assign e.dict (single c) e.dictSize, dictSize := e.dictSize + 1,
                       pend := insertPhrase (single c) e.pend }

/-- REGISTER(wc) (R187). -/
def Enc.register (p : Params) (wc : Phrase) (e : Enc) : Run Enc Unit :=
  if dictFull p e.dictSize then .ended (e.raise .capacityExceeded e.ii)
  else .ok () { e with dict := assign e.dict wc e.dictSize, dictSize := e.dictSize + 1 }

/-- The common form of REGISTER_LIT (R234) and REGISTER_PHRASE (R240): the next index, then TICK. -/
def Dec.registerNext (p : Params) (q : Phrase) (d : Dec) : Run Dec Unit :=
  if dictFull p d.dictSize then .ended (d.raise .capacityExceeded d.dictSize)
  else .ok () (Dec.tick { d with dict := assign d.dict d.dictSize q, dictSize := d.dictSize + 1 })

/-! ### Emissions -/

/-- EMIT_LITERAL(p) (R189). -/
def Enc.emitLiteral (p : Params) (q : Phrase) (e : Enc) : Run Enc Unit :=
  let cp := q.first.toNat
  let sent :=
    if cp < 256 then (e.putLsb p 0 e.numBits).andThen fun _ e => e.putMsb p cp 8
    else (e.putLsb p 1 e.numBits).andThen fun _ e => e.putMsb p cp 16
  sent.andThen fun _ e => .ok () { e.tick with pend := removePhrase q e.pend }

/-- EMIT(p) (R188), whose coded form is R190. A phrase without a code is against its precondition (log 15). -/
def Enc.emit (p : Params) (q : Phrase) (e : Enc) : Run Enc Unit :=
  let sent :=
    if q ∈ e.pend then e.emitLiteral p q
    else
      match find e.dict q with
      | some k => e.putLsb p k e.numBits
      | none => .fault .emitWithoutCode
  sent.andThen fun _ e => .ok () e.tick

/-- EMIT(ENC.w) where ENC.w is not empty (R191); an empty ENC.w emits nothing, and R186 shows that a miss never has one. -/
def Enc.emitMatch (p : Params) (e : Enc) : Run Enc Unit :=
  match e.w with
  | [] => .ok () e
  | x :: xs => e.emit p { first := x, rest := xs }

/-! ### The units of execution of the encoder -/

/-- ENC.CHAR (R184). -/
def Enc.charStep (p : Params) (e : Enc) : Run Enc Unit :=
  let c := Memory.read e.inMem e.ii
  let e := { e with ii := e.ii + 1 }
  let seen := if inDomain e.dict (single c) then .ok () e else e.registerChar p c
  seen.andThen fun _ e =>
    let wc := extend e.w c
    if inDomain e.dict wc then .ok () { e with w := phraseChars wc }
    else
      (e.emitMatch p).andThen fun _ e =>
        (e.register p wc).andThen fun _ e => .ok () { e with w := [c] }

/-- ENC.FINISH (R191), the end marker of R192 and the completion of R193 in it. -/
def Enc.finishStep (p : Params) (e : Enc) : Run Enc Unit :=
  (e.emitMatch p).andThen fun _ e =>
    (e.putLsb p 2 e.numBits).andThen fun _ e =>
      (e.flush p).andThen fun _ e => .ended (e.finish .seq)

/-! ### The decoder's tokens -/

/-- `entry <- DEC.dict[code]` for a stored phrase (R236), `DEC.w ++ [first(DEC.w)]` for code = dictSize (R237), nothing for
any other code (R238). An index below dictSize that holds no phrase is "any other unknown code" (log 16). -/
def Dec.resolve (code : Nat) (d : Dec) : Option Phrase :=
  if code < d.dictSize then find d.dict code
  else if code = d.dictSize then some (append d.w d.w.first)
  else none

/-- The lines of DEC.TOKEN from the resolution of the code on (R231, R236 to R240). -/
def Dec.tail (p : Params) (code : Nat) (d : Dec) : Run Dec Unit :=
  match d.resolve code with
  | none => .ended (d.raise .corruptCode code)
  | some entry =>
    (Dec.outAppendAll p (phraseChars entry) d).andThen fun _ d =>
      (d.registerNext p (append d.w entry.first)).andThen fun _ d => .ok () { d with w := entry }

/-- A literal token (R234): register the literal, then treat the token as a reference to the index just filled. -/
def Dec.literal (p : Params) (c : Char16) (d : Dec) : Run Dec Unit :=
  (d.registerNext p (single c)).andThen fun _ d => d.tail p (d.dictSize - 1)

/-- The lines of DEC.HEADER after a literal has been read (R224, R228). Filling index 3 takes dictSize from 3 to 4: where that
passes DICT_CAP (R7) or a CNT_W-bit counter (R137), it is CapacityExceeded as at every other registration (log 30). -/
def Dec.headerLiteral (p : Params) (c : Char16) (d : Dec) : Run Dec Unit :=
  if dictFull p 3 then .ended (d.raise .capacityExceeded (Config.unsetCounter p))
  else
    let d := { d with dict := assign d.dict 3 (single c), dictSize := 4, numBits := 3, enlargeIn := 4, w := single c }
    (d.outAppend p c).andThen fun _ d => .ok () { d with phase := .loop }

/-- The reading lines of DEC.HEADER (R224, R225, R227): the header token at the bit cursor. -/
def Dec.fetchHeader (p : Params) (d : Dec) : Run Dec HeaderToken :=
  (d.getLsb 2).andThen fun code d =>
    match headerClass code with
    | .lit8 => (d.getMsb p 8).andThen fun c d => .ok (.lit8 (BitVec.ofNat 8 c)) d
    | .lit16 => (d.getMsb p 16).andThen fun c d => .ok (.lit16 (BitVec.ofNat 16 c)) d
    | .eos => .ok .eos d
    | .stored => .ok .illegal d
    | .selfRef => .ok .illegal d
    | .illegal => .ok .illegal d

/-- The reading lines of DEC.TOKEN (R231, R233): the loop token at the bit cursor, its code numBits wide. -/
def Dec.fetchLoop (p : Params) (d : Dec) : Run Dec LoopToken :=
  (d.getLsb d.numBits).andThen fun code d =>
    match loopClass d.dictSize code with
    | .lit8 => (d.getMsb p 8).andThen fun c d => .ok (.lit8 (BitVec.ofNat 8 c)) d
    | .lit16 => (d.getMsb p 16).andThen fun c d => .ok (.lit16 (BitVec.ofNat 16 c)) d
    | .eos => .ok .eos d
    | .stored => .ok (.ref code) d
    | .selfRef => .ok .refnew d
    | .illegal => .ok (.illegal code) d

/-! ### START (R180, R220) -/

/-- ENC.START (R180), ignored while BUSY (R22, R318). Its dictSize 3 may pass DICT_CAP (R7) or a CNT_W-bit counter (R137):
CapacityExceeded, in the place of that assignment (log 30). -/
def Enc.start (p : Params) (absent : Bool) (e : Enc) : Run Enc Unit :=
  if isBusy e.status then .ok () e
  else
    let e := { e with status := statusBusy, outLen := 0, fInfo := 0, bpc := e.bpcReg.toNat, len := e.lenReg }
    if !legalBpc p e.bpc then .ended (e.raise .invalidArgument e.bpc)
    else if absent then .ended (e.finish .seq)
    else if dictFull p 2 then
      .ended (Enc.raise .capacityExceeded (Config.unsetCounter p) { e with dict := [], pend := [] })
    else
      .ok () { e with dict := [], pend := [], dictSize := 3, numBits := 2, enlargeIn := 2, w := [], ii := 0, acc := 0,
                      pos := 0, phase := .scan }

/-- DEC.START (R220), ignored while BUSY (R35, R318). -/
def Dec.start (p : Params) (absent : Bool) (d : Dec) : Run Dec Unit :=
  if isBusy d.status then .ok () d
  else
    let d := { d with status := statusBusy, outLen := 0, fInfo := 0, fIdx := 0, resetValue := d.resetReg, len := d.lenReg }
    if !legalReset p d.resetValue then .ended (d.raise .invalidArgument d.resetValue)
    else if absent then .ended (d.finish .seq)
    else if d.len = 0 then .ended (d.finish .null)
    else
      .ok () { d with dict := [], exh := false, val := Memory.read d.inMem 0, position := d.resetValue, index := 1,
                      phase := .header }

end Sys2Proof.Machine
end

