-- ==== Sys2Proof/Machine/BitCursor.lean ====
section
/-! DEFINITION. Meanings of the bit writer's and the bit reader's operations (R150 to R166) and of PAD (R100). -/

namespace Sys2Proof.Machine

/-- PUTBIT(b) (R151). -/
def execPutbit (b : Bool) (s : State) : Host.Outcome State Fault Refusal := encOutcome s (s.enc.putBit s.cfg b)

/-- PUTLSB(v, n) (R152). -/
def execPutlsb (v n : Nat) (s : State) : Host.Outcome State Fault Refusal := encOutcome s (s.enc.putLsb s.cfg v n)

/-- PUTMSB(v, m) (R153). -/
def execPutmsb (v m : Nat) (s : State) : Host.Outcome State Fault Refusal := encOutcome s (s.enc.putMsb s.cfg v m)

/-- FLUSH (R156). -/
def execFlush (s : State) : Host.Outcome State Fault Refusal := encOutcome s (s.enc.flush s.cfg)

/-- PAD: the zero bits up to the symbol boundary, which FLUSH writes and nothing reads (R100, R156, log 27). -/
def execPad (s : State) : Host.Outcome State Fault Refusal := encOutcome s (s.enc.flush s.cfg)

/-- GETBIT() (R160). -/
def execGetbit (s : State) : Host.Outcome State Fault Refusal :=
  readOutcome s (s.dec.getBit.andThen fun b d => .ok b.toNat d)

/-- REFILL() (R161). -/
def execRefill (s : State) : Host.Outcome State Fault Refusal := .next { s with dec := s.dec.refill }

/-- GETLSB(n) (R163). -/
def execGetlsb (n : Nat) (s : State) : Host.Outcome State Fault Refusal := readOutcome s (s.dec.getLsb n)

/-- GETMSB(m) (R164). -/
def execGetmsb (m : Nat) (s : State) : Host.Outcome State Fault Refusal := readOutcome s (s.dec.getMsb s.cfg m)

end Sys2Proof.Machine
end

