-- ==== Sys2Proof/Machine/Command.lean ====
section
/-! DEFINITION. Meanings of the six command words (R110, R180 to R182, R220 to R223). -/

namespace Sys2Proof.Machine

/-- ENC.START: ENCODE with the input present (R180, R182). -/
def execEncStart (s : State) : Host.Outcome State Fault Refusal := encOutcome s (s.enc.start s.cfg false)

/-- ENC.START.ABSENT: the checks of R180, then zero symbols (R181). -/
def execEncStartAbsent (s : State) : Host.Outcome State Fault Refusal := encOutcome s (s.enc.start s.cfg true)

/-- ENC.NOP: "A write with START = 0 does nothing" (R22), whatever ABSENT is. -/
def execEncNop (_absent : Bool) (s : State) : Host.Outcome State Fault Refusal := .next s

/-- DEC.START: DECODE with the input present (R220, R222, R223). -/
def execDecStart (s : State) : Host.Outcome State Fault Refusal := decOutcome s (s.dec.start s.cfg false)

/-- DEC.START.ABSENT: the checks of R220, then the empty sequence (R221). -/
def execDecStartAbsent (s : State) : Host.Outcome State Fault Refusal := decOutcome s (s.dec.start s.cfg true)

/-- DEC.NOP: as ENC.NOP (R35, R110). -/
def execDecNop (_absent : Bool) (s : State) : Host.Outcome State Fault Refusal := .next s

end Sys2Proof.Machine
end

