-- ==== Sys2Proof/Machine/Completion.lean ====
section
/-! DEFINITION. Meanings of the primitives OutAppend (R66), finish (R279) and raise (R280). -/

namespace Sys2Proof.Machine

/-- OutAppend(E, v) (R12, R66). -/
def execOutAppend (x : OutItem) (s : State) : Host.Outcome State Fault Refusal :=
  match x with
  | .symbol v => encOutcome s (s.enc.outAppend s.cfg v)
  | .char c => decOutcome s (s.dec.outAppend s.cfg c)

/-- finish(KIND) on an engine (R279). -/
def execFinish (e : Engine) (k : Kind) (s : State) : Host.Outcome State Fault Refusal :=
  match e with
  | .enc => .next { s with enc := s.enc.finish k }
  | .dec => .next { s with dec := s.dec.finish k }

/-- raise Cause(info) on an engine (R280). -/
def execRaise (e : Engine) (c : Cause) (info : Nat) (s : State) : Host.Outcome State Fault Refusal :=
  match e with
  | .enc => .next { s with enc := s.enc.raise c info }
  | .dec => .next { s with dec := s.dec.raise c info }

end Sys2Proof.Machine
end

