-- ==== Sys2Proof/Machine/Token.lean ====
section
/-! DEFINITION. Meanings of the stream tokens: what the decoder does once a token's bits are read (R224, R231). -/

namespace Sys2Proof.Machine

/-- HDR.LIT8 c: the payload zero-extended to a character (R99, R224, R228). -/
def execHdrLit8 (c : BitVec 8) (s : State) : Host.Outcome State Fault Refusal :=
  decOutcome s (s.dec.headerLiteral s.cfg (c.setWidth 16))

/-- HDR.LIT16 c (R224, R228). -/
def execHdrLit16 (c : Char16) (s : State) : Host.Outcome State Fault Refusal :=
  decOutcome s (s.dec.headerLiteral s.cfg c)

/-- HDR.EOS: the empty result (R229). -/
def execHdrEos (s : State) : Host.Outcome State Fault Refusal := .next { s with dec := s.dec.finish .seq }

/-- HDR.ILLEGAL: CorruptCode(3) (R230). -/
def execHdrIllegal (s : State) : Host.Outcome State Fault Refusal := .next { s with dec := s.dec.raise .corruptCode 3 }

/-- LIT8 c (R234). -/
def execLit8 (c : BitVec 8) (s : State) : Host.Outcome State Fault Refusal :=
  decOutcome s (s.dec.literal s.cfg (c.setWidth 16))

/-- LIT16 c (R234). -/
def execLit16 (c : Char16) (s : State) : Host.Outcome State Fault Refusal := decOutcome s (s.dec.literal s.cfg c)

/-- EOS: "Nothing is registered and no tick is made" (R235). -/
def execEos (s : State) : Host.Outcome State Fault Refusal := .next { s with dec := s.dec.finish .seq }

/-- REF k (R236). A `k` at or above DEC.dictSize is resolved as R96 says of it (log 20). -/
def execRef (k : Nat) (s : State) : Host.Outcome State Fault Refusal := decOutcome s (s.dec.tail s.cfg k)

/-- REFNEW: the reference whose code is DEC.dictSize (R237). -/
def execRefnew (s : State) : Host.Outcome State Fault Refusal := decOutcome s (s.dec.tail s.cfg s.dec.dictSize)

/-- ILLEGAL k: CorruptCode(k) (R238). -/
def execIllegal (k : Nat) (s : State) : Host.Outcome State Fault Refusal :=
  .next { s with dec := s.dec.raise .corruptCode k }

end Sys2Proof.Machine
end

