-- ==== Sys2Proof/Machine/Decoder.lean ====
section
/-! DEFINITION. Meanings of the decoder's units of execution and registrations (R224, R231, R234, R240). -/

namespace Sys2Proof.Machine

/-- What a header token does once it has been read. -/
def runHeaderToken (t : HeaderToken) (s : State) : Host.Outcome State Fault Refusal :=
  match t with
  | .lit8 c => execHdrLit8 c s
  | .lit16 c => execHdrLit16 c s
  | .eos => execHdrEos s
  | .illegal => execHdrIllegal s

/-- What a loop token does once it has been read. -/
def runLoopToken (t : LoopToken) (s : State) : Host.Outcome State Fault Refusal :=
  match t with
  | .lit8 c => execLit8 c s
  | .lit16 c => execLit16 c s
  | .eos => execEos s
  | .ref k => execRef k s
  | .refnew => execRefnew s
  | .illegal k => execIllegal k s

/-- DEC.HEADER: read the header token at the bit cursor and run it (R224). -/
def execDecHeader (s : State) : Host.Outcome State Fault Refusal :=
  match s.dec.fetchHeader s.cfg with
  | .ok t d => runHeaderToken t { s with dec := d }
  | .ended d => .next { s with dec := d }
  | .fault f => .fault f

/-- DEC.TOKEN: the loop-top test (R232), then read the token at the bit cursor and run it (R231). -/
def execDecToken (s : State) : Host.Outcome State Fault Refusal :=
  if s.dec.exh then
    if s.cfg.strictOverrun then .next { s with dec := s.dec.raise .truncatedInput 0 }
    else .next { s with dec := s.dec.finish .overrun }
  else
    match s.dec.fetchLoop s.cfg with
    | .ok t d => runLoopToken t { s with dec := d }
    | .ended d => .next { s with dec := d }
    | .fault f => .fault f

/-- REGISTER_LIT(c) (R234). -/
def execRegisterLit (c : Char16) (s : State) : Host.Outcome State Fault Refusal :=
  decOutcome s (s.dec.registerNext s.cfg (single c))

/-- REGISTER_PHRASE(p) (R240). -/
def execRegisterPhrase (p : Phrase) (s : State) : Host.Outcome State Fault Refusal :=
  decOutcome s (s.dec.registerNext s.cfg p)

end Sys2Proof.Machine
end

