-- ==== Sys2Proof/Machine/Encoder.lean ====
section
/-! DEFINITION. Meanings of the encoder's operations (R184 to R192). -/

namespace Sys2Proof.Machine

/-- ENC.CHAR: one character step (R184). -/
def execEncChar (s : State) : Host.Outcome State Fault Refusal := encOutcome s (s.enc.charStep s.cfg)

/-- REGISTER_CHAR(c) (R185). -/
def execRegisterChar (c : Char16) (s : State) : Host.Outcome State Fault Refusal :=
  encOutcome s (s.enc.registerChar s.cfg c)

/-- REGISTER(wc) (R187). -/
def execRegister (wc : Phrase) (s : State) : Host.Outcome State Fault Refusal := encOutcome s (s.enc.register s.cfg wc)

/-- EMIT(p) (R188, R190). -/
def execEmit (p : Phrase) (s : State) : Host.Outcome State Fault Refusal := encOutcome s (s.enc.emit s.cfg p)

/-- EMIT_LITERAL(p) (R189). -/
def execEmitLiteral (p : Phrase) (s : State) : Host.Outcome State Fault Refusal :=
  encOutcome s (s.enc.emitLiteral s.cfg p)

/-- ENC.FINISH (R191). -/
def execEncFinish (s : State) : Host.Outcome State Fault Refusal := encOutcome s (s.enc.finishStep s.cfg)

end Sys2Proof.Machine
end

