-- ==== Sys2Proof/Machine/Schedule.lean ====
section
/-! DEFINITION. Meaning of TICK (R130, R132). -/

namespace Sys2Proof.Machine

/-- TICK(E): the executing engine's own pair (R132). -/
def execTick (e : Engine) (s : State) : Host.Outcome State Fault Refusal :=
  match e with
  | .enc => .next { s with enc := s.enc.tick }
  | .dec => .next { s with dec := s.dec.tick }

end Sys2Proof.Machine
end

