-- ==== Sys2Proof/Machine/Dispatch.lean ====
section
/-! DEFINITION. exec: one arm per constructor of Instr. -/

namespace Sys2Proof.Machine

def exec (i : Instr) (s : State) : Host.Outcome State Fault Refusal :=
  match i with
  -- command words
  | .encStart => Sys2Proof.Machine.execEncStart s
  | .encStartAbsent => Sys2Proof.Machine.execEncStartAbsent s
  | .encNop absent => Sys2Proof.Machine.execEncNop absent s
  | .decStart => Sys2Proof.Machine.execDecStart s
  | .decStartAbsent => Sys2Proof.Machine.execDecStartAbsent s
  | .decNop absent => Sys2Proof.Machine.execDecNop absent s
  -- header tokens
  | .hdrLit8 c => Sys2Proof.Machine.execHdrLit8 c s
  | .hdrLit16 c => Sys2Proof.Machine.execHdrLit16 c s
  | .hdrEos => Sys2Proof.Machine.execHdrEos s
  | .hdrIllegal => Sys2Proof.Machine.execHdrIllegal s
  -- loop tokens
  | .lit8 c => Sys2Proof.Machine.execLit8 c s
  | .lit16 c => Sys2Proof.Machine.execLit16 c s
  | .eos => Sys2Proof.Machine.execEos s
  | .ref k => Sys2Proof.Machine.execRef k s
  | .refnew => Sys2Proof.Machine.execRefnew s
  | .illegal k => Sys2Proof.Machine.execIllegal k s
  | .pad => Sys2Proof.Machine.execPad s
  -- internal operations
  | .tick e => Sys2Proof.Machine.execTick e s
  | .putbit b => Sys2Proof.Machine.execPutbit b s
  | .putlsb v n => Sys2Proof.Machine.execPutlsb v n s
  | .putmsb v m => Sys2Proof.Machine.execPutmsb v m s
  | .flush => Sys2Proof.Machine.execFlush s
  | .getbit => Sys2Proof.Machine.execGetbit s
  | .refill => Sys2Proof.Machine.execRefill s
  | .getlsb n => Sys2Proof.Machine.execGetlsb n s
  | .getmsb m => Sys2Proof.Machine.execGetmsb m s
  | .encChar => Sys2Proof.Machine.execEncChar s
  | .registerChar c => Sys2Proof.Machine.execRegisterChar c s
  | .register wc => Sys2Proof.Machine.execRegister wc s
  | .emit p => Sys2Proof.Machine.execEmit p s
  | .emitLiteral p => Sys2Proof.Machine.execEmitLiteral p s
  | .encFinish => Sys2Proof.Machine.execEncFinish s
  | .decHeader => Sys2Proof.Machine.execDecHeader s
  | .decToken => Sys2Proof.Machine.execDecToken s
  | .registerLit c => Sys2Proof.Machine.execRegisterLit c s
  | .registerPhrase p => Sys2Proof.Machine.execRegisterPhrase p s
  | .outAppend x => Sys2Proof.Machine.execOutAppend x s
  | .finish e k => Sys2Proof.Machine.execFinish e k s
  | .raise e c info => Sys2Proof.Machine.execRaise e c info s

end Sys2Proof.Machine
end

