-- ==== Sys2Proof/Machine/HostPort.lean ====
section
/-! DEFINITION. What each access of the host does (R21 to R26, R35, R36, R60, R77, R310, R316 to R318). -/

namespace Sys2Proof.Machine

/-! ### Register writes -/

/-- A write of ENC_BPC: "Any 8-bit value can be written" (R23). -/
def writeEncBpc (v : Nat) (s : State) : Host.Outcome State Fault Refusal :=
  if v < 2 ^ 8 then .next { s with enc := { s.enc with bpcReg := BitVec.ofNat 8 v } } else .refused .hostValueTooWide

/-- A write of ENC_LEN (R24). -/
def writeEncLen (v : Nat) (s : State) : Host.Outcome State Fault Refusal :=
  if fitsWidth s.cfg.lenW v then .next { s with enc := { s.enc with lenReg := v } } else .refused .hostValueTooWide

/-- A write of DEC_RESET, BPC_MAX bits wide (R35). -/
def writeDecReset (v : Nat) (s : State) : Host.Outcome State Fault Refusal :=
  if v < 2 ^ s.cfg.bpcMax then .next { s with dec := { s.dec with resetReg := v } } else .refused .hostValueTooWide

/-- A write of DEC_LEN (R35). -/
def writeDecLen (v : Nat) (s : State) : Host.Outcome State Fault Refusal :=
  if fitsWidth s.cfg.lenW v then .next { s with dec := { s.dec with lenReg := v } } else .refused .hostValueTooWide

/-- A write of a register by number. A CTRL register takes a command word (R22, R110). The read-only registers 3 to 5 and
11 to 14 and the absent 6, 7 and 15 take nothing (R21, R35, R36, log 14). Configuration may be written while BUSY (R316). -/
def writeReg (n : Fin 16) (v : Nat) (s : State) : Host.Outcome State Fault Refusal :=
  match n.val with
  | 0 => exec (decodeCommand .enc v) s
  | 1 => writeEncBpc v s
  | 2 => writeEncLen v s
  | 8 => exec (decodeCommand .dec v) s
  | 9 => writeDecReset v s
  | 10 => writeDecLen v s
  | _ => .next s

/-! ### Register reads -/

/-- A read that returns `v` to the host. -/
def returns (v : Nat) (s : State) : Host.Outcome State Fault Refusal := .next { s with hostData := v }

/-- A read that returns a value below `bound` on which the spec says no more (log 13). -/
def returnsFree (bound : Nat) (s : State) : Host.Outcome State Fault Refusal :=
  .next { s with hostData := Config.freeValue s.freeCount % bound, freeCount := s.freeCount + 1 }

/-- A read of OUTLEN = `n`, the result from DONE on whether or not the host has read STATE = DONE (log 32): while BUSY "a value
from some moment between START and the read" (R317), and from START on OUTLEN
has taken the values 0 to `n` (R26). -/
def readOutLen (status : BitVec 8) (n : Nat) (s : State) : Host.Outcome State Fault Refusal :=
  if isBusy status then returnsFree (n + 1) s else returns n s

/-- A read of a register by number. FINFO and FIDX are written only at the end of a command (R26, R35), so while BUSY every
moment since START gives the value they hold. The CTRL registers and 6, 7, 15 read 0 (R21, R35, R36). -/
def readReg (n : Fin 16) (s : State) : Host.Outcome State Fault Refusal :=
  match n.val with
  | 1 => returns s.enc.bpcReg.toNat s
  | 2 => returns s.enc.lenReg s
  | 3 => returns s.enc.status.toNat s
  | 4 => readOutLen s.enc.status s.enc.outLen s
  | 5 => returns s.enc.fInfo s
  | 9 => returns s.dec.resetReg s
  | 10 => returns s.dec.lenReg s
  | 11 => returns s.dec.status.toNat s
  | 12 => readOutLen s.dec.status s.dec.outLen s
  | 13 => returns s.dec.fInfo s
  | 14 => returns s.dec.fIdx s
  | _ => returns 0 s

/-! ### The spaces -/

/-- A write of ENC_IN: refused while the encoder is BUSY (R77, R316, R288). From DONE on it is a plain write, whether or not the
host
has read STATE = DONE: DESIGN CHOICE, unsafe (log 32). -/
def writeEncIn (i : Nat) (c : Char16) (s : State) : Host.Outcome State Fault Refusal :=
  if isBusy s.enc.status then .refused (.inWriteWhileBusy .enc)
  else .next { s with enc := { s.enc with inMem := Memory.write s.enc.inMem i c } }

/-- A write of DEC_IN, an element of BPC_MAX bits (R60): refused while the decoder is BUSY (R77, R316, R288). From
DONE on it is a plain write, whether or not the host has read STATE = DONE: DESIGN CHOICE, unsafe (log 32). -/
def writeDecIn (i : Nat) (v : Symbol) (s : State) : Host.Outcome State Fault Refusal :=
  if isBusy s.dec.status then .refused (.inWriteWhileBusy .dec)
  else if v < 2 ^ s.cfg.bpcMax then .next { s with dec := { s.dec with inMem := Memory.write s.dec.inMem i v } }
  else .refused .hostValueTooWide

/-- A read of ENC_OUT (R317): valid after DONE with KIND = SEQ below OUTLEN, any value elsewhere after DONE (U8), refused
before DONE (R288). That it is valid before the host has read STATE = DONE too is a DESIGN CHOICE, unsafe (log 32). -/
def readEncOut (i : Nat) (s : State) : Host.Outcome State Fault Refusal :=
  if !isDone s.enc.status then .refused (.outReadBeforeDone .enc)
  else if isResult s.enc.status && decide (i < s.enc.outLen) then returns (Memory.read s.enc.outMem i) s
  else returnsFree (2 ^ s.cfg.bpcMax) s

/-- A read of DEC_OUT (R64, R317): as readEncOut, with 16-bit elements (log 32). -/
def readDecOut (i : Nat) (s : State) : Host.Outcome State Fault Refusal :=
  if !isDone s.dec.status then .refused (.outReadBeforeDone .dec)
  else if isResult s.dec.status && decide (i < s.dec.outLen) then returns (Memory.read s.dec.outMem i).toNat s
  else returnsFree (2 ^ 16) s

/-! ### The reset input -/

/-- A space of 16-bit characters with open contents (R310). -/
def freeChars (k : Nat) : Memory Char16 :=
  Memory.ofCells ((Config.freeCells k).map fun c => (c.1, BitVec.ofNat 16 c.2))

/-- A space of symbols below 2^BPC_MAX with open contents (R310). -/
def freeSymbols (p : Params) (k : Nat) : Memory Symbol :=
  Memory.ofCells ((Config.freeCells k).map fun c => (c.1, c.2 % 2 ^ p.bpcMax))

/-- The reset input (R310): host registers 0, both engines IDLE, a command in progress abandoned, the four spaces unspecified.
The unspecified working registers take the values of State.reset, which no rule reads (R50, log 21). -/
def hardReset (s : State) : State :=
  { s with
    enc := { Enc.reset with inMem := freeChars s.freeCount, outMem := freeSymbols s.cfg (s.freeCount + 1) }
    dec := { Dec.reset with inMem := freeSymbols s.cfg (s.freeCount + 2), outMem := freeChars (s.freeCount + 3) }
    freeCount := s.freeCount + 4 }

/-- One access of the host. -/
def hostAccess (a : HostAccess) (s : State) : Host.Outcome State Fault Refusal :=
  match a with
  | .writeReg n v => writeReg n v s
  | .readReg n => readReg n s
  | .writeEncIn i c => writeEncIn i c s
  | .writeDecIn i v => writeDecIn i v s
  | .readEncOut i => readEncOut i s
  | .readDecOut i => readDecOut i s
  | .hardReset => .next (hardReset s)

end Sys2Proof.Machine
end

