-- ==== Sys2Proof/Machine/Sequencer.lean ====
section
/-! DEFINITION. Which agent moves and what it runs (R183, R199, R247, R326, R327), and how the host's tests place one
instruction. -/

namespace Sys2Proof.Machine

/-- The encoder's next unit (R183): a character step while ii < len, else the finish step. -/
def encUnit (e : Enc) : Instr := if e.ii < e.len then .encChar else .encFinish

/-- A step of the encoder: one unit in phase SCAN, nothing in IDLE and DONE (R183, R199). -/
def encStep (s : State) : Host.Outcome State Fault Refusal :=
  match s.enc.phase with
  | .idle => .next s
  | .scan => exec (encUnit s.enc) s
  | .done => .next s

/-- A step of the decoder: the header step in phase HEADER, a token step in LOOP, nothing in IDLE and DONE (R247). -/
def decStep (s : State) : Host.Outcome State Fault Refusal :=
  match s.dec.phase with
  | .idle => .next s
  | .header => exec .decHeader s
  | .loop => exec .decToken s
  | .done => .next s

/-- A step of the host: its next access, if it has one (log 7). -/
def hostStep (s : State) : Host.Outcome State Fault Refusal :=
  match s.host with
  | [] => .next s
  | a :: rest => hostAccess a { s with host := rest }

/-- A step of an agent. -/
def agentStep (a : Agent) (s : State) : Host.Outcome State Fault Refusal :=
  match a with
  | .host => hostStep s
  | .enc => encStep s
  | .dec => decStep s

/-- The agent that moves where `sched` names none: the commands run to completion one at a time (R327), then the host, which
so waits for DONE as R313 and R314 have it do (log 6). -/
def defaultAgent (s : State) : Agent :=
  if s.enc.phase = .scan then .enc
  else if s.dec.phase = .header ∨ s.dec.phase = .loop then .dec
  else .host

/-- One step of the machine: the agent that `sched` names next, else the default. -/
def machineStep (s : State) : Host.Outcome State Fault Refusal :=
  match s.sched with
  | [] => agentStep (defaultAgent s) s
  | a :: rest => agentStep a { s with sched := rest }

/-! ### Placing one instruction -/

/-- A command word as the host's next access, a write of ENC_CTRL, and the host as the next agent. -/
def placeCommand (s : State) (w : Nat) : State := { s with sched := .host :: s.sched, host := .writeReg 0 w :: s.host }

/-- The decoder at the start of a stream of one-bit symbols, each stream bit one element of DEC_IN, and the decoder as the
next agent: what DEC.START leaves (R220) with DEC_RESET = 1 (log 25). -/
def placeHeader (s : State) (bits : List Bool) : State :=
  { s with
    sched := .dec :: s.sched
    dec := { s.dec with
      status := statusBusy, resetReg := 1, resetValue := 1, lenReg := bits.length, len := bits.length, dict := []
      inMem := Memory.ofCells ((List.range bits.length).zip (bits.map Bool.toNat))
      val := (bits.headD false).toNat, position := 1, index := 1, exh := false, phase := .header } }

/-- The state in which the next step runs the instruction of a table word (log 10). -/
def placeTableWord (s : State) (nbits w : Nat) : State :=
  if tableWordIsCommand nbits w then placeCommand s w else placeHeader s (tableBits nbits w)

end Sys2Proof.Machine
end

