-- ==== Sys2Proof/Machine/Stream.lean ====
section
/-! DEFINITION. The bit sequences behind the two cursors (R67, R154, R165), in which the claims speak. No meaning uses
them. -/

namespace Sys2Proof.Machine

/-- The bits a symbol of `width` bits carries, its most significant bit first (R67). -/
def symbolBits (width : Nat) (v : Symbol) : List Bool := (codeBits v width).reverse

/-- The bits of symbols one after the other (R67). -/
def streamBits (width : Nat) (vs : List Symbol) : List Bool := vs.flatMap (symbolBits width)

/-- The stream bits the writer has appended since START, in order: those of the symbols in ENC_OUT, then the `pos` bits in
ENC.acc, "the earliest bit highest" (R31, R154). -/
def Enc.written (e : Enc) : List Bool :=
  streamBits e.bpc (Memory.slice e.outMem 0 e.outLen) ++ symbolBits e.pos e.acc

/-- The symbol width of the decoder's stream, log2(resetValue) + 1 (R37, R63). -/
def Dec.symbolWidth (d : Dec) : Nat := Nat.log2 d.resetValue + 1

/-- The stream bits the reader has yet to deliver, in order: the rest of DEC.val from DEC.position down, then the symbols
from DEC.index up to DEC.len (R37, R160, R161); none once exhausted (R38). -/
def Dec.ahead (d : Dec) : List Bool :=
  if d.exh then []
  else symbolBits (Nat.log2 d.position + 1) d.val ++
    streamBits d.symbolWidth (Memory.slice d.inMem d.index (d.len - d.index))

/-- The characters in DEC_OUT so far. -/
def Dec.output (d : Dec) : List Char16 := Memory.slice d.outMem 0 d.outLen

/-- The literal token of a character at the encoder's code width (R189, R96). -/
def literalBits (p : Params) (e : Enc) (c : Char16) : List Bool :=
  if c.toNat < 256 then codeBits 0 e.numBits ++ payloadBits p.litMsbFirst c.toNat 8
  else codeBits 1 e.numBits ++ payloadBits p.litMsbFirst c.toNat 16

/-- The token EMIT sends for a phrase (R97, R188 to R190): the literal of its character while it is pending, else the
reference to its code; `none` where it has no code. -/
def Enc.tokenBits (p : Params) (e : Enc) (q : Phrase) : Option (List Bool) :=
  if q ∈ e.pend then some (literalBits p e q.first)
  else (find e.dict q).map fun k => codeBits k e.numBits

/-- `k` steps of the machine, stopping at a fault or a refusal. -/
def steps : Nat → State → Host.Outcome State Fault Refusal
  | 0, s => .next s
  | k + 1, s =>
    match step s with
    | .next t => steps k t
    | .fault f => .fault f
    | .refused r => .refused r

end Sys2Proof.Machine
end

