-- ==== Sys2Proof/Safety.lean ====
section
/-! DEFINITION. What holds of every state of a command that the spec's rules reach (R44), in the terms the claims use. -/

namespace Sys2Proof.Machine

/-! ### The pieces -/

/-- R134: a pair (numBits, enlargeIn) of the schedule. -/
abbrev ScheduleOk (numBits enlargeIn : Nat) : Prop := 2 ≤ numBits ∧ 1 ≤ enlargeIn ∧ enlargeIn ≤ 2 ^ (numBits - 1)

/-- R154: the writer's cursor. -/
abbrev Enc.CursorOk (e : Enc) : Prop := e.pos < e.bpc ∧ e.acc < 2 ^ e.pos

/-- R44 item 7, R37, R38: the reader's cursor. Both masks are powers of two; before exhaustion the index has been fetched up
to a symbol of the input, after it the index has passed the declared length. -/
abbrev Dec.CursorOk (d : Dec) : Prop :=
  d.position = 2 ^ Nat.log2 d.position ∧ d.resetValue = 2 ^ Nat.log2 d.resetValue ∧ d.position ≤ d.resetValue ∧
  (d.exh = true → d.index = d.len + 1) ∧ (d.exh = false → 1 ≤ d.index ∧ d.index ≤ d.len)

/-- No failure by capacity can occur: DICT_CAP, OUT_CAP and the counters are unbounded (R274). -/
abbrev State.Unbounded (s : State) : Prop := s.cfg.unbounded

/-- Taking dictSize from `n` to `n + 1` passes DICT_CAP (R7), or what a CNT_W-bit counter holds (R137). -/
def NoRoom (p : Params) (n : Nat) : Prop :=
  (∃ cap, p.dictCap = some cap ∧ cap < n + 1) ∨ (∃ w, p.cntW = some w ∧ 2 ^ w ≤ n + 1)

/-- `e'` is `e` after the bits `bs` have been appended to the stream (R151, R154): only the writer's cursor, OUTLEN and the
elements of ENC_OUT from the old OUTLEN up to the new one differ, and those are below 2^bpc (R62). -/
structure Enc.Appended (bs : List Bool) (e e' : Enc) : Prop where
  frame : e' = { e with acc := e'.acc, pos := e'.pos, outMem := e'.outMem, outLen := e'.outLen }
  cursor : e'.CursorOk
  canonical : Memory.wf e'.outMem
  bits : e'.written = e.written ++ bs
  grows : e.outLen ≤ e'.outLen
  elsewhere : ∀ a, a < e.outLen ∨ e'.outLen ≤ a → Memory.read e'.outMem a = Memory.read e.outMem a
  bounded : ∀ a, e.outLen ≤ a → a < e'.outLen → Memory.read e'.outMem a < 2 ^ e.bpc

/-- `d'` is `d` after its cursor has moved (R160, R161): nothing but the cursor differs. -/
structure Dec.Moved (d d' : Dec) : Prop where
  frame : d' = { d with val := d'.val, position := d'.position, index := d'.index, exh := d'.exh }
  cursor : d'.CursorOk

/-- `d'` is `d` after the characters `cs` have been appended to the output (R64, R66, R239): only DEC_OUTLEN and the elements
of DEC_OUT from the old DEC_OUTLEN up to the new one differ. -/
structure Dec.Wrote (cs : List Char16) (d d' : Dec) : Prop where
  frame : d' = { d with outMem := d'.outMem, outLen := d'.outLen }
  length : d'.outLen = d.outLen + cs.length
  canonical : Memory.wf d'.outMem
  output : d'.output = d.output ++ cs
  elsewhere : ∀ a, a < d.outLen ∨ d'.outLen ≤ a → Memory.read d'.outMem a = Memory.read d.outMem a

/-! ### The encoder in phase SCAN (R44 items 1 to 5 and 7, R28, R62, R136) -/

/-- What holds between the character steps of an ENCODE. -/
structure Enc.ScanOk (p : Params) (e : Enc) : Prop where
  /-- R182: the width was checked at START. -/
  width : legalBpc p e.bpc = true
  /-- R154. -/
  cursor : e.CursorOk
  /-- R27: the cursor never passes the length. -/
  input : e.ii ≤ e.len
  /-- R44 item 1. -/
  schedule : ScheduleOk e.numBits e.enlargeIn
  /-- R44 item 2: the codes are 3 .. dictSize − 1, in the order of registration. -/
  codes : 3 ≤ e.dictSize ∧ e.dict.map Prod.snd = List.range' 3 (e.dictSize - 3)
  /-- R32: no phrase is registered twice. -/
  phrases : (e.dict.map Prod.fst).Nodup
  /-- R44 item 3: prefix closure. -/
  prefixes : ∀ q c k, find e.dict (append q c) = some k → ∃ j, j < k ∧ find e.dict q = some j
  /-- R184: step 2a registers a character before step 2c registers a phrase that ends in it. -/
  characters : ∀ q c, inDomain e.dict (append q c) = true → inDomain e.dict (single c) = true
  /-- R28: the match is empty only before the first character, else it is a phrase of the dictionary. -/
  current : (e.w = [] ∧ e.dict = [] ∧ e.pend = []) ∨ ∃ q, e.w = phraseChars q ∧ inDomain e.dict q = true
  /-- R44 item 4, and R189: a pending character is the match, and no other phrase begins with it. -/
  pending : e.pend = [] ∨
    ∃ c, e.pend = [single c] ∧ e.w = [c] ∧ ∀ q, inDomain e.dict q = true → q.first = c → q = single c
  /-- R136: dictSize = 3 + t + p after t ticks with p characters pending, t = 2^numBits − 2 − enlargeIn (R135). -/
  ticks : e.enlargeIn + e.dictSize = 2 ^ e.numBits + 1 + e.pend.length
  /-- R62: every symbol written is below 2^bpc. -/
  symbols : ∀ i, i < e.outLen → Memory.read e.outMem i < 2 ^ e.bpc

/-! ### The decoder in phases HEADER and LOOP (R44 items 1, 6 and 7, R39, R40, R41) -/

/-- What holds before the header step. -/
structure Dec.HeaderOk (p : Params) (d : Dec) : Prop where
  /-- R223: the reset value was checked at START. -/
  mask : legalReset p d.resetValue = true
  cursor : d.CursorOk
  /-- R220. -/
  dict : d.dict = []
  output : d.outLen = 0

/-- What holds between the token steps of a DECODE. -/
structure Dec.LoopOk (p : Params) (d : Dec) : Prop where
  mask : legalReset p d.resetValue = true
  cursor : d.CursorOk
  /-- R44 item 1. -/
  schedule : ScheduleOk d.numBits d.enlargeIn
  /-- R44 item 6: dom(DEC.dict) = 3 .. dictSize − 1, in the order of registration. -/
  indices : 4 ≤ d.dictSize ∧ d.dict.map Prod.fst = List.range' 3 (d.dictSize - 3)
  /-- R39: the previous phrase is stored. -/
  previous : d.w ∈ d.dict.map Prod.snd
  /-- R133, R228: one tick per registration from (3, 4) at dictSize 4. -/
  ticks : d.enlargeIn + d.dictSize = 2 ^ d.numBits
  /-- R44 item 6: DEC.w is the phrase most recently appended to the output. -/
  tail : ∃ before, d.output = before ++ phraseChars d.w

/-! ### The invariants -/

/-- Every space is in canonical form. -/
abbrev State.MemoriesOk (s : State) : Prop :=
  Memory.wf s.enc.inMem ∧ Memory.wf s.enc.outMem ∧ Memory.wf s.dec.inMem ∧ Memory.wf s.dec.outMem

/-- R34, R43, R25: STATE mirrors the phase, and each status word is one the engine produces: idle, busy, or DONE with a kind
or a cause of its own. -/
abbrev State.StatusOk (s : State) : Prop :=
  statusState s.enc.status = s.enc.phase.state ∧ statusState s.dec.status = s.dec.phase.state ∧
  s.enc.status ∈ [0#8, statusBusy, statusFinished .seq, statusFailed .invalidArgument, statusFailed .capacityExceeded] ∧
  s.dec.status ∈ [0#8, statusBusy, statusFinished .seq, statusFinished .null, statusFinished .overrun,
    statusFailed .truncatedInput, statusFailed .corruptCode, statusFailed .invalidArgument,
    statusFailed .capacityExceeded]

/-- R44 for the encoder. -/
abbrev State.EncoderOk (s : State) : Prop := s.enc.phase = .scan → s.enc.ScanOk s.cfg

/-- R44 for the decoder. -/
abbrev State.DecoderOk (s : State) : Prop :=
  (s.dec.phase = .header → s.dec.HeaderOk s.cfg) ∧ (s.dec.phase = .loop → s.dec.LoopOk s.cfg)

/-! ### Agents and their turns -/

/-- It is agent `a`'s turn in `s`, and `t` is `s` with the turn taken off the schedule: `sched` names it, or `sched` is
empty and the default order picks it (log 6). -/
abbrev State.TurnOf (s : State) (a : Agent) (t : State) : Prop :=
  (s.sched = [] ∧ defaultAgent s = a ∧ t = s) ∨ ∃ rest, s.sched = a :: rest ∧ t = { s with sched := rest }

/-- The CTRL register of an engine (R21, R35). -/
def ctrlReg : Engine → Fin 16
  | .enc => 0
  | .dec => 8

/-- Where its command words arrive. -/
def ctrlPort : Engine → Port
  | .enc => .encCtrl
  | .dec => .decCtrl

/-- Which engine an instruction is an operation of (R20). -/
def engineOf : Instr → Engine
  | .encStart => .enc
  | .encStartAbsent => .enc
  | .encNop _ => .enc
  | .decStart => .dec
  | .decStartAbsent => .dec
  | .decNop _ => .dec
  | .hdrLit8 _ => .dec
  | .hdrLit16 _ => .dec
  | .hdrEos => .dec
  | .hdrIllegal => .dec
  | .lit8 _ => .dec
  | .lit16 _ => .dec
  | .eos => .dec
  | .ref _ => .dec
  | .refnew => .dec
  | .illegal _ => .dec
  | .pad => .enc
  | .tick e => e
  | .putbit _ => .enc
  | .putlsb _ _ => .enc
  | .putmsb _ _ => .enc
  | .flush => .enc
  | .getbit => .dec
  | .refill => .dec
  | .getlsb _ => .dec
  | .getmsb _ => .dec
  | .encChar => .enc
  | .registerChar _ => .enc
  | .register _ => .enc
  | .emit _ => .enc
  | .emitLiteral _ => .enc
  | .encFinish => .enc
  | .decHeader => .dec
  | .decToken => .dec
  | .registerLit _ => .dec
  | .registerPhrase _ => .dec
  | .outAppend (.symbol _) => .enc
  | .outAppend (.char _) => .dec
  | .finish e _ => e
  | .raise e _ _ => e

/-- An instruction `k` times in a row. -/
def execTimes (i : Instr) : Nat → State → Host.Outcome State Fault Refusal
  | 0, s => .next s
  | k + 1, s =>
    match exec i s with
    | .next t => execTimes i k t
    | .fault f => .fault f
    | .refused r => .refused r

/-- The bits an operation of the writer appends when nothing stops it (R151, R152, R153, R156, R188, R189); `none` for an
instruction that is none of them. -/
def writerBits (p : Params) (e : Enc) : Instr → Option (List Bool)
  | .putbit b => some [b]
  | .putlsb v n => some (codeBits v n)
  | .putmsb v m => some (payloadBits p.litMsbFirst v m)
  | .flush => some (List.replicate (e.bpc - e.pos) false)
  | .pad => some (List.replicate (e.bpc - e.pos) false)
  | .emitLiteral q => some (literalBits p e q.first)
  | .emit q => e.tokenBits p q
  | .encStart => none
  | .encStartAbsent => none
  | .encNop _ => none
  | .decStart => none
  | .decStartAbsent => none
  | .decNop _ => none
  | .hdrLit8 _ => none
  | .hdrLit16 _ => none
  | .hdrEos => none
  | .hdrIllegal => none
  | .lit8 _ => none
  | .lit16 _ => none
  | .eos => none
  | .ref _ => none
  | .refnew => none
  | .illegal _ => none
  | .tick _ => none
  | .getbit => none
  | .refill => none
  | .getlsb _ => none
  | .getmsb _ => none
  | .encChar => none
  | .registerChar _ => none
  | .register _ => none
  | .encFinish => none
  | .decHeader => none
  | .decToken => none
  | .registerLit _ => none
  | .registerPhrase _ => none
  | .outAppend _ => none
  | .finish _ _ => none
  | .raise _ _ _ => none

/-- The bits EMIT sends for the match (R184, R191): none where the match is empty. -/
def Enc.matchBits (p : Params) (e : Enc) : List Bool :=
  match e.w with
  | [] => []
  | c :: cs => (e.tokenBits p { first := c, rest := cs }).getD []

/-- The code width after the match has been sent with its ticks (R188, R189). -/
def Enc.widthAfterMatch (e : Enc) : Nat :=
  match e.w with
  | [] => e.numBits
  | c :: cs => if { first := c, rest := cs } ∈ e.pend then e.tick.tick.numBits else e.tick.numBits

/-- The bits ENC.CHAR sends (R184): those of the match where the match extended by the character has no code. -/
def Enc.charBits (p : Params) (e : Enc) : List Bool :=
  if inDomain e.dict (extend e.w (Memory.read e.inMem e.ii)) then [] else e.matchBits p

/-- The bits ENC.FINISH sends (R191, R192, R156): the match, the end marker, zeros up to a symbol boundary. -/
def Enc.finishBits (p : Params) (e : Enc) : List Bool :=
  let bits := e.matchBits p ++ codeBits 2 e.widthAfterMatch
  bits ++ List.replicate (e.bpc - (e.pos + bits.length) % e.bpc) false

/-- The bits an operation of the encoder sends when nothing stops it, ENC.CHAR and ENC.FINISH included; `none` for an operation that
sends none. -/
def sentBits (p : Params) (e : Enc) (i : Instr) : Option (List Bool) :=
  if i = .encChar then some (e.charBits p)
  else if i = .encFinish then some (e.finishBits p)
  else writerBits p e i

/-- The characters a token or a primitive of the decoder appends to DEC_OUT when nothing stops it (R66, R228, R234, R239). -/
def tokenChars (d : Dec) : Instr → List Char16
  | .encStart => []
  | .encStartAbsent => []
  | .encNop _ => []
  | .decStart => []
  | .decStartAbsent => []
  | .decNop _ => []
  | .hdrLit8 c => [c.setWidth 16]
  | .hdrLit16 c => [c]
  | .hdrEos => []
  | .hdrIllegal => []
  | .lit8 c => [c.setWidth 16]
  | .lit16 c => [c]
  | .eos => []
  | .ref k => ((d.resolve k).map phraseChars).getD []
  | .refnew => phraseChars (append d.w d.w.first)
  | .illegal _ => []
  | .pad => []
  | .tick _ => []
  | .putbit _ => []
  | .putlsb _ _ => []
  | .putmsb _ _ => []
  | .flush => []
  | .getbit => []
  | .refill => []
  | .getlsb _ => []
  | .getmsb _ => []
  | .encChar => []
  | .registerChar _ => []
  | .register _ => []
  | .emit _ => []
  | .emitLiteral _ => []
  | .encFinish => []
  | .decHeader => []
  | .decToken => []
  | .registerLit _ => []
  | .registerPhrase _ => []
  | .outAppend (.symbol _) => []
  | .outAppend (.char c) => [c]
  | .finish _ _ => []
  | .raise _ _ _ => []

/-- The characters an operation of the decoder appends to DEC_OUT when nothing stops it: for DEC.HEADER and DEC.TOKEN those of the
token they read (R224, R231), none where the reading fails or finds the input used up. -/
def charsAppended (p : Params) (d : Dec) (i : Instr) : List Char16 :=
  if i = .decHeader then
    match d.fetchHeader p with
    | .ok t e => tokenChars e t.instr
    | .ended _ => []
    | .fault _ => []
  else if i = .decToken then
    if d.exh then []
    else
      match d.fetchLoop p with
      | .ok t e => tokenChars e t.instr
      | .ended _ => []
      | .fault _ => []
  else tokenChars d i

/-- A step that does not stop. -/
abbrev Goes (o : Host.Outcome State Fault Refusal) : Prop := ∃ t, o = .next t

/-- A step that does not fault. -/
abbrev NoFault (o : Host.Outcome State Fault Refusal) : Prop := ∀ f, o ≠ .fault f

end Sys2Proof.Machine
end

