-- ==== Sys2Proof/Certificates/Slice0/Obligations.lean ====
section
/-! DEFINITION. The statements for the provers. Each docstring says which rule of spec/ its statement formalises; OBLIGATIONS.json
lists them with their numbers. -/

section
open Sys2Proof Sys2Proof.Machine

/-! ### Encodings (R93 to R100, R110, R114) -/

/-- R93 to R96, R99, R100, R110: reading back what the formats write gives the instruction and leaves the bits after it, for
every instruction, at every port that can present it. -/
def Obligations.DecodeInvertsEncode : Prop :=
  ∀ (p : Params) (q : Port) (i : Instr), Instr.fits q i = true →
    ∃ bits, encode p q i = some bits ∧ ∀ rest, decode p q (bits ++ rest) = .ok (i, rest)

/-- R90, R104, R114: what the decoder reads is well formed and fits its port, and the bits it took are exactly those the
formats give that instruction. -/
def Obligations.EncodeInvertsDecode : Prop :=
  ∀ (p : Params) (q : Port) (bits rest : List Bool) (i : Instr), q.wf = true → decode p q bits = .ok (i, rest) →
    i.wf = true ∧ Instr.fits q i = true ∧ ∃ w, encode p q i = some w ∧ bits = w ++ rest

/-- R95, R96, R100, R110: some words written out bit by bit from the formats. -/
def Obligations.WordsWrittenFromTheFormats : Prop :=
  decode .default .encCtrl [true, false] = .ok (.encStart, []) ∧
  decode .default .decCtrl [true, true] = .ok (.decStartAbsent, []) ∧
  decode .default .header [false, false, false, true, true, false, false, false, false, true] = .ok (.hdrLit8 97, []) ∧
  decode .default .header [false, true] = .ok (.hdrEos, []) ∧
  decode .default .header [true, true] = .ok (.hdrIllegal, []) ∧
  decode .default (.loop 3 4)
    ([true, false, false] ++ [false, false, false, false, false, false, false, true, false, false, true, false, true, true,
      false, false]) = .ok (.lit16 300, []) ∧
  decode .default (.loop 4 8) [false, true, false, false] = .ok (.eos, []) ∧
  decode .default (.loop 3 6) [true, false, true] = .ok (.ref 5, []) ∧
  decode .default (.loop 3 4) [false, false, true] = .ok (.refnew, []) ∧
  decode .default (.loop 3 4) [true, false, true] = .ok (.illegal 5, []) ∧
  decode .default (.padding 2) [false, false] = .ok (.pad, [])

/-! ### A step runs the decoded instruction -/

/-- R22, R110, R326: when the host's next access writes a CTRL register, the step is the instruction the decoder reads from the
two bits of the command word. What `sched` and `host` are is log 6 and log 7. -/
def Obligations.HostStepRunsTheCommandWord : Prop :=
  ∀ (s t : State) (e : Engine) (w : Nat) (more : List HostAccess) (i : Instr) (rest : List Bool),
    s.TurnOf .host t → s.host = .writeReg (ctrlReg e) w :: more →
    decode s.cfg (ctrlPort e) (codeBits w 2) = .ok (i, rest) → step s = exec i { t with host := more }

/-- R224, R231, R233, R247, R163, R271: when it is the decoder's turn, the step is the token the decoder reads from the bits
ahead of
the cursor, run with the cursor moved past exactly that token's bits; when the bits end inside the token, the step is the
failure TruncatedInput, with DEC_FINFO 0 and DEC_FIDX = DEC.len + 1. -/
def Obligations.DecoderStepRunsTheToken : Prop :=
  ∀ (s t : State) (q : Port), s.TurnOf .dec t → s.dec.CursorOk →
    ((s.dec.phase = .header ∧ q = .header) ∨
      (s.dec.phase = .loop ∧ s.dec.exh = false ∧ q = .loop s.dec.numBits s.dec.dictSize)) →
    (∀ i rest, decode s.cfg q s.dec.ahead = .ok (i, rest) →
      ∃ d, s.dec.Moved d ∧ d.ahead = rest ∧ step s = exec i { t with dec := d }) ∧
    (decode s.cfg q s.dec.ahead = .error .truncated →
      ∃ d, s.dec.Moved d ∧
        step s = .next { t with dec := { d with
          outLen := 0, fInfo := 0, fIdx := s.dec.len + 1, status := statusFailed .truncatedInput, phase := .done } })

/-- R183, R199, R311, R325, R247: when it is the encoder's turn in phase SCAN, the step is ENC.CHAR while ii < len and ENC.FINISH
after; an engine in IDLE or DONE executes nothing. -/
def Obligations.EngineStepsFollowThePhase : Prop :=
  ∀ (s t : State),
    (s.TurnOf .enc t → s.enc.phase = .scan →
      (s.enc.ii < s.enc.len → step s = exec .encChar t) ∧ (s.enc.len ≤ s.enc.ii → step s = exec .encFinish t)) ∧
    (s.TurnOf .enc t → s.enc.phase = .idle ∨ s.enc.phase = .done → step s = .next t) ∧
    (s.TurnOf .dec t → s.dec.phase = .idle ∨ s.dec.phase = .done → step s = .next t)

/-! ### Command words (R180 to R182, R220 to R223, R318) -/

/-- R180, R181, R182: a START of an encoder that is not BUSY, with the input present or absent, with a legal width or not. Where
DICT_CAP or CNT_W leaves no room for dictSize 3, see FullDictionariesRaise (log 30). -/
def Obligations.EncStartFollowsTheChecks : Prop :=
  ∀ (s : State), isBusy s.enc.status = false →
    (1 ≤ s.enc.bpcReg.toNat ∧ s.enc.bpcReg.toNat ≤ s.cfg.bpcMax →
      (dictFull s.cfg 2 = false → exec .encStart s = .next { s with enc := { s.enc with
        status := statusBusy, outLen := 0, fInfo := 0, bpc := s.enc.bpcReg.toNat, len := s.enc.lenReg,
        dict := [], pend := [], dictSize := 3, numBits := 2, enlargeIn := 2, w := [], ii := 0, acc := 0, pos := 0,
        phase := .scan } }) ∧
      exec .encStartAbsent s = .next { s with enc := { s.enc with
        status := statusFinished .seq, outLen := 0, fInfo := 0, bpc := s.enc.bpcReg.toNat, len := s.enc.lenReg,
        phase := .done } }) ∧
    (s.enc.bpcReg.toNat = 0 ∨ s.cfg.bpcMax < s.enc.bpcReg.toNat →
      ∀ i ∈ [Instr.encStart, Instr.encStartAbsent], exec i s = .next { s with enc := { s.enc with
        status := statusFailed .invalidArgument, outLen := 0, fInfo := s.enc.bpcReg.toNat, bpc := s.enc.bpcReg.toNat,
        len := s.enc.lenReg, phase := .done } })

/-- R220 to R223, R273: a START of a decoder that is not BUSY: the reset value is checked first, then the absent input, then the
empty input; else the first symbol is loaded and the header comes next. -/
def Obligations.DecStartFollowsTheChecks : Prop :=
  ∀ (s : State), isBusy s.dec.status = false → s.dec.phase = .idle ∨ s.dec.phase = .done →
    ((∃ j, j < s.cfg.bpcMax ∧ s.dec.resetReg = 2 ^ j) →
      (s.dec.lenReg ≠ 0 → exec .decStart s = .next { s with dec := { s.dec with
        status := statusBusy, outLen := 0, fInfo := 0, fIdx := 0, resetValue := s.dec.resetReg, len := s.dec.lenReg,
        dict := [], exh := false, val := Memory.read s.dec.inMem 0, position := s.dec.resetReg, index := 1,
        phase := .header } }) ∧
      (s.dec.lenReg = 0 → exec .decStart s = .next { s with dec := { s.dec with
        status := statusFinished .null, outLen := 0, fInfo := 0, fIdx := 0, resetValue := s.dec.resetReg,
        len := s.dec.lenReg, phase := .done } }) ∧
      exec .decStartAbsent s = .next { s with dec := { s.dec with
        status := statusFinished .seq, outLen := 0, fInfo := 0, fIdx := 0, resetValue := s.dec.resetReg,
        len := s.dec.lenReg, phase := .done } }) ∧
    ((∀ j, j < s.cfg.bpcMax → s.dec.resetReg ≠ 2 ^ j) →
      ∀ i ∈ [Instr.decStart, Instr.decStartAbsent], exec i s = .next { s with dec := { s.dec with
        status := statusFailed .invalidArgument, outLen := 0, fInfo := s.dec.resetReg, fIdx := 0,
        resetValue := s.dec.resetReg, len := s.dec.lenReg, phase := .done } })

/-- R22, R35, R318: a START while BUSY has no effect at all, and neither has a command word with START = 0. -/
def Obligations.BusyStartsAndNopsDoNothing : Prop :=
  ∀ (s : State) (absent : Bool),
    exec (.encNop absent) s = .next s ∧ exec (.decNop absent) s = .next s ∧
    (isBusy s.enc.status = true → exec .encStart s = .next s ∧ exec .encStartAbsent s = .next s) ∧
    (isBusy s.dec.status = true → exec .decStart s = .next s ∧ exec .decStartAbsent s = .next s)

/-- R319, R281: what a START leaves depends on nothing an earlier command left: two machines with the same parameters, the
same configuration and the same input differ after START only in the contents of the OUT space and, for the decoder, in the
registers the header token writes (R51). That dictSize 3 has room is log 30. -/
def Obligations.StartForgetsEarlierCommands : Prop :=
  ∀ (s t : State), s.cfg = t.cfg →
    (isBusy s.enc.status = false → isBusy t.enc.status = false → s.enc.bpcReg = t.enc.bpcReg →
      s.enc.lenReg = t.enc.lenReg → s.enc.inMem = t.enc.inMem → legalBpc s.cfg s.enc.bpcReg.toNat = true →
      dictFull s.cfg 2 = false →
      ∃ u v, exec .encStart s = .next u ∧ exec .encStart t = .next v ∧ { u.enc with outMem := v.enc.outMem } = v.enc) ∧
    (isBusy s.dec.status = false → isBusy t.dec.status = false → s.dec.resetReg = t.dec.resetReg →
      s.dec.lenReg = t.dec.lenReg → s.dec.inMem = t.dec.inMem → legalReset s.cfg s.dec.resetReg = true →
      s.dec.lenReg ≠ 0 →
      ∃ u v, exec .decStart s = .next u ∧ exec .decStart t = .next v ∧
        { u.dec with outMem := v.dec.outMem, w := v.dec.w, dictSize := v.dec.dictSize, numBits := v.dec.numBits,
                     enlargeIn := v.dec.enlargeIn } = v.dec)

/-! ### The schedule (R132 to R138) -/

/-- R132: TICK on either engine's own pair. -/
def Obligations.TickCountsDownOrWidens : Prop :=
  ∀ (s : State),
    (s.enc.enlargeIn = 1 →
      exec (.tick .enc) s =
        .next { s with enc := { s.enc with enlargeIn := 2 ^ s.enc.numBits, numBits := s.enc.numBits + 1 } }) ∧
    (2 ≤ s.enc.enlargeIn →
      exec (.tick .enc) s = .next { s with enc := { s.enc with enlargeIn := s.enc.enlargeIn - 1 } }) ∧
    (s.dec.enlargeIn = 1 →
      exec (.tick .dec) s =
        .next { s with dec := { s.dec with enlargeIn := 2 ^ s.dec.numBits, numBits := s.dec.numBits + 1 } }) ∧
    (2 ≤ s.dec.enlargeIn →
      exec (.tick .dec) s = .next { s with dec := { s.dec with enlargeIn := s.dec.enlargeIn - 1 } })

/-- R135: after `k` ticks from (2, 2), on either engine, the pair is the closed form; width m ≥ 2 is in effect from 2^(m−1) − 2 to
2^m − 3 ticks; and the pair lies in the range of R134. -/
def Obligations.ScheduleHasItsClosedForm : Prop :=
  ∀ (s : State) (k n : Nat), n = Nat.log2 (k + 2) + 1 →
    (s.enc.numBits = 2 → s.enc.enlargeIn = 2 →
      execTimes (.tick .enc) k s =
        .next { s with enc := { s.enc with numBits := n, enlargeIn := 2 ^ n - 2 - k } }) ∧
    (s.dec.numBits = 2 → s.dec.enlargeIn = 2 →
      execTimes (.tick .dec) k s =
        .next { s with dec := { s.dec with numBits := n, enlargeIn := 2 ^ n - 2 - k } }) ∧
    (∀ m, 2 ≤ m → (n = m ↔ 2 ^ (m - 1) - 2 ≤ k ∧ k ≤ 2 ^ m - 3)) ∧
    ScheduleOk n (2 ^ n - 2 - k)

/-- R134, R138: TICK on either engine's pair keeps the range of R134; the width never decreases, it grows by exactly 1 and only when
the count reaches 0, and then enlargeIn = 2^(numBits−1). -/
def Obligations.TickKeepsTheScheduleRange : Prop :=
  ∀ (s : State),
    (ScheduleOk s.enc.numBits s.enc.enlargeIn →
      ∃ e, exec (.tick .enc) s = .next { s with enc := e } ∧ ScheduleOk e.numBits e.enlargeIn ∧
        ((s.enc.enlargeIn - 1 ≠ 0 ∧ e.numBits = s.enc.numBits) ∨
          (s.enc.enlargeIn - 1 = 0 ∧ e.numBits = s.enc.numBits + 1 ∧ e.enlargeIn = 2 ^ (e.numBits - 1)))) ∧
    (ScheduleOk s.dec.numBits s.dec.enlargeIn →
      ∃ d, exec (.tick .dec) s = .next { s with dec := d } ∧ ScheduleOk d.numBits d.enlargeIn ∧
        ((s.dec.enlargeIn - 1 ≠ 0 ∧ d.numBits = s.dec.numBits) ∨
          (s.dec.enlargeIn - 1 = 0 ∧ d.numBits = s.dec.numBits + 1 ∧ d.enlargeIn = 2 ^ (d.numBits - 1))))

/-! ### The bit writer (R150 to R157) -/

/-- R151 with R66: PUTBIT, with no premise on the cursor. The width LEN_W is unbounded here; a finite one is log 17. -/
def Obligations.PutbitShiftsIn : Prop :=
  ∀ (s : State) (b : Bool), s.cfg.lenW = none →
    (s.enc.pos + 1 ≠ s.enc.bpc →
      exec (.putbit b) s = .next { s with enc := { s.enc with
        acc := (s.enc.acc <<< 1) ||| b.toNat, pos := s.enc.pos + 1 } }) ∧
    (s.enc.pos + 1 = s.enc.bpc → (∀ cap, s.cfg.outCap = some cap → s.enc.outLen < cap) →
      exec (.putbit b) s = .next { s with enc := { s.enc with
        acc := 0, pos := 0, outMem := Memory.write s.enc.outMem s.enc.outLen ((s.enc.acc <<< 1) ||| b.toNat),
        outLen := s.enc.outLen + 1 } }) ∧
    (s.enc.pos + 1 = s.enc.bpc → (∃ cap, s.cfg.outCap = some cap ∧ cap ≤ s.enc.outLen) →
      exec (.putbit b) s = .next { s with enc := { s.enc with
        acc := (s.enc.acc <<< 1) ||| b.toNat, pos := s.enc.pos + 1, outLen := 0, fInfo := s.enc.ii,
        status := statusFailed .capacityExceeded, phase := .done } })

/-- R152, R153, R154, R67: with no capacity to exceed, PUTLSB appends the low n bits of v from bit 0 up, and PUTMSB the low m bits
from the highest down (from bit 0 up when LIT_MSB_FIRST is false); only the writer's cursor and the new symbols change. -/
def Obligations.PutFieldsAppendTheirBits : Prop :=
  ∀ (s : State) (v n : Nat), s.Unbounded → s.enc.CursorOk → Memory.wf s.enc.outMem →
    (∃ e, s.enc.Appended ((List.range n).map v.testBit) e ∧ exec (.putlsb v n) s = .next { s with enc := e }) ∧
    (∃ e, s.enc.Appended
        (if s.cfg.litMsbFirst then (List.range n).map fun i => v.testBit (n - 1 - i) else (List.range n).map v.testBit) e ∧
      exec (.putmsb v n) s = .next { s with enc := e })

/-- R156, R100: FLUSH, and the padding it writes (PAD is the same operation: log 27), completes exactly one symbol, the bits
collected
so far with zeros below them. -/
def Obligations.FlushCompletesOneSymbol : Prop :=
  ∀ (s : State), s.enc.CursorOk → outFull s.cfg s.enc.outLen = false →
    ∀ i ∈ [Instr.flush, Instr.pad], exec i s = .next { s with enc := { s.enc with
      acc := 0, pos := 0, outLen := s.enc.outLen + 1,
      outMem := Memory.write s.enc.outMem s.enc.outLen (s.enc.acc <<< (s.enc.bpc - s.enc.pos)) } }

/-- R62, R66, R151, R274, R276: an operation of the writer either appends all its bits, or it ends the command by CapacityExceeded
because a symbol it completes has no room; either way nothing but the encoder's state changes, and it stores only to the
elements of ENC_OUT from OUTLEN on that its bits complete, (pos + |bits|) / bpc of them: every other element reads as
before. -/
def Obligations.WriterStoresOnlyWhatItCompletes : Prop :=
  ∀ (s : State) (i : Instr) (bits : List Bool), writerBits s.cfg s.enc i = some bits →
    s.enc.CursorOk → Memory.wf s.enc.outMem →
    ∃ e, exec i s = .next { s with enc := e } ∧
      ((e.written = s.enc.written ++ bits ∧ e.phase = s.enc.phase ∧ e.status = s.enc.status ∧ e.fInfo = s.enc.fInfo) ∨
        (e.outLen = 0 ∧ e.fInfo = s.enc.ii ∧ e.status = statusFailed .capacityExceeded ∧ e.phase = .done ∧
          ∃ m, s.enc.outLen ≤ m ∧ m < s.enc.outLen + (s.enc.pos + bits.length) / s.enc.bpc ∧
            outFull s.cfg m = true)) ∧
      ∀ a, (a < s.enc.outLen ∨ s.enc.outLen + (s.enc.pos + bits.length) / s.enc.bpc ≤ a) →
        Memory.read e.outMem a = Memory.read s.enc.outMem a

/-! ### The bit reader (R158 to R166) -/

/-- R160: GETBIT, with no premise on the state. What it returns is left in `ret` (log 8). -/
def Obligations.GetbitTestsTheMask : Prop :=
  ∀ (s : State),
    (s.dec.exh = true → exec .getbit s = .next { s with dec := s.dec.raise .truncatedInput 0 }) ∧
    (s.dec.exh = false → s.dec.position >>> 1 ≠ 0 →
      exec .getbit s = .next { s with
        ret := if s.dec.val &&& s.dec.position ≠ 0 then 1 else 0
        dec := { s.dec with position := s.dec.position >>> 1 } }) ∧
    (s.dec.exh = false → s.dec.position >>> 1 = 0 →
      ∃ t, exec .refill s = .next t ∧
        exec .getbit s = .next { t with ret := if s.dec.val &&& s.dec.position ≠ 0 then 1 else 0 })

/-- R161, R162: REFILL moves to the next symbol, or records that there is none without reading DEC_IN. -/
def Obligations.RefillLoadsOrExhausts : Prop :=
  ∀ (s : State),
    (s.dec.index < s.dec.len →
      exec .refill s = .next { s with dec := { s.dec with
        position := s.dec.resetValue, val := Memory.read s.dec.inMem s.dec.index, index := s.dec.index + 1 } }) ∧
    (s.dec.len ≤ s.dec.index →
      exec .refill s = .next { s with dec := { s.dec with
        position := s.dec.resetValue, exh := true, index := s.dec.index + 1 } })

/-- R160, R163, R164, R99, R271: GETBIT, GETLSB and GETMSB deliver the bits ahead in order, the i-th of a code weighing 2^i and the
i-th of a payload 2^(m−1−i) (2^i when LIT_MSB_FIRST is false); with too few bits ahead they raise TruncatedInput. What they return
is left in `ret` (log 8). -/
def Obligations.ReaderDeliversTheBitsAhead : Prop :=
  ∀ (s : State) (n : Nat), s.dec.CursorOk →
    (∀ b rest, s.dec.ahead = b :: rest →
      ∃ d, s.dec.Moved d ∧ d.ahead = rest ∧ exec .getbit s = .next { s with dec := d, ret := b.toNat }) ∧
    (∀ bits rest, s.dec.ahead = bits ++ rest → bits.length = n →
      ∃ d, s.dec.Moved d ∧ d.ahead = rest ∧
        exec (.getlsb n) s = .next { s with
          dec := d, ret := ((List.range n).map fun i => (bits.getD i false).toNat * 2 ^ i).sum } ∧
        exec (.getmsb n) s = .next { s with
          dec := d
          ret := if s.cfg.litMsbFirst
            then ((List.range n).map fun i => (bits.getD i false).toNat * 2 ^ (n - 1 - i)).sum
            else ((List.range n).map fun i => (bits.getD i false).toNat * 2 ^ i).sum }) ∧
    (s.dec.ahead.length < n →
      ∃ d, s.dec.Moved d ∧ d.exh = true ∧
        exec (.getlsb n) s = .next { s with dec := d.raise .truncatedInput 0 } ∧
        exec (.getmsb n) s = .next { s with dec := d.raise .truncatedInput 0 })

/-- R165 with R154, R67: a decoder started on the symbols the writer appended, at the writer's width, delivers exactly the bits the
writer appended, and the bit after the last raises TruncatedInput. -/
def Obligations.ReaderInvertsWriter : Prop :=
  ∀ (s : State), s.enc.pos = 0 → 1 ≤ s.enc.outLen → 1 ≤ s.enc.bpc → s.enc.bpc ≤ s.cfg.bpcMax →
    isBusy s.dec.status = false → s.dec.resetReg = 2 ^ (s.enc.bpc - 1) → s.dec.lenReg = s.enc.outLen →
    Memory.slice s.dec.inMem 0 s.enc.outLen = Memory.slice s.enc.outMem 0 s.enc.outLen →
    ∃ t d, exec .decStart s = .next t ∧ t.dec.getBits (s.enc.outLen * s.enc.bpc) = .ok s.enc.written d ∧
      d.getBit = .ended (d.raise .truncatedInput 0)

/-! ### The encoder (R184 to R193) -/

/-- R185, R187: a registration with room gives its phrase the code dictSize, changes no other phrase's code, and counts up; a
character is marked pending too. -/
def Obligations.EncoderRegistrationsTakeTheNextCode : Prop :=
  ∀ (s : State) (c : Char16) (wc : Phrase), dictFull s.cfg s.enc.dictSize = false →
    (∃ m pend, (∀ q, find m q = if q = single c then some s.enc.dictSize else find s.enc.dict q) ∧
      (∀ q, q ∈ pend ↔ q ∈ s.enc.pend ∨ q = single c) ∧
      exec (.registerChar c) s = .next { s with enc := { s.enc with
        dict := m, dictSize := s.enc.dictSize + 1, pend := pend } }) ∧
    (∃ m, (∀ q, find m q = if q = wc then some s.enc.dictSize else find s.enc.dict q) ∧
      exec (.register wc) s = .next { s with enc := { s.enc with dict := m, dictSize := s.enc.dictSize + 1 } })

/-- R188, R189, R190, R97: with no capacity to exceed, EMIT_LITERAL sends the literal of the character, ticks once and clears the
mark; EMIT sends the literal of a pending character and ticks twice, or the code of a phrase that is not pending and ticks
once. A phrase with neither is against the precondition of R188, and EMIT stops with a fault: the model's choice (log 15). -/
def Obligations.EmissionsSendTheirToken : Prop :=
  ∀ (s : State) (c : Char16) (q : Phrase) (k : Nat), s.Unbounded → s.enc.CursorOk → Memory.wf s.enc.outMem →
    (∃ e pend, s.enc.Appended
        (if c.toNat < 256 then codeBits 0 s.enc.numBits ++ payloadBits s.cfg.litMsbFirst c.toNat 8
          else codeBits 1 s.enc.numBits ++ payloadBits s.cfg.litMsbFirst c.toNat 16) e ∧
      (∀ r, r ∈ pend ↔ r ∈ s.enc.pend ∧ r ≠ single c) ∧
      exec (.emitLiteral (single c)) s = .next { s with enc := { e.tick with pend := pend } } ∧
      (single c ∈ s.enc.pend → exec (.emit (single c)) s = .next { s with enc := { e.tick.tick with pend := pend } })) ∧
    (q ∉ s.enc.pend → find s.enc.dict q = some k →
      ∃ e, s.enc.Appended (codeBits k s.enc.numBits) e ∧ exec (.emit q) s = .next { s with enc := e.tick }) ∧
    (q ∉ s.enc.pend → find s.enc.dict q = none → exec (.emit q) s = .fault .emitWithoutCode)

/-- R136, R190, R44 item 5: between character steps every code the encoder can send for its match fits the code width. -/
def Obligations.CodesFitTheirWidth : Prop :=
  ∀ (s : State) (q : Phrase) (k : Nat), s.enc.ScanOk s.cfg → s.enc.w = phraseChars q → q ∉ s.enc.pend →
    find s.enc.dict q = some k → 3 ≤ k ∧ k < 2 ^ s.enc.numBits

/-- R184, R185, R186: when `w ++ [c]` has a code, the step only extends the match; a character never seen before is registered
first, and found when the match is empty. -/
def Obligations.EncCharExtendsTheMatch : Prop :=
  ∀ (s : State) (c : Char16), Memory.read s.enc.inMem s.enc.ii = c →
    (inDomain s.enc.dict (single c) = true → inDomain s.enc.dict (extend s.enc.w c) = true →
      exec .encChar s = .next { s with enc := { s.enc with ii := s.enc.ii + 1, w := s.enc.w ++ [c] } }) ∧
    (inDomain s.enc.dict (single c) = false → s.enc.w = [] → dictFull s.cfg s.enc.dictSize = false →
      ∃ m pend, (∀ q, find m q = if q = single c then some s.enc.dictSize else find s.enc.dict q) ∧
        (∀ q, q ∈ pend ↔ q ∈ s.enc.pend ∨ q = single c) ∧
        exec .encChar s = .next { s with enc := { s.enc with
          ii := s.enc.ii + 1, w := [c], dict := m, dictSize := s.enc.dictSize + 1, pend := pend } })

/-- R184, R185, R187, R188: when `w ++ [c]` has no code, the step sends the token of the match with its ticks, registers `w ++ [c]`
after the character if that is new, and restarts the match at the character. -/
def Obligations.EncCharSendsOnAMiss : Prop :=
  ∀ (s : State) (c : Char16) (q : Phrase), s.Unbounded → s.enc.ScanOk s.cfg → Memory.wf s.enc.outMem →
    s.enc.ii < s.enc.len → Memory.read s.enc.inMem s.enc.ii = c → s.enc.w = phraseChars q →
    inDomain s.enc.dict (append q c) = false →
    ∃ bits e m n k pend, s.enc.tokenBits s.cfg q = some bits ∧ s.enc.Appended bits e ∧
      ((n, k) = if q ∈ s.enc.pend
        then tickPair (tickPair s.enc.numBits s.enc.enlargeIn).1 (tickPair s.enc.numBits s.enc.enlargeIn).2
        else tickPair s.enc.numBits s.enc.enlargeIn) ∧
      (inDomain s.enc.dict (single c) = true →
        (∀ r, find m r = if r = append q c then some s.enc.dictSize else find s.enc.dict r) ∧
        pend = [] ∧
        exec .encChar s = .next { s with enc := { e with
          ii := s.enc.ii + 1, w := [c], dict := m, dictSize := s.enc.dictSize + 1, pend := pend, numBits := n,
          enlargeIn := k } }) ∧
      (inDomain s.enc.dict (single c) = false →
        (∀ r, find m r = if r = append q c then some (s.enc.dictSize + 1)
          else if r = single c then some s.enc.dictSize else find s.enc.dict r) ∧
        pend = [single c] ∧
        exec .encChar s = .next { s with enc := { e with
          ii := s.enc.ii + 1, w := [c], dict := m, dictSize := s.enc.dictSize + 2, pend := pend, numBits := n,
          enlargeIn := k } })

/-- R191, R192, R193, R156, R100: the finish step sends the token of the match if there is one, with its ticks, then the end marker
at the width after them, then 1 to bpc zero bits up to a symbol boundary, and ends the command with KIND = SEQ; a stream of
N token bits has floor(N / bpc) + 1 symbols. -/
def Obligations.EncFinishEndsTheStream : Prop :=
  ∀ (s : State), s.Unbounded → s.enc.ScanOk s.cfg → Memory.wf s.enc.outMem →
    ∃ tok n k pad e,
      ((s.enc.w = [] ∧ tok = [] ∧ (n, k) = (s.enc.numBits, s.enc.enlargeIn)) ∨
        ∃ q, s.enc.w = phraseChars q ∧ s.enc.tokenBits s.cfg q = some tok ∧
          (n, k) = if q ∈ s.enc.pend
            then tickPair (tickPair s.enc.numBits s.enc.enlargeIn).1 (tickPair s.enc.numBits s.enc.enlargeIn).2
            else tickPair s.enc.numBits s.enc.enlargeIn) ∧
      1 ≤ pad ∧ pad ≤ s.enc.bpc ∧ s.enc.Appended (tok ++ codeBits 2 n ++ List.replicate pad false) e ∧ e.pos = 0 ∧
      e.outLen = (s.enc.written ++ tok ++ codeBits 2 n).length / s.enc.bpc + 1 ∧
      exec .encFinish s = .next { s with enc := { e with
        numBits := n, enlargeIn := k, pend := [], status := statusFinished .seq, phase := .done } }

/-- R241's counterpart for the encoder (R195, R199, R276): whatever the capacities, a unit of the encoder completes; it leaves the
scan going on, or done with KIND = SEQ, or failed with CapacityExceeded, OUTLEN 0 and FINFO = ENC.ii; the symbols
already in ENC_OUT stay. -/
def Obligations.EncoderUnitsComplete : Prop :=
  ∀ (s : State), s.enc.phase = .scan → s.enc.ScanOk s.cfg → Memory.wf s.enc.outMem →
    ∃ e, exec (encUnit s.enc) s = .next { s with enc := e } ∧
      ((e.phase = .scan ∧ e.ScanOk s.cfg ∧ e.ii = s.enc.ii + 1 ∧ s.enc.ii < s.enc.len) ∨
        (e.phase = .done ∧ e.status = statusFinished .seq ∧ s.enc.ii = s.enc.len) ∨
        (e.phase = .done ∧ e.status = statusFailed .capacityExceeded ∧ e.outLen = 0 ∧ e.fInfo = e.ii ∧
          ¬ s.Unbounded)) ∧
      ∀ a, a < s.enc.outLen → Memory.read e.outMem a = Memory.read s.enc.outMem a

/-! ### The decoder (R224 to R240) -/

/-- R228, R239: what a header literal leaves. Where DICT_CAP or CNT_W leaves no room for index 3, see FullDictionariesRaise (log
30). -/
def Obligations.HeaderLiteralSetsTheDictionary : Prop :=
  ∀ (s : State) (c8 : BitVec 8) (c : Char16), (c = c8.setWidth 16 → exec (.hdrLit8 c8) s = exec (.hdrLit16 c) s) ∧
    (dictFull s.cfg 3 = false → outFull s.cfg s.dec.outLen = false → Memory.wf s.dec.outMem → ∃ m d, (∀ k, find m k = if k = 3 then some (single c) else find s.dec.dict k) ∧ s.dec.Wrote [c] d ∧
      exec (.hdrLit16 c) s = .next { s with dec := { d with
        dict := m, dictSize := 4, numBits := 3, enlargeIn := 4, w := single c, phase := .loop } })

/-- R229, R235, R230, R238, R272, R280: the end marker, in the header or in the loop, ends the command with KIND = SEQ; an illegal
code fails with CorruptCode, FINFO = the code and FIDX = DEC.index, and so does a reference above dictSize (log 20). Neither appends,
registers or ticks. -/
def Obligations.EndAndIllegalCodesHalt : Prop :=
  ∀ (s : State), s.dec.phase = .header ∨ s.dec.phase = .loop →
    (∀ i ∈ [Instr.hdrEos, Instr.eos],
      exec i s = .next { s with dec := { s.dec with status := statusFinished .seq, phase := .done } }) ∧
    (∀ i k, (i = .hdrIllegal ∧ k = 3) ∨ i = .illegal k ∨ (i = .ref k ∧ s.dec.dictSize < k) →
      exec i s = .next { s with dec := { s.dec with
        outLen := 0, fInfo := k, fIdx := s.dec.index, status := statusFailed .corruptCode, phase := .done } })

/-- R234, R239, R240: a literal token registers the character and then `w ++ [c]`, ticks twice, appends the character and makes it
the previous phrase. -/
def Obligations.LoopLiteralRegistersTwice : Prop :=
  ∀ (s : State) (c8 : BitVec 8) (c : Char16), s.Unbounded → Memory.wf s.dec.outMem →
    (c = c8.setWidth 16 → exec (.lit8 c8) s = exec (.lit16 c) s) ∧
    ∃ m d, (∀ k, find m k = if k = s.dec.dictSize then some (single c)
        else if k = s.dec.dictSize + 1 then some (append s.dec.w c) else find s.dec.dict k) ∧
      s.dec.Wrote [c] d ∧
      exec (.lit16 c) s = .next { s with dec := { d.tick.tick with
        dict := m, dictSize := s.dec.dictSize + 2, w := single c } }

/-- R236, R237, R239, R240: a reference appends its phrase, the stored one or `w ++ [first(w)]` for the code dictSize (REF of
that code
is log 20), registers `w ++ [first(entry)]` at dictSize with one tick, and makes the phrase the previous one. -/
def Obligations.ReferencesAppendTheirPhrase : Prop :=
  ∀ (s : State) (i : Instr) (entry : Phrase), s.Unbounded → Memory.wf s.dec.outMem →
    ((∃ k, i = .ref k ∧ k < s.dec.dictSize ∧ find s.dec.dict k = some entry) ∨
      ((i = .refnew ∨ i = .ref s.dec.dictSize) ∧ entry = append s.dec.w s.dec.w.first)) →
    ∃ m d, (∀ k, find m k = if k = s.dec.dictSize then some (append s.dec.w entry.first) else find s.dec.dict k) ∧
      s.dec.Wrote (phraseChars entry) d ∧
      exec i s = .next { s with dec := { d.tick with dict := m, dictSize := s.dec.dictSize + 1, w := entry } }

/-- R234, R240: a registration of the decoder with room fills the index dictSize and ticks. -/
def Obligations.DecoderRegistrationsFillTheNextIndex : Prop :=
  ∀ (s : State) (c : Char16) (q : Phrase), dictFull s.cfg s.dec.dictSize = false →
    (∃ m, (∀ k, find m k = if k = s.dec.dictSize then some (single c) else find s.dec.dict k) ∧
      exec (.registerLit c) s =
        .next { s with dec := { s.dec.tick with dict := m, dictSize := s.dec.dictSize + 1 } }) ∧
    (∃ m, (∀ k, find m k = if k = s.dec.dictSize then some q else find s.dec.dict k) ∧
      exec (.registerPhrase q) s =
        .next { s with dec := { s.dec.tick with dict := m, dictSize := s.dec.dictSize + 1 } })

/-- R224, R225, R227 to R230: the header step reads a literal, an end marker or an illegal code from the bits ahead and does what
that
token does. -/
def Obligations.DecHeaderReadsTheFirstToken : Prop :=
  ∀ (s : State) (rest : List Bool), s.dec.CursorOk →
    (∀ c : Char16,
      ((c.toNat < 256 ∧ s.dec.ahead = [false, false] ++ payloadBits s.cfg.litMsbFirst c.toNat 8 ++ rest) ∨
        s.dec.ahead = [true, false] ++ payloadBits s.cfg.litMsbFirst c.toNat 16 ++ rest) →
      ∃ d, s.dec.Moved d ∧ d.ahead = rest ∧ exec .decHeader s = exec (.hdrLit16 c) { s with dec := d } ∧
        (dictFull s.cfg 3 = false → outFull s.cfg s.dec.outLen = false → Memory.wf s.dec.outMem →
          ∃ m e, d.Wrote [c] e ∧ (∀ k, find m k = if k = 3 then some (single c) else find s.dec.dict k) ∧
            exec .decHeader s = .next { s with dec := { e with
              dict := m, dictSize := 4, numBits := 3, enlargeIn := 4, w := single c, phase := .loop } })) ∧
    (s.dec.ahead = [false, true] ++ rest →
      ∃ d, s.dec.Moved d ∧ d.ahead = rest ∧ exec .decHeader s = exec .hdrEos { s with dec := d }) ∧
    (s.dec.ahead = [true, true] ++ rest →
      ∃ d, s.dec.Moved d ∧ d.ahead = rest ∧ exec .decHeader s = exec .hdrIllegal { s with dec := d })

/-- R231, R233: a token step that is not at the end of the input completes, and it is the loop token read from the bits ahead at the
width numBits, run after the cursor has moved past it; what each token does is said of its own instruction. -/
def Obligations.DecTokenRunsTheNextToken : Prop :=
  ∀ (s : State) (t : LoopToken) (rest : List Bool), s.dec.CursorOk → s.dec.exh = false →
    decodeLoop s.cfg s.dec.numBits s.dec.dictSize s.dec.ahead = .ok (t, rest) →
    ∃ d u, s.dec.Moved d ∧ d.ahead = rest ∧ exec t.instr { s with dec := d } = .next u ∧ exec .decToken s = .next u

/-- R232, R271: a token step that finds the input used up ends OVERRUN with DEC_FIDX = DEC.index and DEC_OUTLEN = 0, or, with
STRICT_OVERRUN, fails with TruncatedInput. -/
def Obligations.LoopTopEndsOnExhaustion : Prop :=
  ∀ (s : State), s.dec.exh = true →
    (s.cfg.strictOverrun = false →
      exec .decToken s = .next { s with dec := { s.dec with
        outLen := 0, fIdx := s.dec.index, status := statusFinished .overrun, phase := .done } }) ∧
    (s.cfg.strictOverrun = true → s.dec.phase = .loop →
      exec .decToken s = .next { s with dec := { s.dec with
        outLen := 0, fInfo := 0, fIdx := s.dec.index, status := statusFailed .truncatedInput, phase := .done } })

/-- R241, R247, R278: a unit of the decoder always completes; it leaves the loop going on, or done with one of the results of
R241, and
a failure or an overrun reports the index reached and no output; the characters already in DEC_OUT stay. -/
def Obligations.DecoderUnitsComplete : Prop :=
  ∀ (s : State), (s.dec.phase = .header ∧ s.dec.HeaderOk s.cfg) ∨ (s.dec.phase = .loop ∧ s.dec.LoopOk s.cfg) →
    Memory.wf s.dec.outMem →
    ∃ d, exec (if s.dec.phase = .header then .decHeader else .decToken) s = .next { s with dec := d } ∧
      ((d.phase = .loop ∧ d.LoopOk s.cfg) ∨
        (d.phase = .done ∧ d.status = statusFinished .seq ∧ d.output = s.dec.output) ∨
        (d.phase = .done ∧ d.outLen = 0 ∧ d.fIdx = d.index ∧
          d.status ∈ [statusFinished .overrun, statusFailed .truncatedInput, statusFailed .corruptCode,
            statusFailed .capacityExceeded])) ∧
      ∀ a, a < s.dec.outLen → Memory.read d.outMem a = Memory.read s.dec.outMem a

/-! ### The primitives (R66, R274, R279, R280) -/

/-- R66: OutAppend checks the capacity first. The width LEN_W is unbounded here; a finite one is log 17. -/
def Obligations.OutAppendChecksTheCapacity : Prop :=
  ∀ (s : State) (v : Symbol) (c : Char16), s.cfg.lenW = none →
    ((∀ cap, s.cfg.outCap = some cap → s.enc.outLen < cap) →
      exec (.outAppend (.symbol v)) s = .next { s with enc := { s.enc with
        outMem := Memory.write s.enc.outMem s.enc.outLen v, outLen := s.enc.outLen + 1 } }) ∧
    ((∃ cap, s.cfg.outCap = some cap ∧ cap ≤ s.enc.outLen) →
      exec (.outAppend (.symbol v)) s = exec (.raise .enc .capacityExceeded s.enc.ii) s) ∧
    ((∀ cap, s.cfg.outCap = some cap → s.dec.outLen < cap) →
      exec (.outAppend (.char c)) s = .next { s with dec := { s.dec with
        outMem := Memory.write s.dec.outMem s.dec.outLen c, outLen := s.dec.outLen + 1 } }) ∧
    ((∃ cap, s.cfg.outCap = some cap ∧ cap ≤ s.dec.outLen) →
      exec (.outAppend (.char c)) s = exec (.raise .dec .capacityExceeded s.dec.dictSize) s)

/-- R279: normal completion on either engine. -/
def Obligations.FinishReportsItsKind : Prop :=
  ∀ (s : State) (k : Kind),
    exec (.finish .enc .seq) s =
      .next { s with enc := { s.enc with status := statusWord 2 0 0, phase := .done } } ∧
    exec (.finish .dec k) s = .next { s with dec := { s.dec with
      outLen := if k = .seq then s.dec.outLen else 0
      fIdx := if k = .overrun then s.dec.index else s.dec.fIdx
      status := statusWord 2 (match k with | .seq => 0 | .null => 1 | .overrun => 2) 0
      phase := .done } }

/-- R280: the failure entry on either engine. That a command has passed START's checks in the phases HEADER and LOOP is log 22. -/
def Obligations.RaiseReportsItsCause : Prop :=
  ∀ (s : State) (c : Cause) (info : Nat) (number : BitVec 3),
    number = (match c with | .truncatedInput => 1 | .corruptCode => 2 | .invalidArgument => 3 | .capacityExceeded => 4) →
    exec (.raise .enc c info) s = .next { s with enc := { s.enc with
      outLen := 0, fInfo := info, status := statusWord 2 3 number, phase := .done } } ∧
    exec (.raise .dec c info) s = .next { s with dec := { s.dec with
      outLen := 0, fInfo := info, status := statusWord 2 3 number, phase := .done,
      fIdx := if s.dec.phase = .header ∨ s.dec.phase = .loop then s.dec.index else s.dec.fIdx } }

/-- R7, R137, R274, R185, R187, R234, R240: a registration that would take dictSize past DICT_CAP, or past what a CNT_W-bit counter
holds (log 17), raises CapacityExceeded and registers nothing, and dictFull is exactly that test. The same of the first value of
dictSize, which ENC.START and the header literal set: the model's choice, and what FINFO then holds is free (log 30). -/
def Obligations.FullDictionariesRaise : Prop :=
  ∀ (s : State) (c8 : BitVec 8) (c : Char16) (q : Phrase),
    (∀ n, dictFull s.cfg n = true ↔ NoRoom s.cfg n) ∧
    (NoRoom s.cfg s.enc.dictSize → ∀ i ∈ [Instr.registerChar c, Instr.register q],
      exec i s = exec (.raise .enc .capacityExceeded s.enc.ii) s) ∧
    (NoRoom s.cfg s.dec.dictSize → ∀ i ∈ [Instr.registerLit c, Instr.registerPhrase q],
      exec i s = exec (.raise .dec .capacityExceeded s.dec.dictSize) s) ∧
    (NoRoom s.cfg 3 → ∃ info, ∀ i ∈ [Instr.hdrLit8 c8, Instr.hdrLit16 c],
      exec i s = exec (.raise .dec .capacityExceeded info) s) ∧
    (NoRoom s.cfg 2 → isBusy s.enc.status = false → 1 ≤ s.enc.bpcReg.toNat → s.enc.bpcReg.toNat ≤ s.cfg.bpcMax →
      ∃ e, exec .encStart s = .next { s with enc := e } ∧ e.status = statusFailed .capacityExceeded ∧ e.phase = .done ∧
        e.outLen = 0 ∧ e.outMem = s.enc.outMem)

/-! ### Frames (R20, R46, R71, R166) -/

/-- R20, R46, R61, R71, R166, R316: an operation of one engine leaves the other engine, the parameters, its own IN space and its own
configuration registers as they are. The fields sched, host, hostData, ret and freeCount are the model's own. -/
def Obligations.OperationsKeepTheOtherEngine : Prop :=
  ∀ (s t : State) (i : Instr), exec i s = .next t →
    (engineOf i = .enc →
      t = { s with enc := t.enc } ∧ t.enc.inMem = s.enc.inMem ∧ t.enc.bpcReg = s.enc.bpcReg ∧
        t.enc.lenReg = s.enc.lenReg) ∧
    (engineOf i = .dec →
      t = { s with dec := t.dec, ret := t.ret } ∧ t.dec.inMem = s.dec.inMem ∧ t.dec.resetReg = s.dec.resetReg ∧
        t.dec.lenReg = s.dec.lenReg)

/-- R62, R64, R66, R71: whatever stops it, an operation stores only to the elements its own bits or characters fill. An operation
of the
decoder, DEC.HEADER and DEC.TOKEN included, stores from DEC_OUTLEN on as many elements as it appends characters, and touches no
element of ENC_OUT; an operation of the encoder that sends bits, ENC.CHAR and ENC.FINISH included, stores from ENC_OUTLEN on as
many elements as those bits complete; OutAppend stores at OUTLEN; every other operation stores nothing, and none of the
encoder's touches DEC_OUT. -/
def Obligations.OperationsStoreOnlyTheirOutput : Prop :=
  ∀ (s t : State) (i : Instr) (a : Nat), Memory.wf s.enc.outMem → Memory.wf s.dec.outMem → exec i s = .next t →
    (engineOf i = .dec →
      Memory.read t.enc.outMem a = Memory.read s.enc.outMem a ∧
      (a < s.dec.outLen ∨ s.dec.outLen + (charsAppended s.cfg s.dec i).length ≤ a →
        Memory.read t.dec.outMem a = Memory.read s.dec.outMem a)) ∧
    (engineOf i = .enc →
      Memory.read t.dec.outMem a = Memory.read s.dec.outMem a ∧
      (sentBits s.cfg s.enc i = none → (∀ v, i = .outAppend (.symbol v) → a ≠ s.enc.outLen) →
        Memory.read t.enc.outMem a = Memory.read s.enc.outMem a) ∧
      (∀ bits, sentBits s.cfg s.enc i = some bits → s.enc.CursorOk →
        (i = .encChar ∨ i = .encFinish → s.enc.ScanOk s.cfg) →
        a < s.enc.outLen ∨ s.enc.outLen + (s.enc.pos + bits.length) / s.enc.bpc ≤ a →
        Memory.read t.enc.outMem a = Memory.read s.enc.outMem a))

/-! ### Invariants that every step keeps -/

/-- Every memory operation keeps the canonical form (log 3): whatever runs, all four spaces stay canonical. -/
def Obligations.StepsKeepMemoriesCanonical : Prop :=
  ∀ (s t : State), s.MemoriesOk → step s = .next t → t.MemoriesOk

/-- R25, R34, R43: STATE mirrors the phase of each engine in every step, and no step produces a status word that R25 rules out. -/
def Obligations.StepsKeepTheStatusWord : Prop :=
  ∀ (s t : State), s.MemoriesOk → s.StatusOk → step s = .next t → t.StatusOk

/-- R44 items 1 to 5 and 7: the encoder's invariants hold in phase SCAN after every step. -/
def Obligations.StepsKeepTheEncoderInvariant : Prop :=
  ∀ (s t : State), s.MemoriesOk → s.EncoderOk → step s = .next t → t.EncoderOk

/-- R44 items 1, 6 and 7: the decoder's invariants hold in the phases HEADER and LOOP after every step. -/
def Obligations.StepsKeepTheDecoderInvariant : Prop :=
  ∀ (s t : State), s.MemoriesOk → s.DecoderOk → step s = .next t → t.DecoderOk

/-- The state after reset meets the four invariants. -/
def Obligations.ResetMeetsTheInvariants : Prop :=
  State.reset.MemoriesOk ∧ State.reset.StatusOk ∧ State.reset.EncoderOk ∧ State.reset.DecoderOk

/-- R157, R195, R288: no step from a state with the encoder's invariant faults (the one fault is log 15); a host access may be
refused. -/
def Obligations.NoStepFaults : Prop := ∀ (s : State), s.EncoderOk → NoFault (step s)

/-! ### The host (R21 to R26, R35, R36, R60, R77, R310, R316, R317) -/

/-- R50, R310: after reset both engines are IDLE and every register of the host's file reads 0. -/
def Obligations.ResetReadsZero : Prop :=
  State.reset.enc.phase = .idle ∧ State.reset.dec.phase = .idle ∧
  ∀ n : Fin 16, hostAccess (.readReg n) State.reset = .next { State.reset with hostData := 0 }

/-- R36: the registers 6, 7 and 15 do not exist: a read returns 0 (in hostData) and a write does nothing. -/
def Obligations.AbsentRegistersReadZero : Prop :=
  ∀ (s : State) (n : Fin 16) (v : Nat), n = 6 ∨ n = 7 ∨ n = 15 →
    hostAccess (.readReg n) s = .next { s with hostData := 0 } ∧ hostAccess (.writeReg n v) s = .next s

/-- R21, R35, R25, R26, R313: what a read of each register returns (in hostData, log 7): CTRL, STATUS and the configuration at any
time, BUSY or not; OUTLEN, FINFO and FIDX while their engine is not BUSY, also before the host has read STATE = DONE (log 32). OUTLEN read while BUSY is in
OutSpacesAreValidAfterDone. -/
def Obligations.RegistersReadAsHeld : Prop :=
  ∀ (s : State) (n : Fin 16) (v : Nat),
    ((n, v) ∈ [((0 : Fin 16), 0), (1, s.enc.bpcReg.toNat), (2, s.enc.lenReg), (3, s.enc.status.toNat), (8, 0),
        (9, s.dec.resetReg), (10, s.dec.lenReg), (11, s.dec.status.toNat)] →
      hostAccess (.readReg n) s = .next { s with hostData := v }) ∧
    (isBusy s.enc.status = false → (n, v) ∈ [((4 : Fin 16), s.enc.outLen), (5, s.enc.fInfo)] →
      hostAccess (.readReg n) s = .next { s with hostData := v }) ∧
    (isBusy s.dec.status = false → (n, v) ∈ [((12 : Fin 16), s.dec.outLen), (13, s.dec.fInfo), (14, s.dec.fIdx)] →
      hostAccess (.readReg n) s = .next { s with hostData := v })

/-- R23, R24, R35, R316, R323: a write of a configuration register changes that register and nothing else, BUSY or not; a write of a
read-only register changes nothing (log 14). -/
def Obligations.ConfigurationWritesChangeOneRegister : Prop :=
  ∀ (s : State) (v : Nat), s.cfg.lenW = none →
    (v < 256 → hostAccess (.writeReg 1 v) s = .next { s with enc := { s.enc with bpcReg := BitVec.ofNat 8 v } }) ∧
    hostAccess (.writeReg 2 v) s = .next { s with enc := { s.enc with lenReg := v } } ∧
    (v < 2 ^ s.cfg.bpcMax → hostAccess (.writeReg 9 v) s = .next { s with dec := { s.dec with resetReg := v } }) ∧
    hostAccess (.writeReg 10 v) s = .next { s with dec := { s.dec with lenReg := v } } ∧
    ∀ n ∈ [(3 : Fin 16), 4, 5, 11, 12, 13, 14], hostAccess (.writeReg n v) s = .next s

/-- R60, R77, R316, R288: the host writes an IN space only while its engine is not BUSY: such a write stores one element and
changes nothing else, and a write while BUSY is refused. That this holds after DONE before the host has read STATE = DONE too, where
R316 leaves the result open, is the model's choice (log 32). -/
def Obligations.InSpacesAreStableWhileBusy : Prop :=
  ∀ (s : State) (i : Nat) (c : Char16) (v : Symbol),
    (isBusy s.enc.status = true → hostAccess (.writeEncIn i c) s = .refused (.inWriteWhileBusy .enc)) ∧
    (isBusy s.dec.status = true → hostAccess (.writeDecIn i v) s = .refused (.inWriteWhileBusy .dec)) ∧
    (isBusy s.enc.status = false → Memory.wf s.enc.inMem →
      ∃ m, hostAccess (.writeEncIn i c) s = .next { s with enc := { s.enc with inMem := m } } ∧
        ∀ a, Memory.read m a = if a = i then c else Memory.read s.enc.inMem a) ∧
    (isBusy s.dec.status = false → v < 2 ^ s.cfg.bpcMax → Memory.wf s.dec.inMem →
      ∃ m, hostAccess (.writeDecIn i v) s = .next { s with dec := { s.dec with inMem := m } } ∧
        ∀ a, Memory.read m a = if a = i then v else Memory.read s.dec.inMem a)

/-- R317, R288, U7, U8: an OUT space is valid after DONE with KIND = SEQ up to OUTLEN; before DONE a read of it is refused,
elsewhere
it returns some element value; and OUTLEN read while BUSY is some value from 0 to what has been appended. The values are
free: log 13. That DONE need not have been read is log 32. -/
def Obligations.OutSpacesAreValidAfterDone : Prop :=
  ∀ (s : State) (i : Nat),
    (isDone s.enc.status = false → hostAccess (.readEncOut i) s = .refused (.outReadBeforeDone .enc)) ∧
    (isDone s.dec.status = false → hostAccess (.readDecOut i) s = .refused (.outReadBeforeDone .dec)) ∧
    (s.enc.status = statusFinished .seq → i < s.enc.outLen →
      hostAccess (.readEncOut i) s = .next { s with hostData := Memory.read s.enc.outMem i }) ∧
    (s.dec.status = statusFinished .seq → i < s.dec.outLen →
      hostAccess (.readDecOut i) s = .next { s with hostData := (Memory.read s.dec.outMem i).toNat }) ∧
    (isDone s.enc.status = true → statusKind s.enc.status ≠ 0 ∨ s.enc.outLen ≤ i →
      ∃ v, v < 2 ^ s.cfg.bpcMax ∧
        hostAccess (.readEncOut i) s = .next { s with hostData := v, freeCount := s.freeCount + 1 }) ∧
    (isDone s.dec.status = true → statusKind s.dec.status ≠ 0 ∨ s.dec.outLen ≤ i →
      ∃ v, v < 2 ^ 16 ∧
        hostAccess (.readDecOut i) s = .next { s with hostData := v, freeCount := s.freeCount + 1 }) ∧
    (isBusy s.enc.status = true → ∃ v, v ≤ s.enc.outLen ∧
      hostAccess (.readReg 4) s = .next { s with hostData := v, freeCount := s.freeCount + 1 }) ∧
    (isBusy s.dec.status = true → ∃ v, v ≤ s.dec.outLen ∧
      hostAccess (.readReg 12) s = .next { s with hostData := v, freeCount := s.freeCount + 1 })

/-- R310: the reset input leaves every host register 0 and both engines IDLE whatever was running; the parameters and the model's
own
lists stay, and the spaces hold open contents in canonical form (log 21). -/
def Obligations.HardResetAbandonsCommands : Prop :=
  ∀ (s : State), ∃ t, hostAccess .hardReset s = .next t ∧
    t.cfg = s.cfg ∧ t.host = s.host ∧ t.sched = s.sched ∧ t.MemoriesOk ∧
    t.enc.phase = .idle ∧ t.enc.status = 0 ∧ t.enc.bpcReg = 0 ∧ t.enc.lenReg = 0 ∧ t.enc.outLen = 0 ∧ t.enc.fInfo = 0 ∧
    t.dec.phase = .idle ∧ t.dec.status = 0 ∧ t.dec.resetReg = 0 ∧ t.dec.lenReg = 0 ∧ t.dec.outLen = 0 ∧
    t.dec.fInfo = 0 ∧ t.dec.fIdx = 0

/-- R327, R287, R20: a step of the encoder and a step of the decoder commute: either order leads to a state exactly where the other
order leads to the same state. -/
def Obligations.EngineStepsCommute : Prop :=
  ∀ (s u : State),
    (∃ t, encStep s = .next t ∧ decStep t = .next u) ↔ (∃ v, decStep s = .next v ∧ encStep v = .next u)

/-! ### Whole commands -/

/-- R195, R199, R324: with unbounded capacities an ENCODE performs exactly one character step per character left and one finish
step, and ends DONE with KIND = SEQ; nothing but the encoder changes on the way. The order in which the agents move is log 6. -/
def Obligations.EncoderTerminates : Prop :=
  ∀ (s : State), s.Unbounded → s.sched = [] → s.enc.phase = .scan → s.enc.ScanOk s.cfg → Memory.wf s.enc.outMem →
    (∀ k, k ≤ s.enc.len - s.enc.ii →
      ∃ e, steps k s = .next { s with enc := e } ∧ e.phase = .scan ∧ e.ii = s.enc.ii + k) ∧
    ∃ e, steps (s.enc.len - s.enc.ii + 1) s = .next { s with enc := e } ∧ e.phase = .done ∧
      e.status = statusFinished .seq ∧ 1 ≤ e.outLen

/-- R243: a DECODE ends within one step for every two bits ahead and one more; nothing but the decoder changes on the way. The
order in
which the agents move is log 6. -/
def Obligations.DecoderTerminates : Prop :=
  ∀ (s : State), s.sched = [] → s.enc.phase ≠ .scan →
    (s.dec.phase = .header ∧ s.dec.HeaderOk s.cfg) ∨ (s.dec.phase = .loop ∧ s.dec.LoopOk s.cfg) →
    Memory.wf s.dec.outMem →
    ∃ k d, k ≤ s.dec.ahead.length / 2 + 1 ∧ steps k s = .next { s with dec := d } ∧ d.phase = .done

/-- R242, R3: round trip. With unbounded capacities, for every input in ENC_IN and every legal width, ENCODE ends DONE with KIND =
SEQ, and a DECODE of its symbols with the matching DEC_RESET ends DONE with KIND = SEQ and the input as its output. The order in
which the agents move is log 6. -/
def Obligations.DecodingTheEncodingGivesTheInput : Prop :=
  ∀ (s : State), s.Unbounded → s.sched = [] → isBusy s.enc.status = false → Memory.wf s.enc.outMem →
    1 ≤ s.enc.bpcReg.toNat → s.enc.bpcReg.toNat ≤ s.cfg.bpcMax →
    ∃ t u, exec .encStart s = .next t ∧ steps (s.enc.lenReg + 1) t = .next u ∧ u.enc.status = statusFinished .seq ∧
      ∀ (v : State), v.cfg = s.cfg → v.sched = [] → v.enc.phase ≠ .scan → isBusy v.dec.status = false →
        Memory.wf v.dec.outMem → v.dec.resetReg = 2 ^ (s.enc.bpcReg.toNat - 1) → v.dec.lenReg = u.enc.outLen →
        Memory.slice v.dec.inMem 0 u.enc.outLen = Memory.slice u.enc.outMem 0 u.enc.outLen →
        ∃ k x y, exec .decStart v = .next x ∧ steps k x = .next y ∧ y.dec.status = statusFinished .seq ∧
          y.dec.output = Memory.slice s.enc.inMem 0 s.enc.lenReg

end
end

