-- ==== Sys2Proof/Laws/State.lean ====
section
/-! SUPPORT. One lemma per field for each named update of an engine's record, and per outcome of a Run. -/

namespace Sys2Proof.Machine

/-! ### Enc.raise -/

@[simp] theorem Enc.raise_bpcReg (c : Cause) (info : Nat) (e : Enc) : (Enc.raise c info e).bpcReg = e.bpcReg := rfl
@[simp] theorem Enc.raise_lenReg (c : Cause) (info : Nat) (e : Enc) : (Enc.raise c info e).lenReg = e.lenReg := rfl
@[simp] theorem Enc.raise_status (c : Cause) (info : Nat) (e : Enc) : (Enc.raise c info e).status = statusFailed c := rfl
@[simp] theorem Enc.raise_outLen (c : Cause) (info : Nat) (e : Enc) : (Enc.raise c info e).outLen = 0 := rfl
@[simp] theorem Enc.raise_fInfo (c : Cause) (info : Nat) (e : Enc) : (Enc.raise c info e).fInfo = info := rfl
@[simp] theorem Enc.raise_ii (c : Cause) (info : Nat) (e : Enc) : (Enc.raise c info e).ii = e.ii := rfl
@[simp] theorem Enc.raise_w (c : Cause) (info : Nat) (e : Enc) : (Enc.raise c info e).w = e.w := rfl
@[simp] theorem Enc.raise_dictSize (c : Cause) (info : Nat) (e : Enc) : (Enc.raise c info e).dictSize = e.dictSize := rfl
@[simp] theorem Enc.raise_numBits (c : Cause) (info : Nat) (e : Enc) : (Enc.raise c info e).numBits = e.numBits := rfl
@[simp] theorem Enc.raise_enlargeIn (c : Cause) (info : Nat) (e : Enc) : (Enc.raise c info e).enlargeIn = e.enlargeIn := rfl
@[simp] theorem Enc.raise_acc (c : Cause) (info : Nat) (e : Enc) : (Enc.raise c info e).acc = e.acc := rfl
@[simp] theorem Enc.raise_pos (c : Cause) (info : Nat) (e : Enc) : (Enc.raise c info e).pos = e.pos := rfl
@[simp] theorem Enc.raise_bpc (c : Cause) (info : Nat) (e : Enc) : (Enc.raise c info e).bpc = e.bpc := rfl
@[simp] theorem Enc.raise_len (c : Cause) (info : Nat) (e : Enc) : (Enc.raise c info e).len = e.len := rfl
@[simp] theorem Enc.raise_dict (c : Cause) (info : Nat) (e : Enc) : (Enc.raise c info e).dict = e.dict := rfl
@[simp] theorem Enc.raise_pend (c : Cause) (info : Nat) (e : Enc) : (Enc.raise c info e).pend = e.pend := rfl
@[simp] theorem Enc.raise_phase (c : Cause) (info : Nat) (e : Enc) : (Enc.raise c info e).phase = .done := rfl
@[simp] theorem Enc.raise_inMem (c : Cause) (info : Nat) (e : Enc) : (Enc.raise c info e).inMem = e.inMem := rfl
@[simp] theorem Enc.raise_outMem (c : Cause) (info : Nat) (e : Enc) : (Enc.raise c info e).outMem = e.outMem := rfl

/-! ### Enc.finish -/

@[simp] theorem Enc.finish_bpcReg (k : Kind) (e : Enc) : (Enc.finish k e).bpcReg = e.bpcReg := rfl
@[simp] theorem Enc.finish_lenReg (k : Kind) (e : Enc) : (Enc.finish k e).lenReg = e.lenReg := rfl
@[simp] theorem Enc.finish_status (k : Kind) (e : Enc) : (Enc.finish k e).status = statusFinished k := rfl
@[simp] theorem Enc.finish_outLen (k : Kind) (e : Enc) : (Enc.finish k e).outLen = if k = .seq then e.outLen else 0 := rfl
@[simp] theorem Enc.finish_fInfo (k : Kind) (e : Enc) : (Enc.finish k e).fInfo = e.fInfo := rfl
@[simp] theorem Enc.finish_ii (k : Kind) (e : Enc) : (Enc.finish k e).ii = e.ii := rfl
@[simp] theorem Enc.finish_w (k : Kind) (e : Enc) : (Enc.finish k e).w = e.w := rfl
@[simp] theorem Enc.finish_dictSize (k : Kind) (e : Enc) : (Enc.finish k e).dictSize = e.dictSize := rfl
@[simp] theorem Enc.finish_numBits (k : Kind) (e : Enc) : (Enc.finish k e).numBits = e.numBits := rfl
@[simp] theorem Enc.finish_enlargeIn (k : Kind) (e : Enc) : (Enc.finish k e).enlargeIn = e.enlargeIn := rfl
@[simp] theorem Enc.finish_acc (k : Kind) (e : Enc) : (Enc.finish k e).acc = e.acc := rfl
@[simp] theorem Enc.finish_pos (k : Kind) (e : Enc) : (Enc.finish k e).pos = e.pos := rfl
@[simp] theorem Enc.finish_bpc (k : Kind) (e : Enc) : (Enc.finish k e).bpc = e.bpc := rfl
@[simp] theorem Enc.finish_len (k : Kind) (e : Enc) : (Enc.finish k e).len = e.len := rfl
@[simp] theorem Enc.finish_dict (k : Kind) (e : Enc) : (Enc.finish k e).dict = e.dict := rfl
@[simp] theorem Enc.finish_pend (k : Kind) (e : Enc) : (Enc.finish k e).pend = e.pend := rfl
@[simp] theorem Enc.finish_phase (k : Kind) (e : Enc) : (Enc.finish k e).phase = .done := rfl
@[simp] theorem Enc.finish_inMem (k : Kind) (e : Enc) : (Enc.finish k e).inMem = e.inMem := rfl
@[simp] theorem Enc.finish_outMem (k : Kind) (e : Enc) : (Enc.finish k e).outMem = e.outMem := rfl

/-! ### Enc.tick -/

@[simp] theorem Enc.tick_bpcReg (e : Enc) : (Enc.tick e).bpcReg = e.bpcReg := rfl
@[simp] theorem Enc.tick_lenReg (e : Enc) : (Enc.tick e).lenReg = e.lenReg := rfl
@[simp] theorem Enc.tick_status (e : Enc) : (Enc.tick e).status = e.status := rfl
@[simp] theorem Enc.tick_outLen (e : Enc) : (Enc.tick e).outLen = e.outLen := rfl
@[simp] theorem Enc.tick_fInfo (e : Enc) : (Enc.tick e).fInfo = e.fInfo := rfl
@[simp] theorem Enc.tick_ii (e : Enc) : (Enc.tick e).ii = e.ii := rfl
@[simp] theorem Enc.tick_w (e : Enc) : (Enc.tick e).w = e.w := rfl
@[simp] theorem Enc.tick_dictSize (e : Enc) : (Enc.tick e).dictSize = e.dictSize := rfl
@[simp] theorem Enc.tick_numBits (e : Enc) : (Enc.tick e).numBits = (tickPair e.numBits e.enlargeIn).1 := rfl
@[simp] theorem Enc.tick_enlargeIn (e : Enc) : (Enc.tick e).enlargeIn = (tickPair e.numBits e.enlargeIn).2 := rfl
@[simp] theorem Enc.tick_acc (e : Enc) : (Enc.tick e).acc = e.acc := rfl
@[simp] theorem Enc.tick_pos (e : Enc) : (Enc.tick e).pos = e.pos := rfl
@[simp] theorem Enc.tick_bpc (e : Enc) : (Enc.tick e).bpc = e.bpc := rfl
@[simp] theorem Enc.tick_len (e : Enc) : (Enc.tick e).len = e.len := rfl
@[simp] theorem Enc.tick_dict (e : Enc) : (Enc.tick e).dict = e.dict := rfl
@[simp] theorem Enc.tick_pend (e : Enc) : (Enc.tick e).pend = e.pend := rfl
@[simp] theorem Enc.tick_phase (e : Enc) : (Enc.tick e).phase = e.phase := rfl
@[simp] theorem Enc.tick_inMem (e : Enc) : (Enc.tick e).inMem = e.inMem := rfl
@[simp] theorem Enc.tick_outMem (e : Enc) : (Enc.tick e).outMem = e.outMem := rfl

/-! ### Dec.raise -/

@[simp] theorem Dec.raise_resetReg (c : Cause) (info : Nat) (d : Dec) : (Dec.raise c info d).resetReg = d.resetReg := rfl
@[simp] theorem Dec.raise_lenReg (c : Cause) (info : Nat) (d : Dec) : (Dec.raise c info d).lenReg = d.lenReg := rfl
@[simp] theorem Dec.raise_status (c : Cause) (info : Nat) (d : Dec) : (Dec.raise c info d).status = statusFailed c := rfl
@[simp] theorem Dec.raise_outLen (c : Cause) (info : Nat) (d : Dec) : (Dec.raise c info d).outLen = 0 := rfl
@[simp] theorem Dec.raise_fInfo (c : Cause) (info : Nat) (d : Dec) : (Dec.raise c info d).fInfo = info := rfl
@[simp] theorem Dec.raise_fIdx (c : Cause) (info : Nat) (d : Dec) : (Dec.raise c info d).fIdx = if d.phase.pastStart then d.index else d.fIdx := rfl
@[simp] theorem Dec.raise_val (c : Cause) (info : Nat) (d : Dec) : (Dec.raise c info d).val = d.val := rfl
@[simp] theorem Dec.raise_position (c : Cause) (info : Nat) (d : Dec) : (Dec.raise c info d).position = d.position := rfl
@[simp] theorem Dec.raise_index (c : Cause) (info : Nat) (d : Dec) : (Dec.raise c info d).index = d.index := rfl
@[simp] theorem Dec.raise_exh (c : Cause) (info : Nat) (d : Dec) : (Dec.raise c info d).exh = d.exh := rfl
@[simp] theorem Dec.raise_resetValue (c : Cause) (info : Nat) (d : Dec) : (Dec.raise c info d).resetValue = d.resetValue := rfl
@[simp] theorem Dec.raise_len (c : Cause) (info : Nat) (d : Dec) : (Dec.raise c info d).len = d.len := rfl
@[simp] theorem Dec.raise_w (c : Cause) (info : Nat) (d : Dec) : (Dec.raise c info d).w = d.w := rfl
@[simp] theorem Dec.raise_dictSize (c : Cause) (info : Nat) (d : Dec) : (Dec.raise c info d).dictSize = d.dictSize := rfl
@[simp] theorem Dec.raise_numBits (c : Cause) (info : Nat) (d : Dec) : (Dec.raise c info d).numBits = d.numBits := rfl
@[simp] theorem Dec.raise_enlargeIn (c : Cause) (info : Nat) (d : Dec) : (Dec.raise c info d).enlargeIn = d.enlargeIn := rfl
@[simp] theorem Dec.raise_dict (c : Cause) (info : Nat) (d : Dec) : (Dec.raise c info d).dict = d.dict := rfl
@[simp] theorem Dec.raise_phase (c : Cause) (info : Nat) (d : Dec) : (Dec.raise c info d).phase = .done := rfl
@[simp] theorem Dec.raise_inMem (c : Cause) (info : Nat) (d : Dec) : (Dec.raise c info d).inMem = d.inMem := rfl
@[simp] theorem Dec.raise_outMem (c : Cause) (info : Nat) (d : Dec) : (Dec.raise c info d).outMem = d.outMem := rfl

/-! ### Dec.finish -/

@[simp] theorem Dec.finish_resetReg (k : Kind) (d : Dec) : (Dec.finish k d).resetReg = d.resetReg := rfl
@[simp] theorem Dec.finish_lenReg (k : Kind) (d : Dec) : (Dec.finish k d).lenReg = d.lenReg := rfl
@[simp] theorem Dec.finish_status (k : Kind) (d : Dec) : (Dec.finish k d).status = statusFinished k := rfl
@[simp] theorem Dec.finish_outLen (k : Kind) (d : Dec) : (Dec.finish k d).outLen = if k = .seq then d.outLen else 0 := rfl
@[simp] theorem Dec.finish_fInfo (k : Kind) (d : Dec) : (Dec.finish k d).fInfo = d.fInfo := rfl
@[simp] theorem Dec.finish_fIdx (k : Kind) (d : Dec) : (Dec.finish k d).fIdx = if k = .overrun then d.index else d.fIdx := rfl
@[simp] theorem Dec.finish_val (k : Kind) (d : Dec) : (Dec.finish k d).val = d.val := rfl
@[simp] theorem Dec.finish_position (k : Kind) (d : Dec) : (Dec.finish k d).position = d.position := rfl
@[simp] theorem Dec.finish_index (k : Kind) (d : Dec) : (Dec.finish k d).index = d.index := rfl
@[simp] theorem Dec.finish_exh (k : Kind) (d : Dec) : (Dec.finish k d).exh = d.exh := rfl
@[simp] theorem Dec.finish_resetValue (k : Kind) (d : Dec) : (Dec.finish k d).resetValue = d.resetValue := rfl
@[simp] theorem Dec.finish_len (k : Kind) (d : Dec) : (Dec.finish k d).len = d.len := rfl
@[simp] theorem Dec.finish_w (k : Kind) (d : Dec) : (Dec.finish k d).w = d.w := rfl
@[simp] theorem Dec.finish_dictSize (k : Kind) (d : Dec) : (Dec.finish k d).dictSize = d.dictSize := rfl
@[simp] theorem Dec.finish_numBits (k : Kind) (d : Dec) : (Dec.finish k d).numBits = d.numBits := rfl
@[simp] theorem Dec.finish_enlargeIn (k : Kind) (d : Dec) : (Dec.finish k d).enlargeIn = d.enlargeIn := rfl
@[simp] theorem Dec.finish_dict (k : Kind) (d : Dec) : (Dec.finish k d).dict = d.dict := rfl
@[simp] theorem Dec.finish_phase (k : Kind) (d : Dec) : (Dec.finish k d).phase = .done := rfl
@[simp] theorem Dec.finish_inMem (k : Kind) (d : Dec) : (Dec.finish k d).inMem = d.inMem := rfl
@[simp] theorem Dec.finish_outMem (k : Kind) (d : Dec) : (Dec.finish k d).outMem = d.outMem := rfl

/-! ### Dec.tick -/

@[simp] theorem Dec.tick_resetReg (d : Dec) : (Dec.tick d).resetReg = d.resetReg := rfl
@[simp] theorem Dec.tick_lenReg (d : Dec) : (Dec.tick d).lenReg = d.lenReg := rfl
@[simp] theorem Dec.tick_status (d : Dec) : (Dec.tick d).status = d.status := rfl
@[simp] theorem Dec.tick_outLen (d : Dec) : (Dec.tick d).outLen = d.outLen := rfl
@[simp] theorem Dec.tick_fInfo (d : Dec) : (Dec.tick d).fInfo = d.fInfo := rfl
@[simp] theorem Dec.tick_fIdx (d : Dec) : (Dec.tick d).fIdx = d.fIdx := rfl
@[simp] theorem Dec.tick_val (d : Dec) : (Dec.tick d).val = d.val := rfl
@[simp] theorem Dec.tick_position (d : Dec) : (Dec.tick d).position = d.position := rfl
@[simp] theorem Dec.tick_index (d : Dec) : (Dec.tick d).index = d.index := rfl
@[simp] theorem Dec.tick_exh (d : Dec) : (Dec.tick d).exh = d.exh := rfl
@[simp] theorem Dec.tick_resetValue (d : Dec) : (Dec.tick d).resetValue = d.resetValue := rfl
@[simp] theorem Dec.tick_len (d : Dec) : (Dec.tick d).len = d.len := rfl
@[simp] theorem Dec.tick_w (d : Dec) : (Dec.tick d).w = d.w := rfl
@[simp] theorem Dec.tick_dictSize (d : Dec) : (Dec.tick d).dictSize = d.dictSize := rfl
@[simp] theorem Dec.tick_numBits (d : Dec) : (Dec.tick d).numBits = (tickPair d.numBits d.enlargeIn).1 := rfl
@[simp] theorem Dec.tick_enlargeIn (d : Dec) : (Dec.tick d).enlargeIn = (tickPair d.numBits d.enlargeIn).2 := rfl
@[simp] theorem Dec.tick_dict (d : Dec) : (Dec.tick d).dict = d.dict := rfl
@[simp] theorem Dec.tick_phase (d : Dec) : (Dec.tick d).phase = d.phase := rfl
@[simp] theorem Dec.tick_inMem (d : Dec) : (Dec.tick d).inMem = d.inMem := rfl
@[simp] theorem Dec.tick_outMem (d : Dec) : (Dec.tick d).outMem = d.outMem := rfl

/-! ### Dec.refill -/

@[simp] theorem Dec.refill_resetReg (d : Dec) : d.refill.resetReg = d.resetReg := by
  unfold Dec.refill; split <;> simp_all
@[simp] theorem Dec.refill_lenReg (d : Dec) : d.refill.lenReg = d.lenReg := by
  unfold Dec.refill; split <;> simp_all
@[simp] theorem Dec.refill_status (d : Dec) : d.refill.status = d.status := by
  unfold Dec.refill; split <;> simp_all
@[simp] theorem Dec.refill_outLen (d : Dec) : d.refill.outLen = d.outLen := by
  unfold Dec.refill; split <;> simp_all
@[simp] theorem Dec.refill_fInfo (d : Dec) : d.refill.fInfo = d.fInfo := by
  unfold Dec.refill; split <;> simp_all
@[simp] theorem Dec.refill_fIdx (d : Dec) : d.refill.fIdx = d.fIdx := by
  unfold Dec.refill; split <;> simp_all
@[simp] theorem Dec.refill_val (d : Dec) : d.refill.val = if d.index < d.len then Memory.read d.inMem d.index else d.val := by
  unfold Dec.refill; split <;> simp_all
@[simp] theorem Dec.refill_position (d : Dec) : d.refill.position = d.resetValue := by
  unfold Dec.refill; split <;> simp_all
@[simp] theorem Dec.refill_index (d : Dec) : d.refill.index = d.index + 1 := by
  unfold Dec.refill; split <;> simp_all
@[simp] theorem Dec.refill_exh (d : Dec) : d.refill.exh = if d.index < d.len then d.exh else true := by
  unfold Dec.refill; split <;> simp_all
@[simp] theorem Dec.refill_resetValue (d : Dec) : d.refill.resetValue = d.resetValue := by
  unfold Dec.refill; split <;> simp_all
@[simp] theorem Dec.refill_len (d : Dec) : d.refill.len = d.len := by
  unfold Dec.refill; split <;> simp_all
@[simp] theorem Dec.refill_w (d : Dec) : d.refill.w = d.w := by
  unfold Dec.refill; split <;> simp_all
@[simp] theorem Dec.refill_dictSize (d : Dec) : d.refill.dictSize = d.dictSize := by
  unfold Dec.refill; split <;> simp_all
@[simp] theorem Dec.refill_numBits (d : Dec) : d.refill.numBits = d.numBits := by
  unfold Dec.refill; split <;> simp_all
@[simp] theorem Dec.refill_enlargeIn (d : Dec) : d.refill.enlargeIn = d.enlargeIn := by
  unfold Dec.refill; split <;> simp_all
@[simp] theorem Dec.refill_dict (d : Dec) : d.refill.dict = d.dict := by
  unfold Dec.refill; split <;> simp_all
@[simp] theorem Dec.refill_phase (d : Dec) : d.refill.phase = d.phase := by
  unfold Dec.refill; split <;> simp_all
@[simp] theorem Dec.refill_inMem (d : Dec) : d.refill.inMem = d.inMem := by
  unfold Dec.refill; split <;> simp_all
@[simp] theorem Dec.refill_outMem (d : Dec) : d.refill.outMem = d.outMem := by
  unfold Dec.refill; split <;> simp_all

/-! ### Runs and outcomes -/

section
variable {σ α β : Type}

@[simp] theorem Run.andThen_ok (a : α) (s : σ) (k : α → σ → Run σ β) : (Run.ok a s).andThen k = k a s := rfl
@[simp] theorem Run.andThen_ended (s : σ) (k : α → σ → Run σ β) : (Run.ended s : Run σ α).andThen k = .ended s := rfl
@[simp] theorem Run.andThen_fault (f : Fault) (k : α → σ → Run σ β) :
    (Run.fault f : Run σ α).andThen k = .fault f := rfl

/-- A run followed by nothing more is itself. -/
@[simp] theorem Run.andThen_pure (r : Run σ α) : r.andThen (fun a s => .ok a s) = r := by cases r <;> rfl
@[simp] theorem Run.andThen_unit (r : Run σ Unit) : r.andThen (fun _ s => .ok () s) = r := by cases r <;> rfl

/-- Sequencing is associative. -/
theorem Run.andThen_assoc {γ : Type} (r : Run σ α) (k : α → σ → Run σ β) (l : β → σ → Run σ γ) :
    (r.andThen k).andThen l = r.andThen fun a s => (k a s).andThen l := by cases r <;> rfl

/-- A sequence ends well exactly when both parts do. -/
theorem Run.andThen_eq_ok {r : Run σ α} {k : α → σ → Run σ β} {b : β} {t : σ} :
    r.andThen k = .ok b t ↔ ∃ a s, r = .ok a s ∧ k a s = .ok b t := by cases r <;> simp [Run.andThen]

/-- A sequence ends the command in its first part or in its second. -/
theorem Run.andThen_eq_ended {r : Run σ α} {k : α → σ → Run σ β} {t : σ} :
    r.andThen k = .ended t ↔ r = .ended t ∨ ∃ a s, r = .ok a s ∧ k a s = .ended t := by cases r <;> simp [Run.andThen]

/-- A sequence faults in its first part or in its second. -/
theorem Run.andThen_eq_fault {r : Run σ α} {k : α → σ → Run σ β} {f : Fault} :
    r.andThen k = .fault f ↔ r = .fault f ∨ ∃ a s, r = .ok a s ∧ k a s = .fault f := by cases r <;> simp [Run.andThen]

end

@[simp] theorem encOutcome_ok (s : State) (u : Unit) (e : Enc) : encOutcome s (.ok u e) = .next { s with enc := e } := rfl
@[simp] theorem encOutcome_ended (s : State) (e : Enc) : encOutcome s (.ended e) = .next { s with enc := e } := rfl
@[simp] theorem encOutcome_fault (s : State) (f : Fault) : encOutcome s (.fault f) = .fault f := rfl
@[simp] theorem decOutcome_ok (s : State) (u : Unit) (d : Dec) : decOutcome s (.ok u d) = .next { s with dec := d } := rfl
@[simp] theorem decOutcome_ended (s : State) (d : Dec) : decOutcome s (.ended d) = .next { s with dec := d } := rfl
@[simp] theorem decOutcome_fault (s : State) (f : Fault) : decOutcome s (.fault f) = .fault f := rfl
@[simp] theorem readOutcome_ok (s : State) (v : Nat) (d : Dec) :
    readOutcome s (.ok v d) = .next { s with dec := d, ret := v } := rfl
@[simp] theorem readOutcome_ended (s : State) (d : Dec) : readOutcome s (.ended d) = .next { s with dec := d } := rfl
@[simp] theorem readOutcome_fault (s : State) (f : Fault) : readOutcome s (.fault f) = .fault f := rfl

/-- An operation of the encoder answers a next state exactly when it does not fault, and changes the encoder alone. -/
theorem encOutcome_next {s t : State} {r : Run Enc Unit} (h : encOutcome s r = .next t) :
    ∃ e, t = { s with enc := e } ∧ (r = .ok () e ∨ r = .ended e) := by
  cases r with
  | ok u e => exact ⟨e, by simpa using h.symm, .inl rfl⟩
  | ended e => exact ⟨e, by simpa using h.symm, .inr rfl⟩
  | fault f => simp at h

/-- An operation of the decoder changes the decoder alone. -/
theorem decOutcome_next {s t : State} {r : Run Dec Unit} (h : decOutcome s r = .next t) :
    ∃ d, t = { s with dec := d } ∧ (r = .ok () d ∨ r = .ended d) := by
  cases r with
  | ok u d => exact ⟨d, by simpa using h.symm, .inl rfl⟩
  | ended d => exact ⟨d, by simpa using h.symm, .inr rfl⟩
  | fault f => simp at h

/-- A reading operation changes the decoder and `ret` alone. -/
theorem readOutcome_next {s t : State} {r : Run Dec Nat} (h : readOutcome s r = .next t) :
    ∃ d, (∃ v, r = .ok v d ∧ t = { s with dec := d, ret := v }) ∨ (r = .ended d ∧ t = { s with dec := d }) := by
  cases r with
  | ok v d => exact ⟨d, .inl ⟨v, rfl, by simpa using h.symm⟩⟩
  | ended d => exact ⟨d, .inr ⟨rfl, by simpa using h.symm⟩⟩
  | fault f => simp at h

end Sys2Proof.Machine
end

