-- ==== Sys2Proof/Laws/Memory.lean ====
section
/-! SUPPORT. Laws of the memory spaces and of the partial maps: read after write, canonical form. -/

namespace Sys2Proof.Machine

section
variable {α : Type} [Inhabited α]

@[simp] theorem Memory.read_nil (i : Nat) : Memory.read ([] : Memory α) i = unlisted := rfl

/-- An index below every listed one reads as unlisted. -/
theorem Memory.read_below (m : Memory α) (i : Nat) (h : ∀ c ∈ m, i < c.1) : Memory.read m i = unlisted := by
  induction m with
  | nil => rfl
  | cons c m ih =>
    obtain ⟨j, x⟩ := c
    have hj : i < j := h (j, x) (by simp)
    simp only [Memory.read, if_neg (Nat.ne_of_gt hj)]
    exact ih fun c hc => h c (by simp [hc])

/-- A write lists no index but the old ones and its own. -/
theorem Memory.mem_write [DecidableEq α] {m : Memory α} {i : Nat} {v : α} {c : Nat × α} (h : c ∈ Memory.write m i v) :
    c ∈ m ∨ (c = (i, v) ∧ v ≠ unlisted) := by
  induction m with
  | nil =>
    simp only [Memory.write] at h
    split at h <;> simp_all
  | cons d m ih =>
    obtain ⟨j, x⟩ := d
    simp only [Memory.write] at h
    split at h
    · split at h <;> simp_all [or_comm, or_left_comm]
    · split at h
      · split at h
        · exact .inl (List.mem_cons_of_mem _ h)
        · rcases List.mem_cons.1 h with rfl | h
          · simp_all
          · exact .inl (List.mem_cons_of_mem _ h)
      · rcases List.mem_cons.1 h with rfl | h
        · simp
        · rcases ih h with h | h
          · exact .inl (by simp [h])
          · exact .inr h

/-- Every write keeps the canonical form. -/
theorem Memory.wf_write [DecidableEq α] {m : Memory α} (i : Nat) (v : α) (h : Memory.wf m) : Memory.wf (Memory.write m i v) := by
  obtain ⟨hs, hu⟩ := h
  refine ⟨?_, fun c hc => ?_⟩
  · induction m with
    | nil => simp only [Memory.write]; split <;> simp
    | cons d m ih =>
      obtain ⟨j, x⟩ := d
      have hs' := List.pairwise_cons.1 hs
      simp only [Memory.write]
      split
      · rename_i hij
        split
        · exact hs
        · refine List.pairwise_cons.2 ⟨fun c hc => ?_, hs⟩
          rcases List.mem_cons.1 hc with rfl | hc
          · exact hij
          · exact Nat.lt_trans hij (hs'.1 c hc)
      · split
        · rename_i hij
          split
          · exact hs'.2
          · subst hij; exact List.pairwise_cons.2 ⟨hs'.1, hs'.2⟩
        · refine List.pairwise_cons.2 ⟨fun c hc => ?_, ih hs'.2 fun c hc => hu c (by simp [hc])⟩
          rcases Memory.mem_write hc with hc | ⟨rfl, -⟩
          · exact hs'.1 c hc
          · simp only; omega
  · rcases Memory.mem_write hc with hc | ⟨rfl, hv⟩
    · exact hu c hc
    · exact hv

/-- In a canonical space, a read after a write gives the value written at its index and the old value elsewhere. -/
theorem Memory.read_write [DecidableEq α] {m : Memory α} (h : Memory.wf m) (i j : Nat) (v : α) :
    Memory.read (Memory.write m i v) j = if j = i then v else Memory.read m j := by
  obtain ⟨hs, -⟩ := h
  induction m with
  | nil =>
    simp only [Memory.write]
    split
    · rename_i hv; subst hv; simp
    · by_cases hij : j = i
      · subst hij; simp [Memory.read]
      · simp [Memory.read, hij, Ne.symm hij]
  | cons d m ih =>
    obtain ⟨k, x⟩ := d
    have hs' := List.pairwise_cons.1 hs
    simp only [Memory.write]
    split
    · rename_i hik
      have hlow : Memory.read ((k, x) :: m) i = unlisted := Memory.read_below _ _ fun c hc => by
        rcases List.mem_cons.1 hc with rfl | hc
        · exact hik
        · exact Nat.lt_trans hik (hs'.1 c hc)
      split
      · rename_i hv
        by_cases hji : j = i
        · subst hji; simp [hlow, hv]
        · simp [hji]
      · by_cases hji : j = i
        · subst hji; simp [Memory.read]
        · simp [Memory.read, hji, Ne.symm hji]
    · split
      · rename_i _ hik
        subst hik
        have hlow : Memory.read m i = unlisted := Memory.read_below _ _ fun c hc => hs'.1 c hc
        split
        · rename_i hv
          by_cases hji : j = i
          · subst hji; simp [hlow, hv]
          · simp [Memory.read, hji, Ne.symm hji]
        · by_cases hji : j = i
          · subst hji; simp [Memory.read]
          · simp [Memory.read, hji, Ne.symm hji]
      · rename_i _ hik
        simp only [Memory.read]
        by_cases hkj : k = j
        · subst hkj
          rw [if_pos rfl, if_pos rfl, if_neg (Ne.symm hik)]
        · rw [if_neg hkj, if_neg hkj, ih hs'.2]

/-- The space built from any cells is canonical. -/
theorem Memory.wf_ofCells [DecidableEq α] (cells : List (Nat × α)) : Memory.wf (Memory.ofCells cells) := by
  suffices h : ∀ (m : Memory α), Memory.wf m →
      Memory.wf (cells.foldl (fun m c => Memory.write m c.1 c.2) m) from h [] ⟨.nil, by simp⟩
  induction cells with
  | nil => exact fun m h => h
  | cons c cells ih => exact fun m h => ih _ (Memory.wf_write _ _ h)

/-- Two canonical spaces that read alike everywhere are equal data. -/
theorem Memory.ext {m n : Memory α} (hm : Memory.wf m) (hn : Memory.wf n)
    (h : ∀ i, Memory.read m i = Memory.read n i) : m = n := by
  induction m generalizing n with
  | nil =>
    cases n with
    | nil => rfl
    | cons c n =>
      have := h c.1
      simp only [Memory.read, if_pos] at this
      exact absurd this.symm (hn.2 c (by simp))
  | cons c m ih =>
    obtain ⟨j, x⟩ := c
    have hm' := List.pairwise_cons.1 hm.1
    cases n with
    | nil =>
      have := h j
      simp only [Memory.read, if_pos] at this
      exact absurd this (hm.2 (j, x) (by simp))
    | cons d n =>
      obtain ⟨k, y⟩ := d
      have hn' := List.pairwise_cons.1 hn.1
      have hjk : j = k := by
        rcases Nat.lt_trichotomy j k with hlt | heq | hgt
        · have h1 := h j
          rw [Memory.read_below ((k, y) :: n) j fun c hc => by
            rcases List.mem_cons.1 hc with rfl | hc
            · exact hlt
            · exact Nat.lt_trans hlt (hn'.1 c hc)] at h1
          simp only [Memory.read, if_pos] at h1
          exact absurd h1 (hm.2 (j, x) (by simp))
        · exact heq
        · have h1 := h k
          rw [Memory.read_below ((j, x) :: m) k fun c hc => by
            rcases List.mem_cons.1 hc with rfl | hc
            · exact hgt
            · exact Nat.lt_trans hgt (hm'.1 c hc)] at h1
          simp only [Memory.read, if_pos] at h1
          exact absurd h1.symm (hn.2 (k, y) (by simp))
      subst hjk
      have hxy : x = y := by simpa [Memory.read] using h j
      subst hxy
      rw [ih ⟨hm'.2, fun c hc => hm.2 c (by simp [hc])⟩ ⟨hn'.2, fun c hc => hn.2 c (by simp [hc])⟩ fun i => ?_]
      by_cases hi : j = i
      · subst hi
        rw [Memory.read_below m j fun c hc => hm'.1 c hc, Memory.read_below n j fun c hc => hn'.1 c hc]
      · simpa [Memory.read, hi] using h i

/-- One more element: the slice grows at its end. -/
theorem Memory.slice_succ (m : Memory α) (i n : Nat) :
    Memory.slice m i (n + 1) = Memory.slice m i n ++ [Memory.read m (i + n)] := by
  simp [Memory.slice, List.range'_concat]

/-- One element and the rest. -/
theorem Memory.slice_cons (m : Memory α) (i n : Nat) :
    Memory.slice m i (n + 1) = Memory.read m i :: Memory.slice m (i + 1) n := by
  simp [Memory.slice, List.range'_succ]

@[simp] theorem Memory.slice_zero (m : Memory α) (i : Nat) : Memory.slice m i 0 = [] := rfl

@[simp] theorem Memory.length_slice (m : Memory α) (i n : Nat) : (Memory.slice m i n).length = n := by
  simp [Memory.slice]

/-- A write outside a slice leaves the slice alone. -/
theorem Memory.slice_write [DecidableEq α] {m : Memory α} (h : Memory.wf m) (i n j : Nat) (v : α) (hj : j < i ∨ i + n ≤ j) :
    Memory.slice (Memory.write m j v) i n = Memory.slice m i n := by
  simp only [Memory.slice]
  refine List.map_congr_left fun k hk => ?_
  have hk := List.mem_range'_1.1 hk
  rw [Memory.read_write h, if_neg (by omega)]

/-- A write at the end of a slice is the slice's next element. -/
theorem Memory.slice_append [DecidableEq α] {m : Memory α} (h : Memory.wf m) (i n : Nat) (v : α) :
    Memory.slice (Memory.write m (i + n) v) i (n + 1) = Memory.slice m i n ++ [v] := by
  rw [Memory.slice_succ, Memory.slice_write h _ _ _ _ (.inr (Nat.le_refl _)), Memory.read_write h, if_pos rfl]

end

/-! ### Partial maps -/

section
variable {κ β : Type} [DecidableEq κ]

/-- A map reads, after an assignment, the assigned value at its key and the old one elsewhere. -/
theorem find_assign (m : List (κ × β)) (j k : κ) (v : β) :
    find (assign m k v) j = if j = k then some v else find m j := by
  induction m with
  | nil => simp [assign, find, eq_comm]
  | cons c m ih =>
    obtain ⟨i, x⟩ := c
    simp only [assign]
    split
    · rename_i h; subst h
      by_cases hj : j = i
      · subst hj; simp [find]
      · simp [find, hj, Ne.symm hj]
    · rename_i h
      simp only [find, ih]
      by_cases hij : i = j
      · subst hij; simp [h]
      · simp [hij]

/-- A new key is listed last. -/
theorem assign_new (m : List (κ × β)) (k : κ) (v : β) (h : find m k = none) : assign m k v = m ++ [(k, v)] := by
  induction m with
  | nil => rfl
  | cons c m ih =>
    obtain ⟨i, x⟩ := c
    simp only [find] at h
    split at h
    · simp at h
    · rename_i hi; simp [assign, hi, ih h]

/-- A key is in the domain exactly when it is listed. -/
theorem find_eq_none (m : List (κ × β)) (k : κ) : find m k = none ↔ k ∉ m.map Prod.fst := by
  induction m with
  | nil => simp [find]
  | cons c m ih =>
    obtain ⟨i, x⟩ := c
    simp only [find]
    split
    · rename_i h; simp [h]
    · rename_i h; simp [ih, Ne.symm h]

/-- What is found is listed. -/
theorem find_mem {m : List (κ × β)} {k : κ} {v : β} (h : find m k = some v) : (k, v) ∈ m := by
  induction m with
  | nil => simp [find] at h
  | cons c m ih =>
    obtain ⟨i, x⟩ := c
    simp only [find] at h
    split at h
    · rename_i hi; simp_all
    · exact List.mem_cons_of_mem _ (ih h)

@[simp] theorem inDomain_assign (m : List (κ × β)) (j k : κ) (v : β) :
    inDomain (assign m k v) j = (decide (j = k) || inDomain m j) := by
  unfold inDomain; rw [find_assign]; by_cases h : j = k <;> simp [h]

end

end Sys2Proof.Machine
end

