-- ==== Sys2Proof/Laws/Bits.lean ====
section
/-! SUPPORT. Laws of the fields of bits (R93, R94, R99) and of the symbols that carry them (R67). -/

namespace Sys2Proof

@[simp] theorem length_codeBits (v n : Nat) : (codeBits v n).length = n := by simp [codeBits]

@[simp] theorem length_payloadBits (msb : Bool) (v m : Nat) : (payloadBits msb v m).length = m := by
  unfold payloadBits; split <;> simp

@[simp] theorem codeBits_zero_width (v : Nat) : codeBits v 0 = [] := rfl

/-- Bit 0 first, then the code of the rest (R93). -/
theorem codeBits_succ (v n : Nat) : codeBits v (n + 1) = v.testBit 0 :: codeBits (v / 2) n := by
  simp only [codeBits, List.range_succ_eq_map, List.map_cons, List.map_map]
  congr 1
  refine List.map_congr_left fun i _ => ?_
  simp [Nat.testBit_succ]

/-- The last bit of a code is its highest. -/
theorem codeBits_concat (v n : Nat) : codeBits v (n + 1) = codeBits v n ++ [v.testBit n] := by
  simp [codeBits, List.range_succ]

/-- Assembling the bits of `v` at width `n` gives `v` modulo 2^n (R99 after R93). -/
theorem codeOfBits_codeBits (v n : Nat) : codeOfBits (codeBits v n) = v % 2 ^ n := by
  induction n generalizing v with
  | zero => simp [codeBits, codeOfBits, Nat.mod_one]
  | succ n ih =>
    rw [codeBits_succ, codeOfBits, ih, Nat.pow_succ, Nat.mul_comm (2 ^ n) 2, Nat.mod_mul]
    congr 1
    rcases Nat.mod_two_eq_zero_or_one v with h | h <;> simp [Nat.testBit_zero, h]

/-- `n` bits assemble to a number below 2^n. -/
theorem codeOfBits_lt (bs : List Bool) : codeOfBits bs < 2 ^ bs.length := by
  induction bs with
  | nil => simp [codeOfBits]
  | cons b bs ih =>
    simp only [codeOfBits, List.length_cons, Nat.pow_succ]
    have : b.toNat ≤ 1 := Bool.toNat_le b
    omega

/-- The bits of an assembled code are the bits it was assembled from. -/
theorem codeBits_codeOfBits (bs : List Bool) : codeBits (codeOfBits bs) bs.length = bs := by
  induction bs with
  | nil => rfl
  | cons b bs ih =>
    rw [List.length_cons, codeBits_succ, codeOfBits]
    have h1 : (b.toNat + 2 * codeOfBits bs) / 2 = codeOfBits bs := by
      have : b.toNat ≤ 1 := Bool.toNat_le b
      omega
    have h2 : (b.toNat + 2 * codeOfBits bs).testBit 0 = b := by
      rw [Nat.testBit_zero]
      cases b <;> simp
    rw [h1, h2, ih]

/-- Assembling the bits of a payload gives it back (R99 after R94), in either order. -/
theorem payloadOfBits_payloadBits (msb : Bool) (v m : Nat) (h : v < 2 ^ m) :
    payloadOfBits msb (payloadBits msb v m) = v := by
  unfold payloadOfBits payloadBits
  cases msb <;> simp [codeOfBits_codeBits, Nat.mod_eq_of_lt h]

/-- `m` payload bits assemble to a number below 2^m. -/
theorem payloadOfBits_lt (msb : Bool) (bs : List Bool) : payloadOfBits msb bs < 2 ^ bs.length := by
  unfold payloadOfBits
  split
  · simpa using codeOfBits_lt bs.reverse
  · exact codeOfBits_lt bs

/-- The bits of an assembled payload are the bits it was assembled from. -/
theorem payloadBits_payloadOfBits (msb : Bool) (bs : List Bool) :
    payloadBits msb (payloadOfBits msb bs) bs.length = bs := by
  unfold payloadBits payloadOfBits
  cases msb
  · exact codeBits_codeOfBits bs
  · have := codeBits_codeOfBits bs.reverse
    simp only [List.length_reverse] at this
    simp [this]

/-- Enough bits: the first `n` and the rest. -/
theorem takeBits_append (bs rest : List Bool) : takeBits bs.length (bs ++ rest) = .ok (bs, rest) := by
  simp [takeBits]

/-- Taking a code back (R93). -/
theorem takeBits_codeBits (v n : Nat) (rest : List Bool) : takeBits n (codeBits v n ++ rest) = .ok (codeBits v n, rest) := by
  simpa using takeBits_append (codeBits v n) rest

/-- Taking a payload back (R94). -/
theorem takeBits_payloadBits (msb : Bool) (v n : Nat) (rest : List Bool) :
    takeBits n (payloadBits msb v n ++ rest) = .ok (payloadBits msb v n, rest) := by
  simpa using takeBits_append (payloadBits msb v n) rest

/-- Taking two bits. -/
theorem takeBits_two (a b : Bool) (rest : List Bool) : takeBits 2 (a :: b :: rest) = .ok ([a, b], rest) :=
  takeBits_append [a, b] rest

/-- What takeBits gives back is what was there. -/
theorem takeBits_ok {n : Nat} {bs a b : List Bool} (h : takeBits n bs = .ok (a, b)) : bs = a ++ b ∧ a.length = n := by
  unfold takeBits at h
  split at h
  · simp at h
  · injection h with h
    injection h with h1 h2
    subst h1 h2
    simp
    omega

namespace Machine

@[simp] theorem length_symbolBits (w : Nat) (v : Symbol) : (symbolBits w v).length = w := by simp [symbolBits]

@[simp] theorem symbolBits_zero (v : Symbol) : symbolBits 0 v = [] := rfl

/-- The highest bit of a symbol comes first (R67). -/
theorem symbolBits_succ (n : Nat) (v : Symbol) : symbolBits (n + 1) v = v.testBit n :: symbolBits n v := by
  simp [symbolBits, codeBits_concat]

/-- Shifting a bit in at the low end appends it to the symbol's bits (R151). -/
theorem symbolBits_shift (n v : Nat) (b : Bool) :
    symbolBits (n + 1) ((v <<< 1) ||| b.toNat) = symbolBits n v ++ [b] := by
  have h0 : ((v <<< 1) ||| b.toNat).testBit 0 = b := by cases b <;> simp [Nat.testBit_zero]
  have h1 : ((v <<< 1) ||| b.toNat) / 2 = v := by
    rw [← Nat.shiftRight_one, Nat.shiftRight_or_distrib]
    cases b <;> simp [Nat.shiftLeft_shiftRight]
  rw [symbolBits, codeBits_succ, h0, h1, List.reverse_cons, symbolBits]

/-- A value below 2^n shifted by one bit is below 2^(n+1). -/
theorem shift_lt {n v : Nat} (b : Bool) (h : v < 2 ^ n) : (v <<< 1) ||| b.toNat < 2 ^ (n + 1) := by
  refine Nat.or_lt_two_pow ?_ ?_
  · rw [Nat.shiftLeft_eq, Nat.pow_succ]; omega
  · exact Nat.lt_of_le_of_lt (Bool.toNat_le b) (Nat.one_lt_two_pow (by omega))

@[simp] theorem streamBits_nil (w : Nat) : streamBits w [] = [] := rfl

@[simp] theorem streamBits_cons (w : Nat) (v : Symbol) (vs : List Symbol) :
    streamBits w (v :: vs) = symbolBits w v ++ streamBits w vs := rfl

@[simp] theorem streamBits_append (w : Nat) (us vs : List Symbol) :
    streamBits w (us ++ vs) = streamBits w us ++ streamBits w vs := by simp [streamBits]

@[simp] theorem length_streamBits (w : Nat) (vs : List Symbol) : (streamBits w vs).length = vs.length * w := by
  induction vs with
  | nil => simp
  | cons v vs ih => simp [ih, Nat.succ_mul, Nat.add_comm]

end Machine

end Sys2Proof
end

