-- ==== Sys2Proof/Laws/Cursor.lean ====
section
/-! SUPPORT. Laws of the bit writer and the bit reader: what an appended bit and a delivered bit do to the stream. -/

namespace Sys2Proof.Machine

/-! ### Capacity -/

/-- With unbounded parameters OutAppend never finds its space full (R66). -/
theorem outFull_unbounded {p : Params} (h : p.unbounded) (n : Nat) : outFull p n = false := by
  obtain ⟨-, h1, -, h2⟩ := h
  simp [outFull, fitsWidth, h1, h2]

/-- With unbounded parameters a registration never finds the dictionary full (R274). -/
theorem dictFull_unbounded {p : Params} (h : p.unbounded) (n : Nat) : dictFull p n = false := by
  obtain ⟨h1, -, h2, -⟩ := h
  simp [dictFull, fitsWidth, h1, h2]

/-! ### The writer -/

theorem Enc.Appended.refl {e : Enc} (hc : e.CursorOk) (hm : Memory.wf e.outMem) : e.Appended [] e :=
  ⟨rfl, hc, hm, by simp, Nat.le_refl _, fun _ _ => rfl, fun a h1 h2 => by omega⟩

theorem Enc.Appended.trans {as bs : List Bool} {e f g : Enc} (h : e.Appended as f) (k : f.Appended bs g) :
    e.Appended (as ++ bs) g where
  frame := by rw [k.frame, h.frame]
  cursor := k.cursor
  canonical := k.canonical
  bits := by rw [k.bits, h.bits, List.append_assoc]
  grows := Nat.le_trans h.grows k.grows
  elsewhere := fun a ha => by
    have h1 := h.grows
    have h2 := k.grows
    rw [k.elsewhere a (by omega), h.elsewhere a (by omega)]
  bounded := fun a h1 h2 => by
    have hb : f.bpc = e.bpc := by rw [h.frame]
    by_cases ha : a < f.outLen
    · rw [k.elsewhere a (.inl ha)]
      exact h.bounded a h1 ha
    · rw [← hb]
      exact k.bounded a (by omega) h2

/-- How many bits the writer has appended since START (R154). -/
theorem Enc.length_written (e : Enc) : e.written.length = e.outLen * e.bpc + e.pos := by
  simp [Enc.written]

/-- PUTBIT, from a cursor within its symbol: the bit is appended, or the symbol it completes meets the capacity (R151). -/
theorem Enc.putBit_cases (p : Params) (b : Bool) (e : Enc) (hc : e.CursorOk) (hm : Memory.wf e.outMem) :
    (∃ f, e.putBit p b = .ok () f ∧ e.Appended [b] f) ∨
    (outFull p e.outLen = true ∧ e.pos + 1 = e.bpc ∧
      e.putBit p b = .ended (Enc.raise .capacityExceeded e.ii
        { e with acc := (e.acc <<< 1) ||| b.toNat, pos := e.pos + 1 })) := by
  obtain ⟨hp, ha⟩ := hc
  unfold Enc.putBit
  by_cases hfull : e.pos + 1 = e.bpc
  · cases hout : outFull p e.outLen with
    | true => exact .inr ⟨rfl, hfull, by simp [hfull, Enc.outAppend, hout]⟩
    | false =>
      refine .inl ⟨_, by simp [hfull, Enc.outAppend, hout]; rfl, rfl, ⟨?_, ?_⟩, ?_, ?_, ?_, ?_, ?_⟩
      · simp only; omega
      · simp
      · exact Memory.wf_write _ _ hm
      · have hs := Memory.slice_append hm 0 e.outLen ((e.acc <<< 1) ||| b.toNat)
        have hb := symbolBits_shift e.pos e.acc b
        rw [hfull] at hb
        simp only [Nat.zero_add] at hs
        simp [Enc.written, hs, hb]
      · simp
      · intro a ha
        rw [Memory.read_write hm, if_neg (by simp only at ha; omega)]
      · intro a h1 h2
        have : a = e.outLen := by simp only at h2; omega
        rw [this, Memory.read_write hm, if_pos rfl, ← hfull]
        exact shift_lt b ha
  · refine .inl ⟨{ e with acc := (e.acc <<< 1) ||| b.toNat, pos := e.pos + 1 }, by simp [hfull], rfl, ⟨?_, ?_⟩, hm, ?_, Nat.le_refl _, fun _ _ => rfl,
      fun a h1 h2 => by simp only at h2; omega⟩
    · simp only; omega
    · exact shift_lt b ha
    · simp [Enc.written, symbolBits_shift]

/-- A run of PUTBITs: the bits are appended, or the capacity ends the command after some of them. It never faults. -/
theorem Enc.putBits_cases (p : Params) (bs : List Bool) (e : Enc) (hc : e.CursorOk) (hm : Memory.wf e.outMem) :
    (∃ f, e.putBits p bs = .ok () f ∧ e.Appended bs f) ∨
    (∃ as b f, as ++ [b] <+: bs ∧ e.Appended as f ∧ outFull p f.outLen = true ∧ f.pos + 1 = f.bpc ∧
      e.putBits p bs = .ended (Enc.raise .capacityExceeded f.ii
        { f with acc := (f.acc <<< 1) ||| b.toNat, pos := f.pos + 1 })) := by
  induction bs generalizing e with
  | nil => exact .inl ⟨e, rfl, .refl hc hm⟩
  | cons b bs ih =>
    rcases Enc.putBit_cases p b e hc hm with ⟨f, hf, ha⟩ | ⟨hfull, hpos, hr⟩
    · rcases ih f ha.cursor ha.canonical with ⟨g, hg, hb⟩ | ⟨as, c, g, hpre, hb, hfull, hpos, hr⟩
      · exact .inl ⟨g, by simp [Enc.putBits, hf, hg], by simpa using ha.trans hb⟩
      · refine .inr ⟨b :: as, c, g, by simpa using hpre, by simpa using ha.trans hb, hfull, hpos, ?_⟩
        simp [Enc.putBits, hf, hr]
    · refine .inr ⟨[], b, e, by simp, .refl hc hm, hfull, hpos, ?_⟩
      simp [Enc.putBits, hr]

/-- With unbounded capacity every run of PUTBITs appends its bits. -/
theorem Enc.putBits_ok {p : Params} (hp : p.unbounded) (bs : List Bool) (e : Enc) (hc : e.CursorOk)
    (hm : Memory.wf e.outMem) : ∃ f, e.putBits p bs = .ok () f ∧ e.Appended bs f := by
  rcases Enc.putBits_cases p bs e hc hm with h | ⟨_, _, f, _, _, hfull, _⟩
  · exact h
  · rw [outFull_unbounded hp] at hfull; cases hfull

/-- A run of PUTBITs over a joined list is the runs one after the other. -/
theorem Enc.putBits_append (p : Params) (as bs : List Bool) (e : Enc) :
    e.putBits p (as ++ bs) = (e.putBits p as).andThen fun _ f => f.putBits p bs := by
  induction as generalizing e with
  | nil => rfl
  | cons a as ih =>
    simp only [List.cons_append, Enc.putBits, Run.andThen_assoc]
    congr 1
    funext _ f
    exact ih f

/-! ### The reader -/

theorem Dec.Moved.refl {d : Dec} (hc : d.CursorOk) : d.Moved d := ⟨rfl, hc⟩

theorem Dec.Moved.trans {d e f : Dec} (h : d.Moved e) (k : e.Moved f) : d.Moved f where
  frame := by rw [k.frame, h.frame]
  cursor := k.cursor

/-- A move keeps every field but the four of the cursor. -/
theorem Dec.Moved.eqs {d e : Dec} (h : d.Moved e) :
    e.dict = d.dict ∧ e.dictSize = d.dictSize ∧ e.numBits = d.numBits ∧ e.enlargeIn = d.enlargeIn ∧ e.w = d.w ∧
    e.outMem = d.outMem ∧ e.outLen = d.outLen ∧ e.phase = d.phase ∧ e.len = d.len ∧ e.resetValue = d.resetValue ∧
    e.inMem = d.inMem ∧ e.status = d.status ∧ e.fInfo = d.fInfo ∧ e.fIdx = d.fIdx ∧ e.resetReg = d.resetReg ∧
    e.lenReg = d.lenReg := by
  rw [h.frame]; simp

/-- A shifted one-hot mask. -/
theorem log2_shift {n : Nat} (h : n = 2 ^ Nat.log2 n) (h1 : n >>> 1 ≠ 0) :
    n >>> 1 = 2 ^ Nat.log2 (n >>> 1) ∧ Nat.log2 n = Nat.log2 (n >>> 1) + 1 := by
  obtain ⟨j, hj⟩ : ∃ j, Nat.log2 n = j := ⟨_, rfl⟩
  rw [hj] at h ⊢
  subst h
  cases j with
  | zero => simp at h1
  | succ j =>
    have : 2 ^ (j + 1) >>> 1 = 2 ^ j := by rw [Nat.shiftRight_one, Nat.pow_succ]; omega
    rw [this, Nat.log2_two_pow]
    exact ⟨rfl, rfl⟩

/-- A mask that shifts out is 1. -/
theorem one_of_shift {n : Nat} (h : n = 2 ^ Nat.log2 n) (h0 : n >>> 1 = 0) : n = 1 := by
  have hpos : 0 < n := by rw [h]; exact Nat.two_pow_pos _
  rw [Nat.shiftRight_one] at h0
  omega

/-- GETBIT's test of DEC.val against the one-hot mask reads the mask's bit (R160). -/
theorem and_mask {v n : Nat} (h : n = 2 ^ Nat.log2 n) : (!(v &&& n == 0)) = v.testBit (Nat.log2 n) := by
  rw [h, Nat.log2_two_pow]
  cases hb : v.testBit (Nat.log2 n)
  · have : v &&& 2 ^ Nat.log2 n = 0 := by
      rw [Nat.and_two_pow, hb]; simp
    simp [this]
  · have : v &&& 2 ^ Nat.log2 n = 2 ^ Nat.log2 n := by
      rw [Nat.and_two_pow, hb]; simp
    simp [this]

/-- Exhausted exactly when no bit is left: a cursor that is not exhausted has its mask's bit to deliver. -/
theorem Dec.ahead_eq_nil {d : Dec} : d.ahead = [] ↔ d.exh = true := by
  unfold Dec.ahead
  cases d.exh <;> simp [symbolBits_succ]

/-- GETBIT with a bit ahead: that bit, and the cursor on the bits after it (R160, R161). -/
theorem Dec.getBit_ok {d : Dec} (hc : d.CursorOk) {b : Bool} {bs : List Bool} (ha : d.ahead = b :: bs) :
    ∃ e, d.getBit = .ok b e ∧ d.Moved e ∧ e.ahead = bs := by
  obtain ⟨hp, hr, hle, hx, hi⟩ := hc
  cases hexh : d.exh with
  | true => simp [Dec.ahead, hexh] at ha
  | false =>
    have hi := hi hexh
    simp only [Dec.ahead, hexh, symbolBits_succ, List.cons_append, List.cons.injEq, Bool.false_eq_true, if_false] at ha
    obtain ⟨hb, hbs⟩ := ha
    have hbit : (!(d.val &&& d.position == 0)) = b := by rw [and_mask hp, hb]
    have hge : 2 ^ Nat.log2 d.resetValue ≠ 0 := (Nat.two_pow_pos _).ne'
    simp only [Dec.getBit, hexh, Bool.false_eq_true, if_false, hbit]
    by_cases hz : d.position >>> 1 = 0
    · have h1 : d.position = 1 := one_of_shift hp hz
      refine ⟨_, by rw [if_pos hz], ?_⟩
      rw [h1] at hbs
      simp only [show Nat.log2 1 = 0 from rfl, symbolBits_zero, List.nil_append] at hbs
      by_cases hlt : d.index < d.len
      · have hsub : d.len - d.index = (d.len - (d.index + 1)) + 1 := by omega
        rw [hsub, Memory.slice_cons, streamBits_cons] at hbs
        refine ⟨⟨?_, ?_⟩, ?_⟩
        · simp [Dec.refill, hlt]
        · refine ⟨?_, ?_, ?_, ?_, ?_⟩ <;> simp [Dec.refill, hlt, ← hr]
        · simpa [Dec.ahead, Dec.refill, hlt, hexh, Dec.symbolWidth] using hbs
      · have hsub : d.len - d.index = 0 := by omega
        rw [hsub] at hbs
        refine ⟨⟨?_, ?_⟩, ?_⟩
        · simp [Dec.refill, hlt]
        · refine ⟨?_, ?_, ?_, ?_, ?_⟩ <;> simp [Dec.refill, hlt, ← hr]
          omega
        · simpa [Dec.ahead, Dec.refill, hlt] using hbs
    · obtain ⟨h1, h2⟩ := log2_shift hp hz
      refine ⟨_, by rw [if_neg hz], ⟨by simp, ?_⟩, ?_⟩
      · refine ⟨h1, hr, ?_, by simp, by simpa [hexh] using hi⟩
        simp only
        rw [Nat.shiftRight_one]
        omega
      · rw [h2] at hbs
        simpa [Dec.ahead, hexh, Dec.symbolWidth] using hbs

/-- GETBIT with no bit ahead raises TruncatedInput before anything is changed (R160). -/
theorem Dec.getBit_ended {d : Dec} (h : d.exh = true) : d.getBit = .ended (d.raise .truncatedInput 0) := by
  simp [Dec.getBit, h]

/-- `n` GETBITs with as many bits ahead deliver them in order. -/
theorem Dec.getBits_ok {d : Dec} (hc : d.CursorOk) {as bs : List Bool} (ha : d.ahead = as ++ bs) :
    ∃ e, d.getBits as.length = .ok as e ∧ d.Moved e ∧ e.ahead = bs := by
  induction as generalizing d with
  | nil => exact ⟨d, rfl, .refl hc, ha⟩
  | cons a as ih =>
    obtain ⟨e, he, hm, hae⟩ := Dec.getBit_ok hc ha
    obtain ⟨f, hf, hn, haf⟩ := ih hm.cursor hae
    exact ⟨f, by simp [Dec.getBits, he, hf], hm.trans hn, haf⟩

/-- `n` GETBITs with fewer bits ahead raise TruncatedInput, all of them consumed (R163, R271). -/
theorem Dec.getBits_ended {d : Dec} (hc : d.CursorOk) {n : Nat} (h : d.ahead.length < n) :
    ∃ e, d.getBits n = .ended (e.raise .truncatedInput 0) ∧ d.Moved e ∧ e.exh = true := by
  induction n generalizing d with
  | zero => simp at h
  | succ n ih =>
    cases ha : d.ahead with
    | nil =>
      have hx := Dec.ahead_eq_nil.1 ha
      exact ⟨d, by simp [Dec.getBits, Dec.getBit_ended hx], .refl hc, hx⟩
    | cons b bs =>
      obtain ⟨e, he, hm, hae⟩ := Dec.getBit_ok hc ha
      have hlen : e.ahead.length < n := by rw [hae]; simp [ha] at h; omega
      obtain ⟨f, hf, hn, hx⟩ := ih hm.cursor hlen
      exact ⟨f, by simp [Dec.getBits, he, hf], hm.trans hn, hx⟩

/-- What `n` GETBITs do, in the terms of takeBits: deliver the first `n` bits ahead, or raise TruncatedInput. -/
theorem Dec.getBits_cases {d : Dec} (hc : d.CursorOk) (n : Nat) :
    (∃ as bs e, takeBits n d.ahead = .ok (as, bs) ∧ d.getBits n = .ok as e ∧ d.Moved e ∧ e.ahead = bs) ∨
    (∃ e, takeBits n d.ahead = .error .truncated ∧ d.getBits n = .ended (e.raise .truncatedInput 0) ∧ d.Moved e ∧
      e.exh = true) := by
  by_cases h : d.ahead.length < n
  · obtain ⟨e, he, hm, hx⟩ := Dec.getBits_ended hc h
    exact .inr ⟨e, by simp [takeBits, h], he, hm, hx⟩
  · have hlen : (d.ahead.take n).length = n := by simp; omega
    obtain ⟨e, he, hm, ha⟩ := Dec.getBits_ok hc (as := d.ahead.take n) (bs := d.ahead.drop n) (by simp)
    rw [hlen] at he
    exact .inl ⟨_, _, e, by simp [takeBits, h], he, hm, ha⟩

end Sys2Proof.Machine
end

