-- ==== Sys2Proof/Laws/Schedule.lean ====
section
/-! SUPPORT. Laws of TICK (R132). -/

namespace Sys2Proof.Machine

/-- TICK counts down or widens (R132). -/
theorem tickPair_cases (n e : Nat) (h : 1 ≤ e) :
    (e = 1 ∧ tickPair n e = (n + 1, 2 ^ n)) ∨ (2 ≤ e ∧ tickPair n e = (n, e - 1)) := by
  unfold tickPair
  by_cases h1 : e - 1 = 0
  · exact .inl ⟨by omega, by rw [if_pos h1]⟩
  · exact .inr ⟨by omega, by rw [if_neg h1]⟩

/-- TICK keeps a pair of the schedule (R134). -/
theorem tickPair_ok {n e : Nat} (h : ScheduleOk n e) : ScheduleOk (tickPair n e).1 (tickPair n e).2 := by
  obtain ⟨hn, h1, h2⟩ := h
  rcases tickPair_cases n e h1 with ⟨-, h⟩ | ⟨he, h⟩ <;> rw [h]
  · exact ⟨by simp only; omega, Nat.two_pow_pos _, by simp⟩
  · exact ⟨hn, by simp only; omega, by simp only; omega⟩

/-- TICK moves enlargeIn − 2^numBits down by exactly one (R135). -/
theorem tickPair_sum {n e : Nat} (h : 1 ≤ e) :
    (tickPair n e).2 + 2 ^ n + 1 = e + 2 ^ (tickPair n e).1 := by
  rcases tickPair_cases n e h with ⟨rfl, h⟩ | ⟨he, h⟩ <;> rw [h]
  · simp only [Nat.pow_succ]; omega
  · simp only; omega

end Sys2Proof.Machine
end

