-- ==== Sys2Proof/Laws/Emit.lean ====
section
/-! SUPPORT. Laws of the emissions (R188 to R192): which bits they append and what else they change. -/

namespace Sys2Proof.Machine

/-- Removing what is not there changes nothing. -/
theorem removePhrase_of_not_mem {q : Phrase} {s : List Phrase} (h : q ∉ s) : removePhrase q s = s := by
  unfold removePhrase
  refine List.filter_eq_self.2 fun a ha => ?_
  have : a ≠ q := fun h' => h (h' ▸ ha)
  simpa using this

/-- What EMIT leaves after its token has been appended to `e`: the ticks, two for a literal and one for a reference (R133),
and the pending mark of the phrase cleared (R189). -/
def Enc.emitted (q : Phrase) (pending : Bool) (e : Enc) : Enc :=
  if pending then { e.tick.tick with pend := removePhrase q e.pend } else e.tick

/-- EMIT_LITERAL is a run of PUTBITs over the literal token, and then one TICK and the mark cleared (R189). -/
theorem Enc.emitLiteral_eq (p : Params) (q : Phrase) (e : Enc) :
    e.emitLiteral p q = (e.putBits p (literalBits p e q.first)).andThen fun _ f =>
      .ok () { f.tick with pend := removePhrase q f.pend } := by
  unfold Enc.emitLiteral literalBits
  by_cases h : q.first.toNat < 256
  · simp [h, Enc.putBits_append, Enc.putLsb, Enc.putMsb, Enc.tick]
  · simp [h, Enc.putBits_append, Enc.putLsb, Enc.putMsb, Enc.tick]

/-- EMIT is a run of PUTBITs over the token, and then its ticks (R188); without a token it has no meaning (log 15). -/
theorem Enc.emit_eq (p : Params) (q : Phrase) (e : Enc) :
    e.emit p q =
      match e.tokenBits p q with
      | some bits => (e.putBits p bits).andThen fun _ f => .ok () (f.emitted q (decide (q ∈ e.pend)))
      | none => .fault .emitWithoutCode := by
  unfold Enc.emit Enc.tokenBits
  by_cases hq : q ∈ e.pend
  · simp [hq, Enc.emitLiteral_eq, Run.andThen_assoc, Enc.emitted, Enc.tick]
  · simp only [hq, if_false, decide_false]
    cases find e.dict q <;> simp [Enc.putLsb, Enc.emitted, Run.andThen]

/-- EMIT of a phrase that has a token, with unbounded capacity. -/
theorem Enc.emit_ok {p : Params} (hp : p.unbounded) {q : Phrase} {bits : List Bool} {e : Enc}
    (ht : e.tokenBits p q = some bits) (hc : e.CursorOk) (hm : Memory.wf e.outMem) :
    ∃ f, e.Appended bits f ∧ e.emit p q = .ok () (f.emitted q (decide (q ∈ e.pend))) := by
  obtain ⟨f, hf, ha⟩ := Enc.putBits_ok hp bits e hc hm
  exact ⟨f, ha, by simp [Enc.emit_eq, ht, hf]⟩

/-- A phrase has a token exactly when it is pending or has a code. -/
theorem Enc.tokenBits_isSome (p : Params) (e : Enc) (q : Phrase) :
    (e.tokenBits p q).isSome = (decide (q ∈ e.pend) || inDomain e.dict q) := by
  unfold Enc.tokenBits inDomain
  by_cases hq : q ∈ e.pend
  · simp [hq]
  · simp [hq]

/-- The padding bits fill the symbol (R156). -/
theorem Enc.flush_ok {p : Params} (hp : p.unbounded) {e : Enc} (hc : e.CursorOk) (hm : Memory.wf e.outMem) :
    ∃ f, e.flush p = .ok () f ∧ e.Appended (List.replicate (e.bpc - e.pos) false) f ∧ f.pos = 0 ∧
      f.outLen = e.outLen + 1 := by
  obtain ⟨f, hf, ha⟩ := Enc.putBits_ok hp (List.replicate (e.bpc - e.pos) false) e hc hm
  have hlen := congrArg List.length ha.bits
  rw [List.length_append, List.length_replicate, Enc.length_written, Enc.length_written] at hlen
  have hb : f.bpc = e.bpc := by rw [ha.frame]
  have hpos := ha.cursor.1
  have hpos' := hc.1
  rw [hb] at hlen hpos
  have h1 : f.outLen * e.bpc + f.pos = (e.outLen + 1) * e.bpc := by rw [Nat.add_mul]; omega
  have h2 : f.outLen = e.outLen + 1 := by
    have := congrArg (· / e.bpc) h1
    simp only [Nat.mul_div_cancel _ (by omega : 0 < e.bpc)] at this
    rw [Nat.mul_comm, Nat.mul_add_div (by omega), Nat.div_eq_of_lt hpos] at this
    omega
  refine ⟨f, hf, ha, ?_, h2⟩
  rw [h2] at h1
  omega

end Sys2Proof.Machine
end

