-- ==== Sys2Proof/Laws/Encoder.lean ====
section
/-! SUPPORT. Laws of the encoder's units of execution (R184, R191) with unbounded capacity. -/

namespace Sys2Proof.Machine

/-! ### Phrases -/

/-- A phrase is one character, or a phrase and one more. -/
theorem phrase_cases (q : Phrase) : (∃ c, q = single c) ∨ ∃ r c, q = append r c := by
  obtain ⟨f, rest⟩ := q
  rcases List.eq_nil_or_concat rest with rfl | ⟨init, c, rfl⟩
  · exact .inl ⟨f, rfl⟩
  · exact .inr ⟨⟨f, init⟩, c, by simp [append]⟩

@[simp] theorem append_ne_single (q : Phrase) (c d : Char16) : append q c ≠ single d := by
  intro h
  have := congrArg (fun q => q.rest.length) h
  simp [append, single] at this

@[simp] theorem append_first (q : Phrase) (c : Char16) : (append q c).first = q.first := rfl
@[simp] theorem single_first (c : Char16) : (single c).first = c := rfl

theorem single_inj {c d : Char16} (h : single c = single d) : c = d := congrArg Phrase.first h

theorem append_inj {q r : Phrase} {c d : Char16} (h : append q c = append r d) : q = r ∧ c = d := by
  obtain ⟨f, rest⟩ := q
  obtain ⟨g, rest'⟩ := r
  simp only [append, Phrase.mk.injEq] at h
  have := List.append_inj' h.2 rfl
  exact ⟨by rw [h.1, this.1], by simpa using this.2⟩

@[simp] theorem extend_nil (c : Char16) : extend [] c = single c := rfl
@[simp] theorem extend_chars (q : Phrase) (c : Char16) : extend (phraseChars q) c = append q c := rfl
@[simp] theorem phraseChars_single (c : Char16) : phraseChars (single c) = [c] := rfl
@[simp] theorem phraseChars_append (q : Phrase) (c : Char16) : phraseChars (append q c) = phraseChars q ++ [c] := by
  simp [phraseChars, append]
@[simp] theorem phraseChars_ne_nil (q : Phrase) : phraseChars q ≠ [] := by simp [phraseChars]

theorem phraseChars_inj {q r : Phrase} (h : phraseChars q = phraseChars r) : q = r := by
  obtain ⟨f, rest⟩ := q
  obtain ⟨g, rest'⟩ := r
  simpa [phraseChars] using h

/-- The first character of a registered phrase is registered itself. -/
theorem Enc.ScanOk.first {p : Params} {e : Enc} (h : e.ScanOk p) {q : Phrase} (hq : inDomain e.dict q = true) :
    inDomain e.dict (single q.first) = true := by
  obtain ⟨f, rest⟩ := q
  induction hn : rest.length generalizing rest with
  | zero => rw [List.length_eq_zero_iff] at hn; subst hn; exact hq
  | succ n ih =>
    rcases List.eq_nil_or_concat rest with rfl | ⟨init, c, rfl⟩
    · simp at hn
    · obtain ⟨k, hk⟩ := Option.isSome_iff_exists.1 hq
      obtain ⟨j, -, hj⟩ := h.prefixes ⟨f, init⟩ c k (by simpa [append] using hk)
      exact ih init (by simp [inDomain, hj]) (by simpa using hn)

/-- A registered phrase has a code below dictSize, at least 3 (R44 item 2). -/
theorem Enc.ScanOk.code_lt {p : Params} {e : Enc} (h : e.ScanOk p) {q : Phrase} {k : Nat} (hk : find e.dict q = some k) :
    3 ≤ k ∧ k < e.dictSize := by
  have hm : k ∈ e.dict.map Prod.snd := List.mem_map.2 ⟨_, find_mem hk, rfl⟩
  rw [h.codes.2] at hm
  have := List.mem_range'_1.1 hm
  have := h.codes.1
  omega

/-! ### The character step -/

/-- Step 2a of R184: the character is read, and registered if it is new (R185). -/
def Enc.seen (e : Enc) (c : Char16) : Enc :=
  if inDomain e.dict (single c) then { e with ii := e.ii + 1 }
  else { e with ii := e.ii + 1, dict := e.dict ++ [(single c, e.dictSize)], dictSize := e.dictSize + 1,
                pend := insertPhrase (single c) e.pend }

/-- The character step after step 2a: extend the match (R186) or emit, register and restart (R187). -/
theorem Enc.charStep_eq {p : Params} (hp : p.unbounded) (e : Enc) :
    e.charStep p =
      (let c := Memory.read e.inMem e.ii
       let f := e.seen c
       if inDomain f.dict (extend f.w c) then .ok () { f with w := phraseChars (extend f.w c) }
       else (f.emitMatch p).andThen fun _ g =>
         .ok () { g with dict := assign g.dict (extend f.w c) g.dictSize, dictSize := g.dictSize + 1, w := [c] }) := by
  have hreg : ∀ (q : Phrase) (g : Enc), g.register p q =
      .ok () { g with dict := assign g.dict q g.dictSize, dictSize := g.dictSize + 1 } := fun q g => by
    simp [Enc.register, dictFull_unbounded hp]
  simp only [Enc.charStep, Enc.seen]
  by_cases hs : inDomain e.dict (single (Memory.read e.inMem e.ii)) = true
  · simp only [if_pos hs, Run.andThen_ok, hreg]
  · have hnone : find e.dict (single (Memory.read e.inMem e.ii)) = none := by
      simpa [inDomain] using hs
    simp only [if_neg hs]
    simp [Enc.registerChar, dictFull_unbounded hp, hreg, assign_new _ _ _ hnone]

/-- What a character step leaves (R184): the next character is taken; either the match is extended and nothing is sent, or
the token of the match is sent, one phrase is registered and the match restarts. -/
structure Enc.Stepped (p : Params) (e f : Enc) : Prop where
  ok : f.ScanOk p
  canonical : Memory.wf f.outMem
  frame : f = { e with ii := e.ii + 1, w := f.w, dictSize := f.dictSize, numBits := f.numBits, enlargeIn := f.enlargeIn,
                       acc := f.acc, pos := f.pos, dict := f.dict, pend := f.pend, outLen := f.outLen,
                       outMem := f.outMem }

theorem range'_concat_codes {n : Nat} (h : 3 ≤ n) : List.range' 3 (n + 1 - 3) = List.range' 3 (n - 3) ++ [n] := by
  have : n + 1 - 3 = (n - 3) + 1 := by omega
  rw [this, List.range'_concat]
  congr 2
  omega

/-- With unbounded capacity a character step between valid states completes (R184, R186, R187, R195), and it is one of three:
the first character; an extension of the match; a miss, which appends the token of the match. -/
theorem Enc.charStep_ok {p : Params} (hp : p.unbounded) {e : Enc} (h : e.ScanOk p) (hm : Memory.wf e.outMem)
    (hi : e.ii < e.len) :
    ∃ f, e.charStep p = .ok () f ∧ e.Stepped p f ∧
      ((e.w = [] ∧ f.w = [Memory.read e.inMem e.ii] ∧ f.written = e.written ∧
          f = { e with ii := e.ii + 1, w := f.w, dict := [(single (Memory.read e.inMem e.ii), 3)], dictSize := 4,
                       pend := [single (Memory.read e.inMem e.ii)] }) ∨
       (∃ q, e.w = phraseChars q ∧ inDomain e.dict (append q (Memory.read e.inMem e.ii)) = true ∧ e.pend = [] ∧
          f = { e with ii := e.ii + 1, w := phraseChars (append q (Memory.read e.inMem e.ii)) }) ∨
       (∃ q bits, e.w = phraseChars q ∧ inDomain e.dict q = true ∧ e.tokenBits p q = some bits ∧
          e.Appended bits { e with acc := f.acc, pos := f.pos, outMem := f.outMem, outLen := f.outLen } ∧ f.w = [Memory.read e.inMem e.ii] ∧
          (let c := Memory.read e.inMem e.ii
           let new := !inDomain e.dict (single c)
           f.dict = e.dict ++ (if new then [(single c, e.dictSize)] else []) ++
             [(append q c, if new then e.dictSize + 1 else e.dictSize)] ∧
           f.dictSize = (if new then e.dictSize + 2 else e.dictSize + 1) ∧
           f.pend = (if new then [single c] else []) ∧
           (f.numBits, f.enlargeIn) =
             if q ∈ e.pend then tickPair (tickPair e.numBits e.enlargeIn).1 (tickPair e.numBits e.enlargeIn).2
             else tickPair e.numBits e.enlargeIn))) := by
  obtain ⟨c, hc⟩ : ∃ c, Memory.read e.inMem e.ii = c := ⟨_, rfl⟩
  rw [Enc.charStep_eq hp]
  simp only [hc]
  rcases h.current with ⟨hw, hd, hpe⟩ | ⟨q, hw, hq⟩
  · -- the first character
    have hsize : e.dictSize = 3 := by
      have := congrArg List.length h.codes.2
      have := h.codes.1
      simp [hd] at *
      omega
    have hseen : e.seen c = { e with ii := e.ii + 1, dict := [(single c, 3)], dictSize := 4, pend := [single c] } := by
      simp [Enc.seen, hd, inDomain, find, hpe, insertPhrase, hsize]
    have hfind : ∀ r, inDomain [(single c, 3)] r = decide (single c = r) := fun r => by
      by_cases hr : single c = r <;> simp [inDomain, find, hr]
    refine ⟨{ e with ii := e.ii + 1, w := [c], dict := [(single c, 3)], dictSize := 4, pend := [single c] }, ?_,
      ⟨?_, hm, rfl⟩, .inl ⟨hw, rfl, rfl, rfl⟩⟩
    · simp [hseen, hw, hfind]
    · exact
        { width := h.width, cursor := h.cursor, input := by simp only; omega, schedule := h.schedule
          codes := ⟨by simp, by simp⟩
          phrases := by simp
          prefixes := fun r d k hk => by simp [find, Ne.symm (append_ne_single r d c)] at hk
          characters := fun r d hr => by simp [hfind, Ne.symm (append_ne_single r d c)] at hr
          current := .inr ⟨single c, rfl, by simp [hfind]⟩
          pending := .inr ⟨c, rfl, rfl, fun r hr _ => by simpa [hfind, eq_comm] using hr⟩
          ticks := by
            have := h.ticks
            simp only [hpe, hsize, List.length_nil] at this
            simp only [List.length_singleton]
            omega
          symbols := h.symbols }
  · by_cases hhit : inDomain e.dict (append q c) = true
    · -- the match is extended
      have hseen : e.seen c = { e with ii := e.ii + 1 } := by simp [Enc.seen, h.characters q c hhit]
      have hpe : e.pend = [] := by
        rcases h.pending with hpe | ⟨a, -, hwa, hall⟩
        · exact hpe
        · rw [hw] at hwa
          have hqa : q = single a := phraseChars_inj hwa
          have := hall (append q c) hhit (by rw [hqa]; rfl)
          exact absurd this (append_ne_single _ _ _)
      refine ⟨{ e with ii := e.ii + 1, w := phraseChars (append q c) }, ?_, ⟨?_, hm, rfl⟩,
        .inr (.inl ⟨q, hw, hhit, hpe, rfl⟩)⟩
      · simp [hseen, hw, hhit]
      · exact
          { width := h.width, cursor := h.cursor, input := by simp only; omega, schedule := h.schedule
            codes := h.codes, phrases := h.phrases, prefixes := h.prefixes, characters := h.characters
            current := .inr ⟨append q c, rfl, hhit⟩
            pending := .inl hpe
            ticks := h.ticks, symbols := h.symbols }
    · -- the match is sent
      have hhit : inDomain e.dict (append q c) = false := by simpa using hhit
      have hmiss : find e.dict (append q c) = none := by simpa [inDomain] using hhit
      -- the state after step 2a
      obtain ⟨f, hf⟩ : ∃ f, e.seen c = f := ⟨_, rfl⟩
      obtain ⟨new, hnew⟩ : ∃ new, (!inDomain e.dict (single c)) = new := ⟨_, rfl⟩
      have hsingle : find e.dict (single c) = none ↔ new = true := by
        rw [← hnew]; cases hs : find e.dict (single c) <;> simp [inDomain, hs]
      have hfeq : f = { e with
          ii := e.ii + 1
          dict := e.dict ++ (if new then [(single c, e.dictSize)] else [])
          dictSize := if new then e.dictSize + 1 else e.dictSize
          pend := if new then insertPhrase (single c) e.pend else e.pend } := by
        rw [← hf, Enc.seen, ← hnew]
        cases inDomain e.dict (single c) <;> simp
      have hq' : find f.dict q = find e.dict q ∧ ¬ (new = true ∧ q = single c) := by
        have hne : ¬ (new = true ∧ q = single c) := fun ⟨h1, h2⟩ => by
          have := hsingle.2 h1
          rw [h2, inDomain, this] at hq
          simp at hq
        refine ⟨?_, hne⟩
        rw [hfeq]
        cases hn : new with
        | false => simp
        | true =>
          have hs := hsingle.2 hn
          simp only [if_true, ← assign_new _ _ e.dictSize hs, find_assign]
          rw [if_neg fun h' => hne ⟨hn, h'⟩]
      have hfmiss : find f.dict (append q c) = none := by
        rw [hfeq]
        cases hn : new with
        | false => simpa using hmiss
        | true =>
          have hs := hsingle.2 hn
          simp only [if_true, ← assign_new _ _ e.dictSize hs, find_assign]
          rw [if_neg (append_ne_single _ _ _), hmiss]
      have hfw : f.w = phraseChars q := by rw [hfeq]; exact hw
      have hmemp : q ∈ f.pend ↔ q ∈ e.pend := by
        rw [hfeq]
        cases hn : new with
        | false => simp
        | true =>
          simp only [if_true, insertPhrase]
          split
          · rfl
          · simp only [List.mem_append, List.mem_singleton]
            exact ⟨fun h' => h'.resolve_right fun h'' => hq'.2 ⟨hn, h''⟩, .inl⟩
      -- the token
      obtain ⟨bits, hbits⟩ : ∃ bits, e.tokenBits p q = some bits :=
        Option.isSome_iff_exists.1 (by rw [Enc.tokenBits_isSome, hq]; simp)
      have hbits' : f.tokenBits p q = some bits := by
        rw [← hbits]
        have hnb : f.numBits = e.numBits := by rw [hfeq]
        simp only [Enc.tokenBits, literalBits, hmemp, hq'.1, hnb]
      obtain ⟨g, hg, hemit⟩ := Enc.emit_ok hp hbits' (by rw [hfeq]; exact h.cursor) (by rw [hfeq]; exact hm)
      have hmatch : f.emitMatch p = f.emit p q := by
        unfold Enc.emitMatch
        rw [hfw]
        rfl
      have hwritten : f.written = e.written := by rw [hfeq]; rfl
      -- the pending set before and after
      have hpend : g.pend = f.pend := by rw [hg.frame]
      have hpend' : removePhrase q f.pend = if new then [single c] else [] := by
        rcases h.pending with hpe | ⟨a, hpe, hwa, -⟩
        · rw [removePhrase_of_not_mem (by rw [hmemp, hpe]; simp), hfeq, hpe]
          cases new <;> simp [insertPhrase]
        · have hqa : q = single a := phraseChars_inj (hw.symm.trans hwa)
          rw [hfeq, hpe, hqa]
          cases hn : new with
          | false => simp [removePhrase]
          | true =>
            have hne : single c ≠ single a := fun h' => hq'.2 ⟨hn, hqa.trans h'.symm⟩
            simp [insertPhrase, hne, removePhrase]
      have hplen : f.pend.length + (if q ∈ e.pend then 0 else 1) = (if new then 1 else 0) + 1 := by
        rcases h.pending with hpe | ⟨a, hpe, hwa, -⟩
        · rw [hfeq, hpe]
          cases new <;> simp [insertPhrase]
        · have hqa : q = single a := phraseChars_inj (hw.symm.trans hwa)
          rw [hfeq, hpe, hqa]
          cases hn : new with
          | false => simp
          | true =>
            have hne : single c ≠ single a := fun h' => hq'.2 ⟨hn, hqa.trans h'.symm⟩
            simp [insertPhrase, hne]
      obtain ⟨r, hr⟩ : ∃ r, Enc.emitted q (decide (q ∈ f.pend)) g = r := ⟨_, rfl⟩
      have hreq : r = { g with
          numBits := r.numBits, enlargeIn := r.enlargeIn, pend := if new then [single c] else [] } := by
        rw [← hr, Enc.emitted]
        by_cases hqp : q ∈ f.pend
        · simp [hqp, Enc.tick, hpend, hpend']
        · have h0 : g.pend = if new then [single c] else [] := by
            rw [hpend, ← removePhrase_of_not_mem hqp, hpend']
          simp [hqp, Enc.tick, ← h0]
      have hgn : g.numBits = e.numBits ∧ g.enlargeIn = e.enlargeIn := by rw [hg.frame, hfeq]; exact ⟨rfl, rfl⟩
      have hticks : (r.numBits, r.enlargeIn) =
          if q ∈ e.pend then tickPair (tickPair e.numBits e.enlargeIn).1 (tickPair e.numBits e.enlargeIn).2
          else tickPair e.numBits e.enlargeIn := by
        rw [← hr, Enc.emitted]
        by_cases hqp : q ∈ e.pend
        · simp [hmemp.2 hqp, hqp, Enc.tick, hgn.1, hgn.2]
        · simp [mt hmemp.1 hqp, hqp, Enc.tick, hgn.1, hgn.2]
      have hsched : ScheduleOk r.numBits r.enlargeIn := by
        by_cases hqp : q ∈ e.pend
        · rw [if_pos hqp] at hticks
          have := tickPair_ok (tickPair_ok h.schedule)
          rwa [← hticks] at this
        · rw [if_neg hqp] at hticks
          have := tickPair_ok h.schedule
          rwa [← hticks] at this
      have hsum : r.enlargeIn + f.dictSize + 1 = 2 ^ r.numBits + 1 + (if new then 1 else 0) := by
        have hfd : f.dictSize = e.dictSize + (if new then 1 else 0) := by rw [hfeq]; cases new <;> simp
        have hep : f.pend.length = e.pend.length + (if new then 1 else 0) := by
          rcases h.pending with hpe | ⟨a, hpe, hwa, -⟩
          · rw [hfeq, hpe]
            cases new <;> simp [insertPhrase]
          · have hqa : q = single a := phraseChars_inj (hw.symm.trans hwa)
            rw [hfeq, hpe]
            cases hn : new with
            | false => simp
            | true =>
              have hne : single c ≠ single a := fun h' => hq'.2 ⟨hn, hqa.trans h'.symm⟩
              simp [insertPhrase, hne]
        have ht := h.ticks
        have h1 := tickPair_sum (n := e.numBits) h.schedule.2.1
        by_cases hqp : q ∈ e.pend
        · rw [if_pos hqp] at hticks hplen
          have h2 := tickPair_sum (n := (tickPair e.numBits e.enlargeIn).1) (tickPair_ok h.schedule).2.1
          rw [← hticks] at h2
          simp only at h2
          omega
        · rw [if_neg hqp] at hticks hplen
          rw [← hticks] at h1
          simp only at h1
          omega
      have hrdict : r.dict = f.dict ∧ r.dictSize = f.dictSize := by rw [hreq, hg.frame]; exact ⟨rfl, rfl⟩
      have hrmiss : find r.dict (append q c) = none := by rw [hrdict.1, hfmiss]
      have hfdict : f.dict = e.dict ++ (if new then [(single c, e.dictSize)] else []) := by rw [hfeq]
      have hfsize : f.dictSize = if new then e.dictSize + 1 else e.dictSize := by rw [hfeq]
      have hge3 := h.codes.1
      -- domains
      have hfdom : ∀ x, inDomain f.dict x = (inDomain e.dict x || (new && decide (x = single c))) := fun x => by
        rw [hfdict]
        cases hn : new with
        | false => simp
        | true =>
          simp only [if_true, ← assign_new _ _ e.dictSize (hsingle.2 hn), inDomain_assign]
          cases decide (x = single c) <;> simp
      have hfind : ∀ x y, find e.dict x = some y → find f.dict x = some y := fun x y hxy => by
        rw [hfdict]
        cases hn : new with
        | false => simpa using hxy
        | true =>
          simp only [if_true, ← assign_new _ _ e.dictSize (hsingle.2 hn), find_assign]
          rw [if_neg, hxy]
          rintro rfl
          rw [hsingle.2 hn] at hxy
          simp at hxy
      have hcin : inDomain f.dict (single c) = true := by
        rw [hfdom, ← hnew]
        cases inDomain e.dict (single c) <;> simp
      have hfirstq : inDomain e.dict (single q.first) = true := h.first hq
      refine ⟨{ r with dict := f.dict ++ [(append q c, f.dictSize)], dictSize := f.dictSize + 1, w := [c] }, ?_, ⟨?_, ?_, ?_⟩,
        .inr (.inr ⟨q, bits, hw, hq, hbits, ?_, rfl, ?_, ?_, ?_, hticks⟩)⟩
      · simp only [hf, hfw, extend_chars, inDomain, hfmiss, Option.isSome_none, Bool.false_eq_true, if_false, hmatch,
          hemit, Run.andThen_ok, hr, hrdict.1, hrdict.2, assign_new _ _ _ hfmiss]
      · have hgc := hg.cursor
        exact
          { width := by rw [hreq, hg.frame, hfeq]; exact h.width
            cursor := by rw [hreq]; exact hgc
            input := by rw [hreq, hg.frame, hfeq]; simp only; omega
            schedule := hsched
            codes := by
              refine ⟨by simp only; rw [hfsize]; split <;> omega, ?_⟩
              simp only [List.map_append, List.map_cons, List.map_nil, hfdict, h.codes.2]
              rw [hfsize]
              cases new with
              | false => simpa using (range'_concat_codes hge3).symm
              | true =>
                simp only [if_true, List.map_cons, List.map_nil]
                rw [range'_concat_codes (by omega : 3 ≤ e.dictSize + 1), range'_concat_codes hge3]
            phrases := by
              simp only [List.map_append, List.map_cons, List.map_nil]
              have hfn : (f.dict.map Prod.fst).Nodup := by
                rw [hfdict]
                cases hn : new with
                | false => simpa using h.phrases
                | true =>
                  simp only [if_true, List.map_append, List.map_cons, List.map_nil]
                  refine List.Nodup.append h.phrases (by simp) ?_
                  have := (find_eq_none _ _).1 (hsingle.2 hn)
                  simpa [List.disjoint_singleton] using this
              refine List.Nodup.append hfn (by simp) ?_
              have := (find_eq_none _ _).1 hfmiss
              simpa [List.disjoint_singleton] using this
            prefixes := fun x d k hk => by
              simp only [← assign_new _ _ f.dictSize hfmiss, find_assign] at hk ⊢
              by_cases hx : append x d = append q c
              · rw [if_pos hx] at hk
                obtain ⟨rfl, rfl⟩ := append_inj hx
                cases hk
                obtain ⟨j, hj⟩ := Option.isSome_iff_exists.1 hq
                refine ⟨j, ?_, ?_⟩
                · have := h.code_lt hj
                  rw [hfsize]
                  split <;> omega
                · rw [if_neg, hfind _ _ hj]
                  intro h'
                  have := congrArg (fun y => y.rest.length) h'
                  simp [append] at this
              · rw [if_neg hx] at hk
                have hk' : find e.dict (append x d) = some k := by
                  rw [hfdict] at hk
                  cases hn : new with
                  | false => simpa [hn] using hk
                  | true =>
                    simp only [hn, if_true, ← assign_new _ _ e.dictSize (hsingle.2 hn), find_assign] at hk
                    rwa [if_neg (append_ne_single _ _ _)] at hk
                obtain ⟨j, hj, hxj⟩ := h.prefixes x d k hk'
                refine ⟨j, hj, ?_⟩
                rw [if_neg, hfind _ _ hxj]
                rintro rfl
                rw [hmiss] at hxj
                simp at hxj
            characters := fun x d hx => by
              simp only [← assign_new _ _ f.dictSize hfmiss, inDomain_assign, Bool.or_eq_true, decide_eq_true_eq] at hx ⊢
              rcases hx with hx | hx
              · obtain ⟨-, rfl⟩ := append_inj hx
                exact .inr hcin
              · rw [hfdom] at hx
                simp only [append_ne_single, decide_false, Bool.and_false, Bool.or_false] at hx
                exact .inr (by rw [hfdom, h.characters x d hx]; rfl)
            current := .inr ⟨single c, rfl, by
              simp only [← assign_new _ _ f.dictSize hfmiss, inDomain_assign, hcin, Bool.or_true]⟩
            pending := by
              rw [hreq]
              cases hn : new with
              | false => exact .inl rfl
              | true =>
                refine .inr ⟨c, rfl, rfl, fun x hx hxc => ?_⟩
                simp only [← assign_new _ _ f.dictSize hfmiss, inDomain_assign, Bool.or_eq_true, decide_eq_true_eq] at hx
                have hnone := hsingle.2 hn
                rcases hx with hx | hx
                · rw [hx, append_first] at hxc
                  rw [hxc, inDomain, hnone] at hfirstq
                  simp at hfirstq
                · rw [hfdom] at hx
                  simp only [hn, Bool.true_and, Bool.or_eq_true, decide_eq_true_eq] at hx
                  rcases hx with hx | hx
                  · have := h.first hx
                    rw [hxc, inDomain, hnone] at this
                    simp at this
                  · exact hx
            ticks := by
              have hlen : r.pend.length = if new then 1 else 0 := by rw [hreq]; cases new <;> rfl
              simp only [hlen]
              omega
            symbols := fun i hi => by
              have hsym : ∀ i, i < g.outLen → Memory.read g.outMem i < 2 ^ g.bpc := by
                intro i hi
                have hgb : g.bpc = e.bpc := by rw [hg.frame, hfeq]
                have hfo : f.outLen = e.outLen ∧ f.outMem = e.outMem ∧ f.bpc = e.bpc := by
                  rw [hfeq]; exact ⟨rfl, rfl, rfl⟩
                rw [hgb]
                by_cases hlt : i < f.outLen
                · rw [hg.elsewhere i (.inl hlt), hfo.2.1]
                  exact h.symbols i (by omega)
                · rw [← hfo.2.2]
                  exact hg.bounded i (by omega) hi
              rw [hreq] at hi ⊢
              exact hsym i hi }
      · rw [hreq]; exact hg.canonical
      · rw [hreq, hg.frame, hfeq]
      · have hro : r.acc = g.acc ∧ r.pos = g.pos ∧ r.outMem = g.outMem ∧ r.outLen = g.outLen := by
          rw [hreq]; exact ⟨rfl, rfl, rfl, rfl⟩
        have hfo : f.bpc = e.bpc ∧ f.outLen = e.outLen ∧ f.outMem = e.outMem := by rw [hfeq]; exact ⟨rfl, rfl, rfl⟩
        have hgb : g.bpc = e.bpc := by rw [hg.frame, hfo.1]
        simp only [hro.1, hro.2.1, hro.2.2.1, hro.2.2.2]
        constructor
        · rfl
        · have := hg.cursor
          rwa [Enc.CursorOk, hgb] at this
        · exact hg.canonical
        · have := hg.bits
          rw [hwritten, Enc.written, hgb] at this
          exact this
        · rw [← hfo.2.1]; exact hg.grows
        · rw [← hfo.2.1, ← hfo.2.2]; exact hg.elsewhere
        · rw [← hfo.2.1, ← hfo.1]; exact hg.bounded
      · simp only [hnew, hfdict, hfsize]
      · simp only [hnew, hfsize]
        cases new <;> simp
      · simp only [hnew]
        rw [hreq]

end Sys2Proof.Machine
end

