-- ==== Sys2Proof/Laws/Capacity.lean ====
section
/-! SUPPORT. What finite capacities change (R66, R137, R274): an operation does what it does with unbounded ones, or it raises
CapacityExceeded. -/

namespace Sys2Proof.Machine

/-- The parameters with every capacity unbounded. -/
def ideal (p : Params) : Params := { p with dictCap := none, outCap := none, cntW := none, lenW := none }

theorem ideal_unbounded (p : Params) : (ideal p).unbounded := ⟨rfl, rfl, rfl, rfl⟩
@[simp] theorem outFull_ideal (p : Params) (n : Nat) : outFull (ideal p) n = false := outFull_unbounded (ideal_unbounded p) n
@[simp] theorem dictFull_ideal (p : Params) (n : Nat) : dictFull (ideal p) n = false :=
  dictFull_unbounded (ideal_unbounded p) n

/-! ### The encoder -/

/-- `r` is `r'`, or it ended by CapacityExceeded. -/
def Enc.Capped (r r' : Run Enc Unit) : Prop := r = r' ∨ ∃ g : Enc, r = .ended (g.raise .capacityExceeded g.ii)

theorem Enc.Capped.refl (r : Run Enc Unit) : Enc.Capped r r := .inl rfl

theorem Enc.Capped.andThen {r r' : Run Enc Unit} {k k' : Unit → Enc → Run Enc Unit} (h : Enc.Capped r r')
    (hk : ∀ a e, Enc.Capped (k a e) (k' a e)) : Enc.Capped (r.andThen k) (r'.andThen k') := by
  rcases h with rfl | ⟨g, rfl⟩
  · cases r with
    | ok a e => exact hk a e
    | ended e => exact .inl rfl
    | fault f => exact .inl rfl
  · exact .inr ⟨g, rfl⟩

theorem Enc.capped_outAppend (p : Params) (v : Symbol) (e : Enc) :
    Enc.Capped (e.outAppend p v) (e.outAppend (ideal p) v) := by
  unfold Enc.outAppend
  cases outFull p e.outLen with
  | true => exact .inr ⟨e, by simp⟩
  | false => exact .inl (by simp)

theorem Enc.capped_putBit (p : Params) (b : Bool) (e : Enc) : Enc.Capped (e.putBit p b) (e.putBit (ideal p) b) := by
  unfold Enc.putBit
  dsimp only
  split
  · exact (Enc.capped_outAppend _ _ _).andThen fun _ _ => .refl _
  · exact .refl _

theorem Enc.capped_putBits (p : Params) (bs : List Bool) (e : Enc) :
    Enc.Capped (e.putBits p bs) (e.putBits (ideal p) bs) := by
  induction bs generalizing e with
  | nil => exact .refl _
  | cons b bs ih => exact (Enc.capped_putBit p b e).andThen fun _ e => ih e

@[simp] theorem literalBits_ideal (p : Params) (e : Enc) (c : Char16) : literalBits (ideal p) e c = literalBits p e c := rfl
@[simp] theorem Enc.tokenBits_ideal (p : Params) (e : Enc) (q : Phrase) :
    e.tokenBits (ideal p) q = e.tokenBits p q := rfl

theorem Enc.capped_emit (p : Params) (q : Phrase) (e : Enc) : Enc.Capped (e.emit p q) (e.emit (ideal p) q) := by
  rw [Enc.emit_eq, Enc.emit_eq, Enc.tokenBits_ideal]
  cases e.tokenBits p q with
  | none => exact .refl _
  | some bits => exact (Enc.capped_putBits p bits e).andThen fun _ _ => .refl _

theorem Enc.capped_emitMatch (p : Params) (e : Enc) : Enc.Capped (e.emitMatch p) (e.emitMatch (ideal p)) := by
  unfold Enc.emitMatch
  split
  · exact .refl _
  · exact Enc.capped_emit _ _ _

theorem Enc.capped_register (p : Params) (q : Phrase) (e : Enc) :
    Enc.Capped (e.register p q) (e.register (ideal p) q) := by
  unfold Enc.register
  cases dictFull p e.dictSize with
  | true => exact .inr ⟨e, by simp⟩
  | false => exact .inl (by simp)

theorem Enc.capped_registerChar (p : Params) (c : Char16) (e : Enc) :
    Enc.Capped (e.registerChar p c) (e.registerChar (ideal p) c) := by
  unfold Enc.registerChar
  cases dictFull p e.dictSize with
  | true => exact .inr ⟨e, by simp⟩
  | false => exact .inl (by simp)

/-- ENC.CHAR with finite capacities (R184, R274). -/
theorem Enc.capped_charStep (p : Params) (e : Enc) : Enc.Capped (e.charStep p) (e.charStep (ideal p)) := by
  unfold Enc.charStep
  dsimp only
  refine Enc.Capped.andThen ?_ fun _ f => ?_
  · split
    · exact .refl _
    · exact Enc.capped_registerChar _ _ _
  · split
    · exact .refl _
    · exact (Enc.capped_emitMatch _ _).andThen fun _ g => (Enc.capped_register _ _ _).andThen fun _ _ => .refl _

/-- ENC.FINISH with finite capacities (R191, R274). -/
theorem Enc.capped_finishStep (p : Params) (e : Enc) : Enc.Capped (e.finishStep p) (e.finishStep (ideal p)) := by
  unfold Enc.finishStep Enc.putLsb Enc.flush
  exact (Enc.capped_emitMatch _ _).andThen fun _ _ => (Enc.capped_putBits _ _ _).andThen fun _ _ =>
    (Enc.capped_putBits _ _ _).andThen fun _ _ => .refl _

/-! ### The decoder -/

/-- `r` is `r'`, or it ended by CapacityExceeded. -/
def Dec.Capped (r r' : Run Dec Unit) : Prop := r = r' ∨ ∃ (g : Dec) (info : Nat), r = .ended (g.raise .capacityExceeded info)

theorem Dec.Capped.refl (r : Run Dec Unit) : Dec.Capped r r := .inl rfl

theorem Dec.Capped.andThen {r r' : Run Dec Unit} {k k' : Unit → Dec → Run Dec Unit} (h : Dec.Capped r r')
    (hk : ∀ a d, Dec.Capped (k a d) (k' a d)) : Dec.Capped (r.andThen k) (r'.andThen k') := by
  rcases h with rfl | ⟨g, info, rfl⟩
  · cases r with
    | ok a e => exact hk a e
    | ended e => exact .inl rfl
    | fault f => exact .inl rfl
  · exact .inr ⟨g, info, rfl⟩

theorem Dec.capped_outAppend (p : Params) (c : Char16) (d : Dec) :
    Dec.Capped (d.outAppend p c) (d.outAppend (ideal p) c) := by
  unfold Dec.outAppend
  cases outFull p d.outLen with
  | true => exact .inr ⟨d, _, by simp; rfl⟩
  | false => exact .inl (by simp)

theorem Dec.capped_outAppendAll (p : Params) (cs : List Char16) (d : Dec) :
    Dec.Capped (Dec.outAppendAll p cs d) (Dec.outAppendAll (ideal p) cs d) := by
  induction cs generalizing d with
  | nil => exact .refl _
  | cons c cs ih => exact (Dec.capped_outAppend p c d).andThen fun _ e => ih e

theorem Dec.capped_registerNext (p : Params) (q : Phrase) (d : Dec) :
    Dec.Capped (d.registerNext p q) (d.registerNext (ideal p) q) := by
  unfold Dec.registerNext
  cases dictFull p d.dictSize with
  | true => exact .inr ⟨d, _, by simp; rfl⟩
  | false => exact .inl (by simp)

/-- A token with finite capacities, from the resolution of its code on (R236 to R240, R274). -/
theorem Dec.capped_tail (p : Params) (k : Nat) (d : Dec) : Dec.Capped (d.tail p k) (d.tail (ideal p) k) := by
  unfold Dec.tail
  cases d.resolve k with
  | none => exact .refl _
  | some q =>
    exact (Dec.capped_outAppendAll _ _ _).andThen fun _ _ => (Dec.capped_registerNext _ _ _).andThen fun _ _ => .refl _

/-- A literal token with finite capacities (R234, R274). -/
theorem Dec.capped_literal (p : Params) (c : Char16) (d : Dec) : Dec.Capped (d.literal p c) (d.literal (ideal p) c) :=
  (Dec.capped_registerNext _ _ _).andThen fun _ _ => Dec.capped_tail _ _ _

/-- A header literal with finite capacities (R224, R274). -/
theorem Dec.capped_headerLiteral (p : Params) (c : Char16) (d : Dec) :
    Dec.Capped (d.headerLiteral p c) (d.headerLiteral (ideal p) c) := by
  unfold Dec.headerLiteral
  cases dictFull p 3 with
  | true => exact .inr ⟨d, _, rfl⟩
  | false =>
    simp only [dictFull_ideal, Bool.false_eq_true, if_false]
    exact (Dec.capped_outAppend _ _ _).andThen fun _ _ => .refl _

end Sys2Proof.Machine
end

