-- ==== Sys2Proof/Laws/Decoder.lean ====
section
/-! SUPPORT. Laws of the decoder's steps: what fetching a token delivers, and what a token does (R224, R231 to R240). -/

namespace Sys2Proof.Machine

/-! ### Fetching is decoding the bits ahead -/

/-- What a reading operation of the reader does, in the terms of the bits ahead: it delivers what `x` reads from them and
leaves the rest ahead, or the bits end and TruncatedInput is raised (R271). -/
def Dec.Reads {τ : Type} (d : Dec) (x : Except DecodeError (τ × List Bool)) (r : Run Dec τ) : Prop :=
  (∃ t rest e, x = .ok (t, rest) ∧ r = .ok t e ∧ d.Moved e ∧ e.ahead = rest) ∨
  (∃ e, x = .error .truncated ∧ r = .ended (e.raise .truncatedInput 0) ∧ d.Moved e ∧ e.exh = true)

theorem Dec.Reads.moved {τ : Type} {d e : Dec} {x : Except DecodeError (τ × List Bool)} {r : Run Dec τ}
    (h : d.Moved e) (hr : e.Reads x r) : d.Reads x r := by
  rcases hr with ⟨t, rest, f, hx, hr, hm, ha⟩ | ⟨f, hx, hr, hm, hexh⟩
  · exact .inl ⟨t, rest, f, hx, hr, h.trans hm, ha⟩
  · exact .inr ⟨f, hx, hr, h.trans hm, hexh⟩

/-- A read that ends after no more bits. -/
theorem Dec.Reads.done {τ : Type} {d : Dec} (hc : d.CursorOk) (t : τ) : d.Reads (.ok (t, d.ahead)) (.ok t d) :=
  .inl ⟨t, d.ahead, d, rfl, rfl, .refl hc, rfl⟩

/-- A read that begins with `n` bits. -/
theorem Dec.Reads.bits {τ : Type} {d : Dec} (hc : d.CursorOk) (n : Nat)
    {k : List Bool → List Bool → Except DecodeError (τ × List Bool)} {k' : List Bool → Dec → Run Dec τ}
    (h : ∀ as e, d.Moved e → e.Reads (k as e.ahead) (k' as e)) :
    d.Reads (match takeBits n d.ahead with | .error x => .error x | .ok (as, bs) => k as bs)
      ((d.getBits n).andThen k') := by
  rcases Dec.getBits_cases hc n with ⟨as, bs, e, ht, hg, hm, ha⟩ | ⟨e, ht, hg, hm, hx⟩
  · rw [ht, hg, ← ha]
    exact .moved hm (h as e hm)
  · rw [ht, hg]
    exact .inr ⟨e, rfl, rfl, hm, hx⟩

/-- The header token at the cursor is the one the decoder reads from the bits ahead (R224, R225, R227). -/
theorem Dec.fetchHeader_reads (p : Params) {d : Dec} (hc : d.CursorOk) :
    d.Reads (decodeHeader p d.ahead) (d.fetchHeader p) := by
  unfold decodeHeader Dec.fetchHeader Dec.getLsb Dec.getMsb
  simp only [Run.andThen_assoc, Run.andThen_ok]
  refine Dec.Reads.bits hc 2 fun as e hm => ?_
  cases headerClass (codeOfBits as) with
  | lit8 => exact Dec.Reads.bits hm.cursor 8 fun _ _ hn => .done hn.cursor _
  | lit16 => exact Dec.Reads.bits hm.cursor 16 fun _ _ hn => .done hn.cursor _
  | eos => exact .done hm.cursor _
  | stored => exact .done hm.cursor _
  | selfRef => exact .done hm.cursor _
  | illegal => exact .done hm.cursor _

/-- The loop token at the cursor is the one the decoder reads from the bits ahead, at the width and against the dictionary
size of the decoder (R231, R233). -/
theorem Dec.fetchLoop_reads (p : Params) {d : Dec} (hc : d.CursorOk) :
    d.Reads (decodeLoop p d.numBits d.dictSize d.ahead) (d.fetchLoop p) := by
  unfold decodeLoop Dec.fetchLoop Dec.getLsb Dec.getMsb
  simp only [Run.andThen_assoc, Run.andThen_ok]
  refine Dec.Reads.bits hc d.numBits fun as e hm => ?_
  rw [hm.eqs.2.1]
  cases loopClass d.dictSize (codeOfBits as) with
  | lit8 => exact Dec.Reads.bits hm.cursor 8 fun _ _ hn => .done hn.cursor _
  | lit16 => exact Dec.Reads.bits hm.cursor 16 fun _ _ hn => .done hn.cursor _
  | eos => exact .done hm.cursor _
  | stored => exact .done hm.cursor _
  | selfRef => exact .done hm.cursor _
  | illegal => exact .done hm.cursor _

/-! ### Output -/

theorem Dec.Wrote.refl {d : Dec} (hm : Memory.wf d.outMem) : d.Wrote [] d :=
  ⟨rfl, rfl, hm, by simp, fun _ _ => rfl⟩

theorem Dec.Wrote.trans {as bs : List Char16} {d e f : Dec} (h : d.Wrote as e) (k : e.Wrote bs f) :
    d.Wrote (as ++ bs) f where
  frame := by rw [k.frame, h.frame]
  length := by rw [k.length, h.length, List.length_append, Nat.add_assoc]
  canonical := k.canonical
  output := by rw [k.output, h.output, List.append_assoc]
  elsewhere := fun a ha => by
    have h1 := h.length
    have h2 := k.length
    rw [k.elsewhere a (by omega), h.elsewhere a (by omega)]

/-- A write keeps every field but DEC_OUT and DEC_OUTLEN. -/
theorem Dec.Wrote.eqs {cs : List Char16} {d e : Dec} (h : d.Wrote cs e) :
    e.dict = d.dict ∧ e.dictSize = d.dictSize ∧ e.numBits = d.numBits ∧ e.enlargeIn = d.enlargeIn ∧ e.w = d.w ∧
    e.phase = d.phase ∧ e.resetValue = d.resetValue := by
  rw [h.frame]; simp

/-- OutAppend with room appends the character (R66). -/
theorem Dec.outAppend_ok {p : Params} {d : Dec} (c : Char16) (hf : outFull p d.outLen = false)
    (hm : Memory.wf d.outMem) : ∃ e, d.outAppend p c = .ok () e ∧ d.Wrote [c] e := by
  refine ⟨_, by simp [Dec.outAppend, hf]; rfl, rfl, rfl, Memory.wf_write _ _ hm, ?_, ?_⟩
  · have := Memory.slice_append hm 0 d.outLen c
    simpa [Dec.output] using this
  · intro a ha
    rw [Memory.read_write hm, if_neg (by simp only at ha; omega)]

/-- With unbounded capacity every character of a phrase is appended, in order (R239). -/
theorem Dec.outAppendAll_ok {p : Params} (hp : p.unbounded) (cs : List Char16) (d : Dec) (hm : Memory.wf d.outMem) :
    ∃ e, Dec.outAppendAll p cs d = .ok () e ∧ d.Wrote cs e := by
  induction cs generalizing d with
  | nil => exact ⟨d, rfl, .refl hm⟩
  | cons c cs ih =>
    obtain ⟨e, he, hw⟩ := Dec.outAppend_ok c (outFull_unbounded hp d.outLen) hm
    obtain ⟨f, hf, hx⟩ := ih e hw.canonical
    exact ⟨f, by simp [Dec.outAppendAll, he, hf], hw.trans hx⟩

/-! ### Tokens -/

/-- A registration with room (R234, R240). -/
theorem Dec.registerNext_ok {p : Params} (q : Phrase) {d : Dec} (hf : dictFull p d.dictSize = false) :
    d.registerNext p q = .ok () { d with
      dict := assign d.dict d.dictSize q, dictSize := d.dictSize + 1
      numBits := (tickPair d.numBits d.enlargeIn).1, enlargeIn := (tickPair d.numBits d.enlargeIn).2 } := by
  simp [Dec.registerNext, hf, Dec.tick]

/-- What a token leaves once its phrase `q` is known and has been written to `e` (R239, R240). -/
def Dec.registered (q : Phrase) (e : Dec) : Dec :=
  { e with
    dict := assign e.dict e.dictSize (append e.w q.first), dictSize := e.dictSize + 1
    numBits := (tickPair e.numBits e.enlargeIn).1, enlargeIn := (tickPair e.numBits e.enlargeIn).2, w := q }

/-- A token whose code resolves, with unbounded capacity (R236, R237, R239, R240). -/
theorem Dec.tail_ok {p : Params} (hp : p.unbounded) {d : Dec} {k : Nat} {q : Phrase} (hq : d.resolve k = some q)
    (hm : Memory.wf d.outMem) : ∃ e, d.Wrote (phraseChars q) e ∧ d.tail p k = .ok () (e.registered q) := by
  obtain ⟨e, he, hw⟩ := Dec.outAppendAll_ok hp (phraseChars q) d hm
  refine ⟨e, hw, ?_⟩
  simp [Dec.tail, hq, he, Dec.registerNext_ok _ (dictFull_unbounded hp _), hw.eqs.2.2.2.2.1, Dec.registered]

/-- A token whose code does not resolve raises CorruptCode before anything is appended or registered (R238). -/
theorem Dec.tail_corrupt (p : Params) {d : Dec} {k : Nat} (hq : d.resolve k = none) :
    d.tail p k = .ended (d.raise .corruptCode k) := by simp [Dec.tail, hq]

/-- A literal token with unbounded capacity: the literal registered, then the token treated as a reference to it (R234). -/
theorem Dec.literal_ok {p : Params} (hp : p.unbounded) (c : Char16) {d : Dec} (hm : Memory.wf d.outMem) :
    ∃ e, Dec.Wrote [c] { d with
        dict := assign d.dict d.dictSize (single c), dictSize := d.dictSize + 1
        numBits := (tickPair d.numBits d.enlargeIn).1, enlargeIn := (tickPair d.numBits d.enlargeIn).2 } e ∧
      d.literal p c = .ok () (e.registered (single c)) := by
  unfold Dec.literal
  rw [Dec.registerNext_ok _ (dictFull_unbounded hp _), Run.andThen_ok]
  refine Dec.tail_ok hp (q := single c) ?_ hm
  simp [Dec.resolve, find_assign]

end Sys2Proof.Machine
end

