-- ==== Sys2Proof/Laws/Finish.lean ====
section
/-! SUPPORT. Laws of the encoder's finish step (R191, R192, R156, R100). -/

namespace Sys2Proof.Machine

/-- The last emission (R191): nothing where nothing was matched, else the token of the match with its ticks. It leaves the
pending set empty. -/
theorem Enc.emitMatch_ok {p : Params} (hp : p.unbounded) {e : Enc} (h : e.ScanOk p) (hm : Memory.wf e.outMem) :
    ∃ f tok n k, e.Appended tok f ∧
      ((e.w = [] ∧ tok = [] ∧ (n, k) = (e.numBits, e.enlargeIn)) ∨
        ∃ q, e.w = phraseChars q ∧ e.tokenBits p q = some tok ∧
          (n, k) = if q ∈ e.pend then tickPair (tickPair e.numBits e.enlargeIn).1 (tickPair e.numBits e.enlargeIn).2
            else tickPair e.numBits e.enlargeIn) ∧
      e.emitMatch p = .ok () { f with numBits := n, enlargeIn := k, pend := [] } := by
  rcases h.current with ⟨hw, -, hpe⟩ | ⟨q, hw, hq⟩
  · refine ⟨e, [], e.numBits, e.enlargeIn, .refl h.cursor hm, .inl ⟨hw, rfl, rfl⟩, ?_⟩
    have hcopy : ({ e with pend := [] } : Enc) = e := by rw [← hpe]
    have hempty : e.emitMatch p = .ok () e := by
      unfold Enc.emitMatch
      rw [hw]
    rw [hempty, hcopy]
  · obtain ⟨tok, ht⟩ : ∃ tok, e.tokenBits p q = some tok :=
      Option.isSome_iff_exists.1 (by rw [Enc.tokenBits_isSome, hq]; simp)
    obtain ⟨f, hf, he⟩ := Enc.emit_ok hp ht h.cursor hm
    have hmatch : e.emitMatch p = e.emit p q := by unfold Enc.emitMatch; rw [hw]; rfl
    have hfe : f.numBits = e.numBits ∧ f.enlargeIn = e.enlargeIn ∧ f.pend = e.pend := by rw [hf.frame]; simp
    by_cases hqp : q ∈ e.pend
    · have hpe : removePhrase q e.pend = [] := by
        rcases h.pending with hpe | ⟨c, hpe, hwc, -⟩
        · simp [hpe] at hqp
        · rw [hpe] at hqp ⊢
          simp only [List.mem_singleton] at hqp
          simp [removePhrase, hqp]
      refine ⟨f, tok, _, _, hf, .inr ⟨q, hw, ht, by rw [if_pos hqp]⟩, ?_⟩
      rw [hmatch, he]
      simp [Enc.emitted, hqp, Enc.tick, hfe, hpe]
    · have hpe : e.pend = [] := by
        rcases h.pending with hpe | ⟨c, hpe, hwc, -⟩
        · exact hpe
        · have hqc : q = single c := phraseChars_inj (hw.symm.trans hwc)
          simp [hpe, hqc] at hqp
      refine ⟨f, tok, _, _, hf, .inr ⟨q, hw, ht, by rw [if_neg hqp]⟩, ?_⟩
      rw [hmatch, he]
      simp [Enc.emitted, Enc.tick, hfe, hpe]

theorem Enc.Appended.of_cursor {e f g : Enc} {bs : List Bool} (h : f.Appended bs g)
    (hef : e = { f with numBits := e.numBits, enlargeIn := e.enlargeIn, pend := e.pend }) :
    e.Appended bs { g with numBits := e.numBits, enlargeIn := e.enlargeIn, pend := e.pend } := by
  have hb : e.bpc = f.bpc ∧ e.outLen = f.outLen ∧ e.outMem = f.outMem ∧ e.written = f.written := by
    rw [hef]; exact ⟨rfl, rfl, rfl, rfl⟩
  have hg := h.frame
  constructor
  · rw [hef, hg]
  · exact h.cursor
  · exact h.canonical
  · rw [hb.2.2.2]; exact h.bits
  · rw [hb.2.1]; exact h.grows
  · rw [hb.2.1, hb.2.2.1]; exact h.elsewhere
  · rw [hb.2.1, hb.1]; exact h.bounded

/-- The finish step with unbounded capacity: the rest of the tokens, the end marker at the width after the last ticks, and the
padding, which completes exactly one symbol (R191, R192, R156, R100). -/
theorem Enc.finishStep_ok {p : Params} (hp : p.unbounded) {e : Enc} (h : e.ScanOk p) (hm : Memory.wf e.outMem) :
    ∃ f tok n k pad,
      ((e.w = [] ∧ tok = [] ∧ (n, k) = (e.numBits, e.enlargeIn)) ∨
        ∃ q, e.w = phraseChars q ∧ e.tokenBits p q = some tok ∧
          (n, k) = if q ∈ e.pend then tickPair (tickPair e.numBits e.enlargeIn).1 (tickPair e.numBits e.enlargeIn).2
            else tickPair e.numBits e.enlargeIn) ∧
      1 ≤ pad ∧ pad ≤ e.bpc ∧ e.Appended (tok ++ codeBits 2 n ++ List.replicate pad false) f ∧ f.pos = 0 ∧
      f.outLen = (e.written.length + tok.length + n) / e.bpc + 1 ∧
      e.finishStep p = .ended
        { f with numBits := n, enlargeIn := k, pend := [], status := statusFinished .seq, phase := .done } := by
  obtain ⟨f, tok, n, k, hf, hcase, hemit⟩ := Enc.emitMatch_ok hp h hm
  obtain ⟨f', hf'⟩ : ∃ f', ({ f with numBits := n, enlargeIn := k, pend := [] } : Enc) = f' := ⟨_, rfl⟩
  have hc' : f'.CursorOk := by rw [← hf']; exact hf.cursor
  have hm' : Memory.wf f'.outMem := by rw [← hf']; exact hf.canonical
  obtain ⟨g, hg, hga⟩ := Enc.putBits_ok hp (codeBits 2 n) f' hc' hm'
  obtain ⟨r, hr, hra, hrp, hrl⟩ := Enc.flush_ok hp hga.cursor hga.canonical
  have htot := hga.trans hra
  have hback : f.Appended (codeBits 2 n ++ List.replicate (g.bpc - g.pos) false)
      { r with numBits := f.numBits, enlargeIn := f.enlargeIn, pend := f.pend } :=
    Enc.Appended.of_cursor htot (by rw [← hf'])
  have hall := hf.trans hback
  have hgb : g.bpc = e.bpc := by rw [hga.frame, ← hf', hf.frame]
  have hwid : f'.numBits = n := by rw [← hf']
  refine ⟨{ r with numBits := f.numBits, enlargeIn := f.enlargeIn, pend := f.pend }, tok, n, k, g.bpc - g.pos, hcase, ?_,
    ?_, ?_, hrp, ?_, ?_⟩
  · have := hga.cursor.1; omega
  · omega
  · rw [List.append_assoc]; exact hall
  · show r.outLen = _
    have hlen := congrArg List.length (hf.trans (Enc.Appended.of_cursor hga (e := f) (by rw [← hf']))).bits
    simp only [List.length_append] at hlen
    have hwl : Enc.written { g with numBits := f.numBits, enlargeIn := f.enlargeIn, pend := f.pend } = g.written := rfl
    have hn : (codeBits 2 n).length = n := by simp [codeBits]
    rw [hwl, Enc.length_written g, hn, hgb] at hlen
    have hgp := hga.cursor.1
    rw [hgb] at hgp
    rw [hrl, Nat.add_assoc, ← hlen, Nat.mul_comm, Nat.mul_add_div (by omega), Nat.div_eq_of_lt hgp]
  · unfold Enc.finishStep Enc.putLsb
    rw [hemit, Run.andThen_ok, hf', hwid, hg, Run.andThen_ok, hr, Run.andThen_ok]
    have hrf : r = { f' with acc := r.acc, pos := r.pos, outMem := r.outMem, outLen := r.outLen } := htot.frame
    have h3 : r.numBits = n ∧ r.enlargeIn = k ∧ r.pend = [] := by rw [hrf, ← hf']; exact ⟨rfl, rfl, rfl⟩
    simp [Enc.finish, ← h3.1, ← h3.2.1, ← h3.2.2]

end Sys2Proof.Machine
end

