-- ==== Sys2Proof/Laws/Frame.lean ====
section
/-! SUPPORT. What every operation of an engine leaves alone, whatever it does and however it ends (R20, R61, R71, R166, R316). -/

namespace Sys2Proof.Machine

/-! ### Runs -/

/-- Where `r` ends: in a state of `P` if it ran to its end, in a state of `Q` if it ended the command. -/
def Run.Post {σ α : Type} (P Q : σ → Prop) (r : Run σ α) : Prop :=
  (∀ a t, r = .ok a t → P t) ∧ ∀ t, r = .ended t → Q t

section
variable {σ α β : Type} {P P' Q : σ → Prop}

theorem Run.Post.ok {a : α} {s : σ} (h : P s) : (Run.ok a s : Run σ α).Post P Q :=
  ⟨fun _ _ e => by cases e; exact h, fun _ e => by cases e⟩

theorem Run.Post.ended {s : σ} (h : Q s) : (Run.ended s : Run σ α).Post P Q :=
  ⟨fun _ _ e => (by cases e), fun _ e => by cases e; exact h⟩

theorem Run.Post.fault {f : Fault} : (Run.fault f : Run σ α).Post P Q :=
  ⟨fun _ _ e => (by cases e), fun _ e => by cases e⟩

theorem Run.Post.andThen {r : Run σ α} {k : α → σ → Run σ β} (h : r.Post P Q) (hk : ∀ a t, P t → (k a t).Post P' Q) :
    (r.andThen k).Post P' Q := by
  cases r with
  | ok a s => exact hk a s (h.1 a s rfl)
  | ended s => exact .ended (h.2 s rfl)
  | fault f => exact .fault

end

/-! ### The encoder -/

/-- `e'` has the input, the configuration and the first `n` elements of the output of `e`. -/
structure Enc.Kept (n : Nat) (e e' : Enc) : Prop where
  inMem : e'.inMem = e.inMem
  bpcReg : e'.bpcReg = e.bpcReg
  lenReg : e'.lenReg = e.lenReg
  canonical : Memory.wf e'.outMem
  below : ∀ a, a < n → Memory.read e'.outMem a = Memory.read e.outMem a

/-- `e'` is a later moment of the command of `e`. -/
structure Enc.On (n : Nat) (e e' : Enc) : Prop extends Enc.Kept n e e' where
  grows : n ≤ e'.outLen
  status : e'.status = e.status
  phase : e'.phase = e.phase

/-- `e'` is the end of the command of `e`. -/
structure Enc.Over (n : Nat) (e e' : Enc) : Prop extends Enc.Kept n e e' where
  status : e'.status = statusFinished .seq ∨ e'.status = statusFailed .capacityExceeded
  phase : e'.phase = .done

theorem Enc.On.refl {n : Nat} {e : Enc} (hm : Memory.wf e.outMem) (hn : n ≤ e.outLen) : e.On n e :=
  ⟨⟨rfl, rfl, rfl, hm, fun _ _ => rfl⟩, hn, rfl, rfl⟩

theorem Enc.On.full {n : Nat} {e f : Enc} (h : e.On n f) : e.Over n (f.raise .capacityExceeded f.ii) :=
  ⟨⟨h.inMem, h.bpcReg, h.lenReg, h.canonical, h.below⟩, .inr rfl, rfl⟩

theorem Enc.On.finished {n : Nat} {e f : Enc} (h : e.On n f) : e.Over n (f.finish .seq) :=
  ⟨⟨h.inMem, h.bpcReg, h.lenReg, h.canonical, h.below⟩, .inl rfl, rfl⟩

/-- A change of registers only. -/
theorem Enc.On.registers {n : Nat} {e f g : Enc} (h : e.On n f)
    (hg : g.inMem = f.inMem ∧ g.bpcReg = f.bpcReg ∧ g.lenReg = f.lenReg ∧ g.outMem = f.outMem ∧ g.outLen = f.outLen ∧
      g.status = f.status ∧ g.phase = f.phase) : e.On n g := by
  obtain ⟨h1, h2, h3, h4, h5, h6, h7⟩ := hg
  exact ⟨⟨h1.trans h.inMem, h2.trans h.bpcReg, h3.trans h.lenReg, h4 ▸ h.canonical, h4 ▸ h.below⟩, h5 ▸ h.grows,
    h6.trans h.status, h7.trans h.phase⟩

section
variable {n : Nat} {e f : Enc} {p : Params}

theorem Enc.On.outAppend (h : e.On n f) (v : Symbol) : (f.outAppend p v).Post (e.On n) (e.Over n) := by
  unfold Enc.outAppend
  split
  · exact .ended h.full
  · refine .ok ⟨⟨h.inMem, h.bpcReg, h.lenReg, Memory.wf_write _ _ h.canonical, fun a ha => ?_⟩, ?_, h.status, h.phase⟩
    · have := h.grows
      rw [Memory.read_write h.canonical, if_neg (by omega), h.below a ha]
    · have := h.grows
      simp only
      omega

theorem Enc.On.putBit (h : e.On n f) (b : Bool) : (f.putBit p b).Post (e.On n) (e.Over n) := by
  unfold Enc.putBit
  dsimp only
  have h' : e.On n { f with acc := (f.acc <<< 1) ||| b.toNat, pos := f.pos + 1 } := h.registers (by simp)
  split
  · exact (h'.outAppend _).andThen fun _ g hg => .ok (hg.registers (by simp))
  · exact .ok h'

theorem Enc.On.putBits (h : e.On n f) (bs : List Bool) : (f.putBits p bs).Post (e.On n) (e.Over n) := by
  induction bs generalizing f with
  | nil => exact .ok h
  | cons b bs ih => exact (h.putBit b).andThen fun _ g hg => ih hg

theorem Enc.On.emitLiteral (h : e.On n f) (q : Phrase) : (f.emitLiteral p q).Post (e.On n) (e.Over n) := by
  rw [Enc.emitLiteral_eq]
  exact (h.putBits _).andThen fun _ g hg => .ok (hg.registers (by simp))

theorem Enc.On.emit (h : e.On n f) (q : Phrase) : (f.emit p q).Post (e.On n) (e.Over n) := by
  rw [Enc.emit_eq]
  cases f.tokenBits p q with
  | none => exact .fault
  | some bits =>
    refine (h.putBits _).andThen fun _ g hg => .ok (hg.registers ?_)
    unfold Enc.emitted
    split <;> simp

theorem Enc.On.emitMatch (h : e.On n f) : (f.emitMatch p).Post (e.On n) (e.Over n) := by
  unfold Enc.emitMatch
  split
  · exact .ok h
  · exact h.emit _

theorem Enc.On.register (h : e.On n f) (q : Phrase) : (f.register p q).Post (e.On n) (e.Over n) := by
  unfold Enc.register
  split
  · exact .ended h.full
  · exact .ok (h.registers (by simp))

theorem Enc.On.registerChar (h : e.On n f) (c : Char16) : (f.registerChar p c).Post (e.On n) (e.Over n) := by
  unfold Enc.registerChar
  split
  · exact .ended h.full
  · exact .ok (h.registers (by simp))

/-- ENC.CHAR keeps what every operation of the encoder keeps, whatever its capacities. -/
theorem Enc.On.charStep (h : e.On n f) : (f.charStep p).Post (e.On n) (e.Over n) := by
  unfold Enc.charStep
  dsimp only
  have h' : e.On n { f with ii := f.ii + 1 } := h.registers (by simp)
  refine Run.Post.andThen (P := e.On n) ?_ fun _ g hg => ?_
  · split
    · exact .ok h'
    · exact h'.registerChar _
  · split
    · exact .ok (hg.registers (by simp))
    · exact hg.emitMatch.andThen fun _ r hr => (hr.register _).andThen fun _ x hx => .ok (hx.registers (by simp))

/-- ENC.FINISH keeps what every operation of the encoder keeps. -/
theorem Enc.On.finishStep (h : e.On n f) : (f.finishStep p).Post (e.On n) (e.Over n) := by
  unfold Enc.finishStep Enc.putLsb Enc.flush
  exact h.emitMatch.andThen fun _ _ hg => (hg.putBits _).andThen fun _ _ hr => (hr.putBits _).andThen fun _ _ hx =>
    .ended hx.finished

end

/-! ### The decoder -/

/-- `d'` has the input, the configuration and the first `n` elements of the output of `d`, and the elements from `m` on. -/
structure Dec.Kept (n m : Nat) (d d' : Dec) : Prop where
  inMem : d'.inMem = d.inMem
  resetReg : d'.resetReg = d.resetReg
  lenReg : d'.lenReg = d.lenReg
  canonical : Memory.wf d'.outMem
  elsewhere : ∀ a, a < n ∨ m ≤ a → Memory.read d'.outMem a = Memory.read d.outMem a

/-- `d'` is a later moment of the command of `d`, with `l` characters appended since it had `n`. -/
structure Dec.On (n m l : Nat) (d d' : Dec) : Prop extends Dec.Kept n m d d' where
  grows : d'.outLen = n + l
  status : d'.status = d.status
  phase : d'.phase = d.phase

/-- `d'` is the end of the command of `d`, with no output and the index reached. -/
structure Dec.Over (n m : Nat) (d d' : Dec) : Prop extends Dec.Kept n m d d' where
  status : d'.status ∈ [statusFailed .truncatedInput, statusFailed .corruptCode, statusFailed .capacityExceeded]
  phase : d'.phase = .done
  outLen : d'.outLen = 0
  index : d.phase.pastStart = true → d'.fIdx = d'.index

theorem Dec.On.refl {m : Nat} {d : Dec} (hm : Memory.wf d.outMem) : d.On d.outLen m 0 d :=
  ⟨⟨rfl, rfl, rfl, hm, fun _ _ => rfl⟩, rfl, rfl, rfl⟩

theorem Dec.On.raised {n m l : Nat} {d e : Dec} (h : d.On n m l e) {c : Cause} (info : Nat) (hc : c ≠ .invalidArgument) :
    d.Over n m (e.raise c info) := by
  refine ⟨⟨h.inMem, h.resetReg, h.lenReg, h.canonical, h.elsewhere⟩, ?_, rfl, rfl, fun hp => ?_⟩
  · cases c <;> simp_all [Dec.raise]
  · rw [← h.phase] at hp
    simp [Dec.raise, hp]

/-- A change of registers only. -/
theorem Dec.On.registers {n m l : Nat} {d e f : Dec} (h : d.On n m l e)
    (hg : f.inMem = e.inMem ∧ f.resetReg = e.resetReg ∧ f.lenReg = e.lenReg ∧ f.outMem = e.outMem ∧
      f.outLen = e.outLen ∧ f.status = e.status ∧ f.phase = e.phase) : d.On n m l f := by
  obtain ⟨h1, h2, h3, h4, h5, h6, h7⟩ := hg
  exact ⟨⟨h1.trans h.inMem, h2.trans h.resetReg, h3.trans h.lenReg, h4 ▸ h.canonical, h4 ▸ h.elsewhere⟩, h5.trans h.grows,
    h6.trans h.status, h7.trans h.phase⟩

section
variable {n m l : Nat} {d e : Dec} {p : Params}

theorem Dec.On.getBit (h : d.On n m l e) : e.getBit.Post (d.On n m l) (d.Over n m) := by
  unfold Dec.getBit
  split
  · exact .ended (h.raised 0 (by simp))
  · refine .ok ?_
    split
    · exact h.registers (by simp)
    · exact h.registers (by simp)

theorem Dec.On.getBits (h : d.On n m l e) (k : Nat) : (e.getBits k).Post (d.On n m l) (d.Over n m) := by
  induction k generalizing e with
  | zero => exact .ok h
  | succ k ih => exact h.getBit.andThen fun _ f hf => (ih hf).andThen fun _ _ hx => .ok hx

theorem Dec.On.getLsb (h : d.On n m l e) (k : Nat) : (e.getLsb k).Post (d.On n m l) (d.Over n m) :=
  (h.getBits k).andThen fun _ _ hx => .ok hx

theorem Dec.On.getMsb (h : d.On n m l e) (k : Nat) : (e.getMsb p k).Post (d.On n m l) (d.Over n m) :=
  (h.getBits k).andThen fun _ _ hx => .ok hx

theorem Dec.On.fetchHeader (h : d.On n m l e) : (e.fetchHeader p).Post (d.On n m l) (d.Over n m) := by
  refine (h.getLsb 2).andThen fun code f hf => ?_
  split
  · exact (hf.getMsb _).andThen fun _ _ hx => .ok hx
  · exact (hf.getMsb _).andThen fun _ _ hx => .ok hx
  all_goals exact .ok hf

theorem Dec.On.fetchLoop (h : d.On n m l e) : (e.fetchLoop p).Post (d.On n m l) (d.Over n m) := by
  refine (h.getLsb _).andThen fun code f hf => ?_
  split
  · exact (hf.getMsb _).andThen fun _ _ hx => .ok hx
  · exact (hf.getMsb _).andThen fun _ _ hx => .ok hx
  all_goals exact .ok hf

theorem Dec.On.outAppend (h : d.On n m l e) (c : Char16) (hm : n + l < m) :
    (e.outAppend p c).Post (d.On n m (l + 1)) (d.Over n m) := by
  unfold Dec.outAppend
  split
  · exact .ended (h.raised _ (by simp))
  · refine .ok ⟨⟨h.inMem, h.resetReg, h.lenReg, Memory.wf_write _ _ h.canonical, fun a ha => ?_⟩, ?_, h.status, h.phase⟩
    · have := h.grows
      rw [Memory.read_write h.canonical, if_neg (by omega), h.elsewhere a ha]
    · have := h.grows
      simp only
      omega

theorem Dec.On.outAppendAll (h : d.On n m l e) (cs : List Char16) (hm : n + l + cs.length ≤ m) :
    (Dec.outAppendAll p cs e).Post (d.On n m (l + cs.length)) (d.Over n m) := by
  induction cs generalizing e l with
  | nil => exact .ok h
  | cons c cs ih =>
    simp only [List.length_cons] at hm ⊢
    have hl : l + (cs.length + 1) = l + 1 + cs.length := by omega
    rw [hl]
    exact (h.outAppend c (by omega)).andThen fun _ f hf => ih hf (by omega)

theorem Dec.On.registerNext (h : d.On n m l e) (q : Phrase) : (e.registerNext p q).Post (d.On n m l) (d.Over n m) := by
  unfold Dec.registerNext
  split
  · exact .ended (h.raised _ (by simp))
  · exact .ok (h.registers (by simp))

theorem Dec.On.tail (h : d.On n m 0 e) (k : Nat) (hm : n + (((e.resolve k).map phraseChars).getD []).length ≤ m) :
    (e.tail p k).Post (fun f => ∃ l, d.On n m l f) (d.Over n m) := by
  unfold Dec.tail
  cases hq : e.resolve k with
  | none => exact .ended (h.raised _ (by simp))
  | some q =>
    simp only [hq, Option.map_some, Option.getD_some] at hm
    exact (h.outAppendAll (phraseChars q) (by omega)).andThen fun _ f hf => (hf.registerNext _).andThen fun _ g hg =>
      .ok ⟨_, hg.registers (by simp)⟩

theorem Dec.On.literal (h : d.On n m 0 e) (c : Char16) (hm : n + 1 ≤ m) :
    (e.literal p c).Post (fun f => ∃ l, d.On n m l f) (d.Over n m) := by
  unfold Dec.literal
  cases hf : dictFull p e.dictSize with
  | true => simp only [Dec.registerNext, hf, if_true, Run.andThen_ended]; exact .ended (h.raised _ (by simp))
  | false =>
    rw [Dec.registerNext_ok _ hf, Run.andThen_ok]
    refine Dec.On.tail (h.registers (by simp)) _ ?_
    simp [Dec.resolve, find_assign]
    omega

/-- A header literal enters the loop (R224). -/
theorem Dec.On.headerLiteral (h : d.On n m 0 e) (c : Char16) (hm : n + 1 ≤ m) :
    (e.headerLiteral p c).Post (fun f => ∃ g, d.On n m 1 g ∧ f = { g with phase := .loop }) (d.Over n m) := by
  unfold Dec.headerLiteral
  split
  · exact .ended (h.raised _ (by simp))
  refine Run.Post.andThen (P := d.On n m 1) ?_ fun _ g hg => .ok ⟨g, hg, rfl⟩
  exact Dec.On.outAppend (h.registers (by simp)) c (by omega)

end

end Sys2Proof.Machine
end

