-- ==== Sys2Proof/Laws/Loop.lean ====
section
/-! SUPPORT. What the decoder's token steps keep of the invariant of phase LOOP (R44 items 1, 6 and 7), what fetching a token tells
about it, and that no operation of the decoder faults. -/

namespace Sys2Proof.Machine

section
variable {p : Params} {d e : Dec} {q : Phrase} {k : Nat}

/-- An index of the dictionary is one of 3 .. dictSize − 1 (R44 item 6). -/
theorem Dec.LoopOk.index_lt (h : d.LoopOk p) (hk : find d.dict k = some q) : 3 ≤ k ∧ k < d.dictSize := by
  have hm : k ∈ d.dict.map Prod.fst := List.mem_map.2 ⟨_, find_mem hk, rfl⟩
  rw [h.indices.2] at hm
  have := List.mem_range'_1.1 hm
  have := h.indices.1
  omega

/-- Every index from 3 to dictSize − 1 holds a phrase (R44 item 6). -/
theorem Dec.LoopOk.stored (h : d.LoopOk p) (h3 : 3 ≤ k) (hk : k < d.dictSize) : ∃ q, find d.dict k = some q := by
  cases hf : find d.dict k with
  | some q => exact ⟨q, rfl⟩
  | none =>
    rw [find_eq_none, h.indices.2, List.mem_range'_1] at hf
    have := h.indices.1
    omega

/-- The next index is free. -/
theorem Dec.LoopOk.next_free (h : d.LoopOk p) : find d.dict d.dictSize = none := by
  cases hf : find d.dict d.dictSize with
  | none => rfl
  | some q => have := h.index_lt hf; omega

/-- The cursor may move. -/
theorem Dec.LoopOk.moved (h : d.LoopOk p) (hm : d.Moved e) : e.LoopOk p := by
  obtain ⟨h1, h2, h3, h4, h5, h6, h7, h8, h9, h10, -⟩ := hm.eqs
  have ho : e.output = d.output := by rw [Dec.output, Dec.output, h6, h7]
  exact
    { mask := by rw [h10]; exact h.mask
      cursor := hm.cursor
      schedule := by rw [h3, h4]; exact h.schedule
      indices := by rw [h1, h2]; exact h.indices
      previous := by rw [h1, h5]; exact h.previous
      ticks := by rw [h2, h3, h4]; exact h.ticks
      tail := by rw [h5, ho]; exact h.tail }

/-- A registration at the next index with its tick keeps the invariant (R234, R240). -/
theorem Dec.LoopOk.register (h : d.LoopOk p) (q : Phrase) : Dec.LoopOk p { d with
    dict := assign d.dict d.dictSize q, dictSize := d.dictSize + 1
    numBits := (tickPair d.numBits d.enlargeIn).1, enlargeIn := (tickPair d.numBits d.enlargeIn).2 } := by
  have hs := tickPair_sum (n := d.numBits) h.schedule.2.1
  have ht := h.ticks
  have h4 := h.indices.1
  exact
    { mask := h.mask
      cursor := h.cursor
      schedule := tickPair_ok h.schedule
      indices := ⟨by simp only; omega, by
        simp only [assign_new _ _ _ h.next_free, List.map_append, h.indices.2, List.map_cons, List.map_nil]
        rw [range'_concat_codes (by omega)]⟩
      previous := by
        simp only [assign_new _ _ _ h.next_free, List.map_append]
        exact List.mem_append_left _ h.previous
      ticks := by simp only; omega
      tail := h.tail }

/-- A phrase that a code resolves to is stored, or is the one the token registers itself (R236, R237). -/
theorem Dec.resolve_cases (hq : d.resolve k = some q) :
    (k < d.dictSize ∧ find d.dict k = some q) ∨ (k = d.dictSize ∧ q = append d.w d.w.first) := by
  unfold Dec.resolve at hq
  split at hq
  · exact .inl ⟨‹_›, hq⟩
  · split at hq
    · exact .inr ⟨‹_›, (Option.some.inj hq).symm⟩
    · cases hq

/-- Writing and registering the phrase of a token keeps the invariant (R239, R240). -/
theorem Dec.LoopOk.registered (h : d.LoopOk p) (hq : d.resolve k = some q) (hw : d.Wrote (phraseChars q) e) :
    (e.registered q).LoopOk p := by
  have hr := h.register (append d.w q.first)
  obtain ⟨h1, h2, h3, h4, h5, h6, h7⟩ := hw.eqs
  have hc : e.CursorOk := by rw [hw.frame]; exact h.cursor
  unfold Dec.registered
  rw [h1, h2, h3, h4, h5]
  exact
    { mask := by simp only; rw [h7]; exact h.mask
      cursor := hc
      schedule := hr.schedule
      indices := hr.indices
      previous := by
        simp only [assign_new _ _ _ h.next_free, List.map_append, List.mem_append]
        rcases Dec.resolve_cases hq with ⟨-, hf⟩ | ⟨-, hs⟩
        · exact .inl (List.mem_map.2 ⟨_, find_mem hf, rfl⟩)
        · exact .inr (by simp [hs])
      ticks := hr.ticks
      tail := ⟨d.output, hw.output⟩ }

/-- The header literal establishes the invariant (R228). -/
theorem Dec.HeaderOk.loop (h : d.HeaderOk p) (c : Char16) (hw : d.Wrote [c] e) : Dec.LoopOk p { e with
    dict := assign e.dict 3 (single c), dictSize := 4, numBits := 3, enlargeIn := 4, w := single c, phase := .loop } := by
  have hd : e.dict = [] := by rw [hw.eqs.1, h.dict]
  have hc : e.CursorOk := by rw [hw.frame]; exact h.cursor
  have hr : e.resetValue = d.resetValue := hw.eqs.2.2.2.2.2.2
  exact
    { mask := by simp only; rw [hr]; exact h.mask
      cursor := hc
      schedule := by show ScheduleOk 3 4; decide
      indices := by simp [hd, assign]
      previous := by simp [hd, assign]
      ticks := by show 4 + 4 = 2 ^ 3; rfl
      tail := ⟨d.output, hw.output⟩ }

/-- What the classification of a code says of it (R247). -/
theorem loopClass_cases (n code : Nat) :
    (loopClass n code = .lit8 ∧ code = 0) ∨ (loopClass n code = .lit16 ∧ code = 1) ∨ (loopClass n code = .eos ∧ code = 2) ∨
    (loopClass n code = .stored ∧ 3 ≤ code ∧ code < n) ∨ (loopClass n code = .selfRef ∧ 3 ≤ code ∧ code = n) ∨
    (loopClass n code = .illegal ∧ 3 ≤ code ∧ n < code) := by
  unfold loopClass
  repeat' split
  all_goals simp only [true_and, reduceCtorEq, false_and, or_false, false_or]
  all_goals omega

/-- A reference the decoder reads names an index from 3 to dictSize − 1 (R96, R236). -/
theorem decodeLoop_ref {p : Params} {n m k : Nat} {bs rest : List Bool} (h : decodeLoop p n m bs = .ok (.ref k, rest)) :
    3 ≤ k ∧ k < m := by
  unfold decodeLoop at h
  split at h
  · cases h
  · rename_i code r _
    rcases loopClass_cases m (codeOfBits code) with h' | h' | h' | h' | h' | h' <;> rw [h'.1] at h <;> simp only at h
    · split at h <;> cases h
    · split at h <;> cases h
    · cases h
    · cases h; exact h'.2
    · cases h
    · cases h

end

/-! ### No operation of the decoder faults -/

/-- `r` runs to its end or ends the command. -/
def Run.Goes {σ α : Type} (r : Run σ α) : Prop := ∀ f, r ≠ .fault f

theorem Run.Goes.andThen {σ α β : Type} {r : Run σ α} {k : α → σ → Run σ β} (h : r.Goes) (hk : ∀ a s, (k a s).Goes) :
    (r.andThen k).Goes := by
  cases r with
  | ok a s => exact hk a s
  | ended s => exact fun _ h => by cases h
  | fault f => exact absurd rfl (h f)

theorem Run.Goes.ok {σ α : Type} {a : α} {s : σ} : (Run.ok a s).Goes := fun _ h => by cases h
theorem Run.Goes.ended {σ α : Type} {s : σ} : (Run.ended s : Run σ α).Goes := fun _ h => by cases h

theorem Dec.outAppend_goes (p : Params) (c : Char16) (d : Dec) : (d.outAppend p c).Goes := by
  unfold Dec.outAppend
  split
  · exact .ended
  · exact .ok

theorem Dec.outAppendAll_goes (p : Params) (cs : List Char16) (d : Dec) : (Dec.outAppendAll p cs d).Goes := by
  induction cs generalizing d with
  | nil => exact .ok
  | cons c cs ih => exact (Dec.outAppend_goes p c d).andThen fun _ e => ih e

theorem Dec.registerNext_goes (p : Params) (q : Phrase) (d : Dec) : (d.registerNext p q).Goes := by
  unfold Dec.registerNext
  split
  · exact .ended
  · exact .ok

theorem Dec.tail_goes (p : Params) (k : Nat) (d : Dec) : (d.tail p k).Goes := by
  unfold Dec.tail
  split
  · exact .ended
  · exact (Dec.outAppendAll_goes _ _ _).andThen fun _ _ => (Dec.registerNext_goes _ _ _).andThen fun _ _ => .ok

theorem Dec.literal_goes (p : Params) (c : Char16) (d : Dec) : (d.literal p c).Goes :=
  (Dec.registerNext_goes _ _ _).andThen fun _ _ => Dec.tail_goes _ _ _

theorem Dec.headerLiteral_goes (p : Params) (c : Char16) (d : Dec) : (d.headerLiteral p c).Goes := by
  unfold Dec.headerLiteral
  split
  · exact .ended
  · exact (Dec.outAppend_goes _ _ _).andThen fun _ _ => .ok

/-- A run that does not fault gives a next state. -/
theorem decOutcome_goes {r : Run Dec Unit} (h : r.Goes) (s : State) : ∃ d, decOutcome s r = .next { s with dec := d } := by
  cases r with
  | ok a d => exact ⟨d, rfl⟩
  | ended d => exact ⟨d, rfl⟩
  | fault f => exact absurd rfl (h f)

/-- A header token completes, and changes nothing but the decoder. -/
theorem runHeaderToken_goes (t : HeaderToken) (s : State) : ∃ d, runHeaderToken t s = .next { s with dec := d } := by
  cases t with
  | lit8 c => exact decOutcome_goes (Dec.headerLiteral_goes _ _ _) s
  | lit16 c => exact decOutcome_goes (Dec.headerLiteral_goes _ _ _) s
  | eos => exact ⟨_, rfl⟩
  | illegal => exact ⟨_, rfl⟩

/-- A loop token completes, and changes nothing but the decoder. -/
theorem runLoopToken_goes (t : LoopToken) (s : State) : ∃ d, runLoopToken t s = .next { s with dec := d } := by
  cases t with
  | lit8 c => exact decOutcome_goes (Dec.literal_goes _ _ _) s
  | lit16 c => exact decOutcome_goes (Dec.literal_goes _ _ _) s
  | eos => exact ⟨_, rfl⟩
  | ref k => exact decOutcome_goes (Dec.tail_goes _ _ _) s
  | refnew => exact decOutcome_goes (Dec.tail_goes _ _ _) s
  | illegal k => exact ⟨_, rfl⟩

/-! ### What a token leaves -/

/-- What a step of the decoder leaves: the loop in a valid state with at least `n` bits fewer ahead, or the end of the command with
one of the results of R241. -/
def Dec.Stepped (s : State) (n : Nat) (o : Host.Outcome State Fault Refusal) : Prop :=
  ∃ e, o = .next { s with dec := e } ∧ Memory.wf e.outMem ∧
    (∀ a, a < s.dec.outLen → Memory.read e.outMem a = Memory.read s.dec.outMem a) ∧
    ((e.phase = .loop ∧ e.LoopOk s.cfg ∧ e.ahead.length + n ≤ s.dec.ahead.length) ∨
      (e.phase = .done ∧ e.status = statusFinished .seq ∧ e.output = s.dec.output) ∨
      (e.phase = .done ∧ e.outLen = 0 ∧ e.fIdx = e.index ∧
        e.status ∈ [statusFinished .overrun, statusFailed .truncatedInput, statusFailed .corruptCode,
          statusFailed .capacityExceeded]))

/-- A run that keeps the loop with unbounded capacities does so, or meets a capacity. -/
theorem Dec.Stepped.of_capped {s : State} {r r' : Run Dec Unit} {n : Nat} (hc : Dec.Capped r r')
    (hph : s.dec.phase.pastStart = true)
    (hwf : ∀ e, r = .ok () e → Memory.wf e.outMem ∧ ∀ a, a < s.dec.outLen → Memory.read e.outMem a = Memory.read s.dec.outMem a)
    (hover : ∀ e, r = .ended e → s.dec.Over s.dec.outLen n e)
    (h : ∃ e, r' = .ok () e ∧ e.phase = .loop ∧ e.LoopOk s.cfg ∧ e.ahead.length ≤ s.dec.ahead.length) :
    Dec.Stepped s 0 (decOutcome s r) := by
  rcases hc with rfl | ⟨g, info, rfl⟩
  · obtain ⟨e, rfl, h⟩ := h
    exact ⟨e, rfl, (hwf e rfl).1, (hwf e rfl).2, .inl h⟩
  · have ho := hover _ rfl
    exact ⟨_, rfl, ho.canonical, fun a ha => ho.elsewhere a (.inl ha), .inr (.inr ⟨rfl, rfl, ho.index hph, by simp⟩)⟩

section
variable {s : State}

theorem Dec.Wrote.ahead_eq {d e : Dec} {cs : List Char16} (h : d.Wrote cs e) : e.ahead = d.ahead := by
  rw [h.frame]; rfl

/-- A token whose code resolves. -/
theorem Dec.tail_stepped (h : s.dec.LoopOk s.cfg) (hph : s.dec.phase = .loop) (hm : Memory.wf s.dec.outMem) {k : Nat}
    {q : Phrase} (hq : s.dec.resolve k = some q) : Dec.Stepped s 0 (decOutcome s (s.dec.tail s.cfg k)) := by
  have hpost := Dec.On.tail (p := s.cfg)
    (Dec.On.refl (m := s.dec.outLen + (((s.dec.resolve k).map phraseChars).getD []).length) (d := s.dec) hm) k (Nat.le_refl _)
  refine .of_capped (Dec.capped_tail _ _ _) (by rw [hph]; rfl) (fun e he => ?_) (fun e he => hpost.2 e he) ?_
  · obtain ⟨l, hl⟩ := hpost.1 _ _ he
    exact ⟨hl.canonical, fun a ha => hl.elsewhere a (.inl ha)⟩
  · obtain ⟨e, hw, hr⟩ := Dec.tail_ok (ideal_unbounded s.cfg) hq hm
    refine ⟨_, hr, ?_, h.registered hq hw, Nat.le_of_eq (congrArg List.length hw.ahead_eq)⟩
    show e.phase = .loop
    rw [hw.eqs.2.2.2.2.2.1, hph]

/-- A literal token. -/
theorem Dec.literal_stepped (h : s.dec.LoopOk s.cfg) (hph : s.dec.phase = .loop) (hm : Memory.wf s.dec.outMem)
    (c : Char16) : Dec.Stepped s 0 (decOutcome s (s.dec.literal s.cfg c)) := by
  have hpost := Dec.On.literal (p := s.cfg) (Dec.On.refl (m := s.dec.outLen + 1) (d := s.dec) hm) c (Nat.le_refl _)
  refine .of_capped (Dec.capped_literal _ _ _) (by rw [hph]; rfl) (fun e he => ?_) (fun e he => hpost.2 e he) ?_
  · obtain ⟨l, hl⟩ := hpost.1 _ _ he
    exact ⟨hl.canonical, fun a ha => hl.elsewhere a (.inl ha)⟩
  · obtain ⟨e, hw, hr⟩ := Dec.literal_ok (ideal_unbounded s.cfg) c hm
    refine ⟨_, hr, ?_, (h.register (single c)).registered (k := s.dec.dictSize) ?_ hw, Nat.le_of_eq (congrArg List.length hw.ahead_eq)⟩
    · show e.phase = .loop
      rw [hw.eqs.2.2.2.2.2.1, hph]
    · simp [Dec.resolve, find_assign]

/-- A loop token (R241). -/
theorem runLoopToken_stepped (h : s.dec.LoopOk s.cfg) (hph : s.dec.phase = .loop) (hm : Memory.wf s.dec.outMem)
    (t : LoopToken) (ht : ∀ k, t = .ref k → 3 ≤ k ∧ k < s.dec.dictSize) :
    Dec.Stepped s 0 (runLoopToken t s) := by
  cases t with
  | lit8 c => exact Dec.literal_stepped h hph hm _
  | lit16 c => exact Dec.literal_stepped h hph hm c
  | eos => exact ⟨_, rfl, hm, fun _ _ => rfl, .inr (.inl ⟨rfl, rfl, rfl⟩)⟩
  | ref k =>
    obtain ⟨q, hq⟩ := h.stored (ht k rfl).1 (ht k rfl).2
    exact Dec.tail_stepped h hph hm (q := q) (by simp [Dec.resolve, (ht k rfl).2, hq])
  | refnew => exact Dec.tail_stepped h hph hm (q := append s.dec.w s.dec.w.first) (by simp [Dec.resolve])
  | illegal k =>
    exact ⟨_, rfl, hm, fun _ _ => rfl, .inr (.inr ⟨rfl, rfl, by simp [hph, DecPhase.pastStart], by simp⟩)⟩

/-- A header token (R241). -/
theorem runHeaderToken_stepped (h : s.dec.HeaderOk s.cfg) (hph : s.dec.phase = .header) (hm : Memory.wf s.dec.outMem)
    (t : HeaderToken) : Dec.Stepped s 0 (runHeaderToken t s) := by
  have lit : ∀ c, Dec.Stepped s 0 (decOutcome s (s.dec.headerLiteral s.cfg c)) := fun c => by
    have hpost := Dec.On.headerLiteral (p := s.cfg) (Dec.On.refl (m := s.dec.outLen + 1) (d := s.dec) hm) c (Nat.le_refl _)
    refine .of_capped (Dec.capped_headerLiteral _ _ _) (by rw [hph]; rfl) (fun e he => ?_) (fun e he => hpost.2 e he) ?_
    · obtain ⟨g, hg, rfl⟩ := hpost.1 _ _ he
      exact ⟨hg.canonical, fun a ha => hg.elsewhere a (.inl ha)⟩
    · obtain ⟨e, he, hw⟩ := Dec.outAppend_ok (p := ideal s.cfg) (d := s.dec) c (by simp) hm
      refine ⟨_, ?_, rfl, h.loop c hw, Nat.le_of_eq (congrArg List.length hw.ahead_eq)⟩
      simp only [Dec.outAppend, outFull_ideal, Bool.false_eq_true, if_false, Run.ok.injEq, true_and] at he
      simp [Dec.headerLiteral, Dec.outAppend, ← he]
  cases t with
  | lit8 c => exact lit _
  | lit16 c => exact lit c
  | eos => exact ⟨_, rfl, hm, fun _ _ => rfl, .inr (.inl ⟨rfl, rfl, rfl⟩)⟩
  | illegal =>
    exact ⟨_, rfl, hm, fun _ _ => rfl, .inr (.inr ⟨rfl, rfl, by simp [hph, DecPhase.pastStart], by simp⟩)⟩

/-- The same of a decoder whose cursor has moved over `n` bits. -/
theorem Dec.Stepped.moved {d : Dec} {n : Nat} {o : Host.Outcome State Fault Refusal} (hm : s.dec.Moved d)
    (hn : d.ahead.length + n ≤ s.dec.ahead.length) (h : Dec.Stepped { s with dec := d } 0 o) : Dec.Stepped s n o := by
  obtain ⟨e, rfl, h1, h2, h3⟩ := h
  obtain ⟨-, -, -, -, -, hmem, hlen, -⟩ := hm.eqs
  have ho : d.output = s.dec.output := by rw [Dec.output, Dec.output, hmem, hlen]
  refine ⟨e, rfl, h1, fun a ha => ?_, ?_⟩
  · rw [h2 a (by simp only; rw [hlen]; exact ha)]
    show Memory.read d.outMem a = _
    rw [hmem]
  · change (e.phase = .loop ∧ e.LoopOk s.cfg ∧ e.ahead.length + 0 ≤ d.ahead.length) ∨
      (_ ∧ _ ∧ e.output = d.output) ∨ _ at h3
    rw [ho] at h3
    refine h3.imp_left fun h4 => ⟨h4.1, h4.2.1, ?_⟩
    have := h4.2.2
    omega

/-- A read of bits that ends in TruncatedInput. -/
theorem Dec.Stepped.truncated {d : Dec} {n : Nat} (hm : s.dec.Moved d) (hph : s.dec.phase.pastStart = true)
    (hw : Memory.wf s.dec.outMem) : Dec.Stepped s n (.next { s with dec := d.raise .truncatedInput 0 }) := by
  obtain ⟨-, -, -, -, -, hmem, hlen, hp, -⟩ := hm.eqs
  refine ⟨_, rfl, by rw [Dec.raise_outMem, hmem]; exact hw, fun a _ => by rw [Dec.raise_outMem, hmem],
    .inr (.inr ⟨rfl, rfl, ?_, by simp⟩)⟩
  rw [Dec.raise_fIdx, hp, if_pos hph, Dec.raise_index]

/-- Reading a payload leaves no more bits than there were. -/
theorem payload_length {τ : Type} {k : Nat} {f : List Bool → τ} {t : τ} {r rest : List Bool}
    (h : (match takeBits k r with | .error x => .error x | .ok (c, rest) => .ok (f c, rest)) =
      (.ok (t, rest) : Except DecodeError (τ × List Bool))) : rest.length ≤ r.length := by
  cases ht : takeBits k r with
  | error x => rw [ht] at h; cases h
  | ok c =>
    obtain ⟨c, r'⟩ := c
    rw [ht] at h
    obtain ⟨hb, -⟩ := takeBits_ok ht
    have := congrArg List.length hb
    rw [List.length_append] at this
    cases h
    omega

/-- Reading a loop token consumes at least its code. -/
theorem decodeLoop_length {p : Params} {n m : Nat} {bs rest : List Bool} {t : LoopToken}
    (h : decodeLoop p n m bs = .ok (t, rest)) : rest.length + n ≤ bs.length := by
  unfold decodeLoop at h
  split at h
  · cases h
  · rename_i code r ht
    obtain ⟨hb, hl⟩ := takeBits_ok ht
    have hbl := congrArg List.length hb
    rw [List.length_append] at hbl
    have : rest.length ≤ r.length := by
      split at h
      · exact payload_length h
      · exact payload_length h
      all_goals cases h; exact Nat.le_refl _
    omega

/-- Reading a header token consumes at least its code. -/
theorem decodeHeader_length {p : Params} {bs rest : List Bool} {t : HeaderToken}
    (h : decodeHeader p bs = .ok (t, rest)) : rest.length + 2 ≤ bs.length := by
  unfold decodeHeader at h
  split at h
  · cases h
  · rename_i code r ht
    obtain ⟨hb, hl⟩ := takeBits_ok ht
    have hbl := congrArg List.length hb
    rw [List.length_append] at hbl
    have : rest.length ≤ r.length := by
      split at h
      · exact payload_length h
      · exact payload_length h
      all_goals cases h; exact Nat.le_refl _
    omega

/-- DEC.HEADER from a valid state (R241). -/
theorem execDecHeader_stepped (h : s.dec.HeaderOk s.cfg) (hph : s.dec.phase = .header) (hm : Memory.wf s.dec.outMem) :
    Dec.Stepped s 2 (execDecHeader s) := by
  unfold execDecHeader
  rcases Dec.fetchHeader_reads s.cfg h.cursor with ⟨t, rest, d, hx, hr, hmv, ha⟩ | ⟨d, hx, hr, hmv, -⟩
  · rw [hr]
    obtain ⟨h1, h2, h3, h4, h5, h6, h7, h8, h9, h10, -⟩ := hmv.eqs
    refine .moved hmv ?_ (runHeaderToken_stepped (s := { s with dec := d }) ⟨by simp only; rw [h10]; exact h.mask, hmv.cursor, h1.trans h.dict, h7.trans h.output⟩
      (h8.trans hph) (by simp only; rw [h6]; exact hm) t)
    rw [ha]
    exact decodeHeader_length hx
  · rw [hr]
    exact .truncated hmv (by rw [hph]; rfl) hm

/-- DEC.TOKEN from a valid state (R241): if the loop goes on, at least two bits of the input have been consumed. -/
theorem execDecToken_stepped (h : s.dec.LoopOk s.cfg) (hph : s.dec.phase = .loop) (hm : Memory.wf s.dec.outMem) :
    Dec.Stepped s 2 (execDecToken s) := by
  unfold execDecToken
  split
  · split
    · exact .truncated (.refl h.cursor) (by rw [hph]; rfl) hm
    · exact ⟨_, rfl, hm, fun _ _ => rfl, .inr (.inr ⟨rfl, rfl, rfl, by simp⟩)⟩
  · rcases Dec.fetchLoop_reads s.cfg h.cursor with ⟨t, rest, d, hx, hr, hmv, ha⟩ | ⟨d, hx, hr, hmv, -⟩
    · rw [hr]
      obtain ⟨h1, h2, h3, h4, h5, h6, h7, h8, h9, h10, -⟩ := hmv.eqs
      refine .moved hmv ?_ (runLoopToken_stepped (s := { s with dec := d }) (h.moved hmv) (h8.trans hph) (by simp only; rw [h6]; exact hm) t
        fun k hk => ?_)
      · rw [ha]
        have := decodeLoop_length hx
        have := h.schedule.1
        omega
      · rw [hk] at hx
        simp only
        rw [h2]
        exact decodeLoop_ref hx
    · rw [hr]
      exact .truncated hmv (by rw [hph]; rfl) hm

end

end Sys2Proof.Machine
end

