-- ==== Sys2Proof/Laws/Start.lean ====
section
/-! SUPPORT. Laws of START (R180, R220): what it leaves is valid. And ENC.CHAR and ENC.FINISH from a valid state never fault. -/

namespace Sys2Proof.Machine

/-- START of an encoder that is not BUSY, with a legal width, the input present and room for dictSize 3 (R180, log 30). -/
theorem Enc.start_ok {p : Params} {e : Enc} (hb : isBusy e.status = false) (hl : legalBpc p e.bpcReg.toNat = true)
    (hf : dictFull p 2 = false) :
    ∃ f, e.start p false = .ok () f ∧ f.ScanOk p ∧ f.phase = .scan ∧ f.status = statusBusy ∧ f.ii = 0 ∧ f.w = [] ∧
      f.len = e.lenReg ∧ f.bpc = e.bpcReg.toNat ∧ f.inMem = e.inMem ∧ f.outMem = e.outMem ∧ f.outLen = 0 ∧ f.pos = 0 := by
  refine ⟨{ e with
    status := statusBusy, outLen := 0, fInfo := 0, bpc := e.bpcReg.toNat, len := e.lenReg, dict := [], pend := []
    dictSize := 3, numBits := 2, enlargeIn := 2, w := [], ii := 0, acc := 0, pos := 0, phase := .scan },
    by simp [Enc.start, hb, hl, hf], ?_, rfl, rfl, rfl, rfl, rfl, rfl, rfl, rfl, rfl, rfl⟩
  have h1 : 1 ≤ e.bpcReg.toNat := by
    simp only [legalBpc, Bool.and_eq_true, decide_eq_true_eq] at hl
    exact hl.1
  exact
    { width := hl
      cursor := ⟨h1, by simp⟩
      input := Nat.zero_le _
      schedule := by show ScheduleOk 2 2; decide
      codes := ⟨Nat.le_refl _, rfl⟩
      phrases := List.nodup_nil
      prefixes := fun q c k h => by cases h
      characters := fun q c h => by cases h
      current := .inl ⟨rfl, rfl, rfl⟩
      pending := .inl rfl
      ticks := rfl
      symbols := fun i h => absurd h (Nat.not_lt_zero _) }

/-- The legal reset values (R35). -/
theorem legalReset_iff {p : Params} {r : Nat} : legalReset p r = true ↔ ∃ j, j < p.bpcMax ∧ r = 2 ^ j := by
  simp [legalReset]

/-- START of a decoder that is not BUSY, with a legal reset value and an input that is neither absent nor empty (R220). -/
theorem Dec.start_ok {p : Params} {d : Dec} (hb : isBusy d.status = false) (hr : legalReset p d.resetReg = true)
    (hl : d.lenReg ≠ 0) :
    ∃ e, d.start p false = .ok () e ∧ e.HeaderOk p ∧ e.phase = .header ∧ e.status = statusBusy ∧ e.outMem = d.outMem ∧
      e.inMem = d.inMem ∧ e.ahead = streamBits (Nat.log2 d.resetReg + 1) (Memory.slice d.inMem 0 d.lenReg) := by
  obtain ⟨j, -, hj⟩ := legalReset_iff.1 hr
  refine ⟨{ d with
    status := statusBusy, outLen := 0, fInfo := 0, fIdx := 0, resetValue := d.resetReg, len := d.lenReg, dict := []
    exh := false, val := Memory.read d.inMem 0, position := d.resetReg, index := 1, phase := .header },
    by simp [Dec.start, hb, hr, hl], ?_, rfl, rfl, rfl, rfl, ?_⟩
  · refine ⟨hr, ?_, rfl, rfl⟩
    refine ⟨?_, ?_, Nat.le_refl _, ?_, fun _ => ⟨Nat.le_refl _, Nat.one_le_iff_ne_zero.2 hl⟩⟩
    · simp only; rw [hj, Nat.log2_two_pow]
    · simp only; rw [hj, Nat.log2_two_pow]
    · intro h; cases h
  · obtain ⟨k, hk⟩ : ∃ k, d.lenReg = k + 1 := ⟨d.lenReg - 1, by omega⟩
    simp [Dec.ahead, Dec.symbolWidth, hk, Memory.slice_cons]

/-! ### The units of the encoder do not fault -/

theorem Enc.outAppend_goes (p : Params) (v : Symbol) (e : Enc) : (e.outAppend p v).Goes := by
  unfold Enc.outAppend
  split
  · exact .ended
  · exact .ok

theorem Enc.putBit_goes (p : Params) (b : Bool) (e : Enc) : (e.putBit p b).Goes := by
  unfold Enc.putBit
  dsimp only
  split
  · exact (Enc.outAppend_goes _ _ _).andThen fun _ _ => .ok
  · exact .ok

theorem Enc.putBits_goes (p : Params) (bs : List Bool) (e : Enc) : (e.putBits p bs).Goes := by
  induction bs generalizing e with
  | nil => exact .ok
  | cons b bs ih => exact (Enc.putBit_goes p b e).andThen fun _ f => ih f

theorem Enc.register_goes (p : Params) (q : Phrase) (e : Enc) : (e.register p q).Goes := by
  unfold Enc.register
  split
  · exact .ended
  · exact .ok

/-- EMIT of a phrase that is pending or has a code (R188). -/
theorem Enc.emit_goes (p : Params) {q : Phrase} {e : Enc} (h : q ∈ e.pend ∨ inDomain e.dict q = true) :
    (e.emit p q).Goes := by
  obtain ⟨bits, hb⟩ := Option.isSome_iff_exists.1 (show (e.tokenBits p q).isSome = true by
    rw [Enc.tokenBits_isSome]; simpa using h)
  rw [Enc.emit_eq, hb]
  exact (Enc.putBits_goes _ _ _).andThen fun _ _ => .ok

/-- Emitting a match that is empty or has a token. -/
theorem Enc.emitMatch_goes (p : Params) {e : Enc} (h : e.w = [] ∨ ∃ q, e.w = phraseChars q ∧ inDomain e.dict q = true) :
    (e.emitMatch p).Goes := by
  unfold Enc.emitMatch
  rcases h with h | ⟨q, h, hq⟩
  · rw [h]; exact .ok
  · rw [h]; exact Enc.emit_goes p (.inr hq)

/-- The match of a valid state is empty or has a code (R28, R44). -/
theorem Enc.ScanOk.match_coded {p : Params} {e : Enc} (h : e.ScanOk p) :
    e.w = [] ∨ ∃ q, e.w = phraseChars q ∧ inDomain e.dict q = true :=
  h.current.imp (fun h => h.1) id

/-- ENC.CHAR from a valid state does not fault. -/
theorem Enc.charStep_goes {p : Params} {e : Enc} (h : e.ScanOk p) : (e.charStep p).Goes := by
  have rest : ∀ (c : Char16) (f : Enc), (f.w = [] ∨ ∃ q, f.w = phraseChars q ∧ inDomain f.dict q = true) →
      Run.Goes (if inDomain f.dict (extend f.w c) then .ok () { f with w := phraseChars (extend f.w c) }
        else (f.emitMatch p).andThen fun _ g => (g.register p (extend f.w c)).andThen fun _ g => .ok () { g with w := [c] }) := by
    intro c f hf
    split
    · exact .ok
    · exact (Enc.emitMatch_goes p hf).andThen fun _ _ => (Enc.register_goes _ _ _).andThen fun _ _ => .ok
  unfold Enc.charStep
  dsimp only
  split
  · exact rest _ _ h.match_coded
  · unfold Enc.registerChar
    split
    · exact .ended
    · refine rest _ _ (h.match_coded.imp id fun ⟨q, hw, hq⟩ => ⟨q, hw, ?_⟩)
      simp only [inDomain_assign, hq, Bool.or_true]

/-- ENC.FINISH from a valid state does not fault. -/
theorem Enc.finishStep_goes {p : Params} {e : Enc} (h : e.ScanOk p) : (e.finishStep p).Goes := by
  unfold Enc.finishStep Enc.putLsb Enc.flush
  exact (Enc.emitMatch_goes p h.match_coded).andThen fun _ _ => (Enc.putBits_goes _ _ _).andThen fun _ _ =>
    (Enc.putBits_goes _ _ _).andThen fun _ _ => .ended

/-! ### Reading does not fault -/

theorem Dec.getBits_goes (n : Nat) (d : Dec) : (d.getBits n).Goes := by
  induction n generalizing d with
  | zero => exact .ok
  | succ n ih =>
    refine Run.Goes.andThen ?_ fun _ e => (ih e).andThen fun _ _ => .ok
    unfold Dec.getBit
    split
    · exact .ended
    · exact .ok

theorem Dec.fetchHeader_goes (p : Params) (d : Dec) : (d.fetchHeader p).Goes := by
  unfold Dec.fetchHeader Dec.getLsb Dec.getMsb
  refine ((Dec.getBits_goes 2 d).andThen fun _ _ => .ok).andThen fun code e => ?_
  split
  · exact ((Dec.getBits_goes 8 e).andThen fun _ _ => .ok).andThen fun _ _ => .ok
  · exact ((Dec.getBits_goes 16 e).andThen fun _ _ => .ok).andThen fun _ _ => .ok
  all_goals exact .ok

theorem Dec.fetchLoop_goes (p : Params) (d : Dec) : (d.fetchLoop p).Goes := by
  unfold Dec.fetchLoop Dec.getLsb Dec.getMsb
  refine ((Dec.getBits_goes d.numBits d).andThen fun _ _ => .ok).andThen fun code e => ?_
  split
  · exact ((Dec.getBits_goes 8 e).andThen fun _ _ => .ok).andThen fun _ _ => .ok
  · exact ((Dec.getBits_goes 16 e).andThen fun _ _ => .ok).andThen fun _ _ => .ok
  all_goals exact .ok

/-- DEC.HEADER completes from every state, and changes nothing but the decoder. -/
theorem execDecHeader_goes (s : State) : ∃ d, execDecHeader s = .next { s with dec := d } := by
  unfold execDecHeader
  cases h : s.dec.fetchHeader s.cfg with
  | ok t d => exact runHeaderToken_goes t { s with dec := d }
  | ended d => exact ⟨d, rfl⟩
  | fault f => exact absurd h (Dec.fetchHeader_goes _ _ f)

/-- DEC.TOKEN completes from every state, and changes nothing but the decoder. -/
theorem execDecToken_goes (s : State) : ∃ d, execDecToken s = .next { s with dec := d } := by
  unfold execDecToken
  split
  · split
    · exact ⟨_, rfl⟩
    · exact ⟨_, rfl⟩
  · cases h : s.dec.fetchLoop s.cfg with
    | ok t d => exact runLoopToken_goes t { s with dec := d }
    | ended d => exact ⟨d, rfl⟩
    | fault f => exact absurd h (Dec.fetchLoop_goes _ _ f)

end Sys2Proof.Machine
end

