-- ==== Sys2Proof/Laws/Host.lean ====
section
/-! SUPPORT. What an access of the host, and so a step, can do to each engine: every case once (R21 to R26, R35, R60, R310, R316). -/

namespace Sys2Proof.Machine

/-- What START leaves of an encoder, run to its end or ended (R180). -/
def Enc.StartedAs (p : Params) (e e' : Enc) : Prop := ∃ absent, e.start p absent = .ok () e' ∨ e.start p absent = .ended e'

/-- What START leaves of a decoder, run to its end or ended (R220). -/
def Dec.StartedAs (p : Params) (d d' : Dec) : Prop := ∃ absent, d.start p absent = .ok () d' ∨ d.start p absent = .ended d'

/-- What an access of the host can make of an encoder. -/
inductive Enc.Hosted (p : Params) (e : Enc) : Enc → Prop where
  | same : Enc.Hosted p e e
  | width (v : BitVec 8) : Enc.Hosted p e { e with bpcReg := v }
  | length (v : Nat) : Enc.Hosted p e { e with lenReg := v }
  | store (i : Nat) (c : Char16) (h : isBusy e.status = false) :
      Enc.Hosted p e { e with inMem := Memory.write e.inMem i c }
  | start (f : Enc) (h : e.StartedAs p f) : Enc.Hosted p e f
  | reset (m : Memory Char16) (n : Memory Symbol) (hm : Memory.wf m) (hn : Memory.wf n) :
      Enc.Hosted p e { Enc.reset with inMem := m, outMem := n }

/-- What an access of the host can make of a decoder. -/
inductive Dec.Hosted (p : Params) (d : Dec) : Dec → Prop where
  | same : Dec.Hosted p d d
  | mask (v : Nat) : Dec.Hosted p d { d with resetReg := v }
  | length (v : Nat) : Dec.Hosted p d { d with lenReg := v }
  | store (i : Nat) (v : Symbol) (h : isBusy d.status = false) :
      Dec.Hosted p d { d with inMem := Memory.write d.inMem i v }
  | start (f : Dec) (h : d.StartedAs p f) : Dec.Hosted p d f
  | reset (m : Memory Symbol) (n : Memory Char16) (hm : Memory.wf m) (hn : Memory.wf n) :
      Dec.Hosted p d { Dec.reset with inMem := m, outMem := n }

/-- What an access of the host can come to: a refusal, or a next state with the same parameters. -/
inductive Hosted (s : State) : Host.Outcome State Fault Refusal → Prop where
  | refused (r : Refusal) : Hosted s (.refused r)
  | next (t : State) (hp : t.cfg = s.cfg) (he : s.enc.Hosted s.cfg t.enc) (hd : s.dec.Hosted s.cfg t.dec) : Hosted s (.next t)

/-- START of an encoder does not fault. -/
theorem Enc.start_goes (p : Params) (absent : Bool) (e : Enc) : (e.start p absent).Goes := by
  unfold Enc.start
  dsimp only
  repeat' split
  all_goals first | exact .ok | exact .ended

/-- START of a decoder does not fault. -/
theorem Dec.start_goes (p : Params) (absent : Bool) (d : Dec) : (d.start p absent).Goes := by
  unfold Dec.start
  dsimp only
  repeat' split
  all_goals first | exact .ok | exact .ended

theorem encStart_hosted (s : State) (absent : Bool) : Hosted s (encOutcome s (s.enc.start s.cfg absent)) := by
  cases h : s.enc.start s.cfg absent with
  | ok a e => exact .next _ rfl (.start e ⟨absent, .inl h⟩) .same
  | ended e => exact .next _ rfl (.start e ⟨absent, .inr h⟩) .same
  | fault f => exact absurd h (Enc.start_goes _ _ _ f)

theorem decStart_hosted (s : State) (absent : Bool) : Hosted s (decOutcome s (s.dec.start s.cfg absent)) := by
  cases h : s.dec.start s.cfg absent with
  | ok a d => exact .next _ rfl .same (.start d ⟨absent, .inl h⟩)
  | ended d => exact .next _ rfl .same (.start d ⟨absent, .inr h⟩)
  | fault f => exact absurd h (Dec.start_goes _ _ _ f)

/-- A command word starts its engine or does nothing (R22, R35). -/
theorem command_hosted (s : State) (c : Engine) (w : Nat) : Hosted s (exec (decodeCommand c w) s) := by
  have same : Hosted s (.next s) := .next s rfl .same .same
  unfold decodeCommand
  cases c <;> cases w.testBit 0 <;> cases w.testBit 1
  · exact same
  · exact same
  · exact encStart_hosted s false
  · exact encStart_hosted s true
  · exact same
  · exact same
  · exact decStart_hosted s false
  · exact decStart_hosted s true

theorem writeReg_hosted (n : Fin 16) (v : Nat) (s : State) : Hosted s (writeReg n v s) := by
  unfold writeReg
  split
  · exact command_hosted s .enc v
  · unfold writeEncBpc
    split
    · exact .next _ rfl (.width _) .same
    · exact .refused _
  · unfold writeEncLen
    split
    · exact .next _ rfl (.length _) .same
    · exact .refused _
  · exact command_hosted s .dec v
  · unfold writeDecReset
    split
    · exact .next _ rfl .same (.mask _)
    · exact .refused _
  · unfold writeDecLen
    split
    · exact .next _ rfl .same (.length _)
    · exact .refused _
  · exact .next _ rfl .same .same

theorem readReg_hosted (n : Fin 16) (s : State) : Hosted s (readReg n s) := by
  unfold readReg readOutLen returnsFree returns
  repeat' split
  all_goals exact .next _ rfl .same .same

/-- An access of the host does one of these things. -/
theorem hostAccess_hosted (a : HostAccess) (s : State) : Hosted s (hostAccess a s) := by
  cases a with
  | writeReg n v => exact writeReg_hosted n v s
  | readReg n => exact readReg_hosted n s
  | writeEncIn i c =>
    unfold hostAccess writeEncIn
    cases h : isBusy s.enc.status with
    | true => exact .refused _
    | false => exact .next _ rfl (.store i c h) .same
  | writeDecIn i v =>
    unfold hostAccess writeDecIn
    cases h : isBusy s.dec.status with
    | true => exact .refused _
    | false =>
      simp only [Bool.false_eq_true, if_false]
      split
      · exact .next _ rfl .same (.store i v h)
      · exact .refused _
  | readEncOut i =>
    unfold hostAccess readEncOut returnsFree returns
    dsimp only
    repeat' split
    all_goals first | exact .refused _ | exact .next _ rfl .same .same
  | readDecOut i =>
    unfold hostAccess readDecOut returnsFree returns
    dsimp only
    repeat' split
    all_goals first | exact .refused _ | exact .next _ rfl .same .same
  | hardReset =>
    exact .next _ rfl (.reset _ _ (Memory.wf_ofCells _) (Memory.wf_ofCells _))
      (.reset _ _ (Memory.wf_ofCells _) (Memory.wf_ofCells _))

/-- A step is a step of one agent, with the schedule moved on. -/
theorem step_eq_agentStep (s : State) : ∃ a rest, step s = agentStep a { s with sched := rest } := by
  unfold step machineStep
  cases h : s.sched with
  | nil => exact ⟨defaultAgent s, [], by simp [← h]⟩
  | cons a rest => exact ⟨a, rest, rfl⟩

/-- A step of the host is one access, or nothing. -/
theorem hostStep_hosted (s : State) : Hosted s (hostStep s) := by
  unfold hostStep
  split
  · exact .next _ rfl .same .same
  · rename_i a rest _
    cases h : hostAccess a { s with host := rest } with
    | next t =>
      have := hostAccess_hosted a { s with host := rest }
      rw [h] at this
      cases this with
      | next t hp he hd => exact .next t hp he hd
    | fault f =>
      have := hostAccess_hosted a { s with host := rest }
      rw [h] at this
      cases this
    | refused r => exact .refused r

end Sys2Proof.Machine
end

