-- ==== Sys2Proof/Laws/PerInstr.lean ====
section
/-! SUPPORT. What holds of each instruction as syntax: the length of its encoding (R95, R96, R100, R110, R114). -/

namespace Sys2Proof.Laws

/-- The bits of a literal's payload (R94); 0 for an instruction that has none. -/
def payloadWidth : Instr → Nat
  | .hdrLit8 _ => 8
  | .hdrLit16 _ => 16
  | .lit8 _ => 8
  | .lit16 _ => 16
  | _ => 0

/-- Where the instruction has an encoding, it is one code of the port's width and the payload. -/
def EncodedLength.Statement (i : Instr) : Prop :=
  ∀ (p : Params) (q : Port) (bits : List Bool), encode p q i = some bits → bits.length = q.codeWidth + payloadWidth i

theorem EncodedLength.encStart : EncodedLength.Statement .encStart := by
  intro p q bits h
  cases q <;> simp [encode, Instr.fits] at h
  subst h
  rfl

theorem EncodedLength.encStartAbsent : EncodedLength.Statement .encStartAbsent := by
  intro p q bits h
  cases q <;> simp [encode, Instr.fits] at h
  subst h
  rfl

theorem EncodedLength.encNop (absent : Bool) : EncodedLength.Statement (.encNop absent) := by
  intro p q bits h
  cases q <;> simp [encode, Instr.fits] at h
  subst h
  rfl

theorem EncodedLength.decStart : EncodedLength.Statement .decStart := by
  intro p q bits h
  cases q <;> simp [encode, Instr.fits] at h
  subst h
  rfl

theorem EncodedLength.decStartAbsent : EncodedLength.Statement .decStartAbsent := by
  intro p q bits h
  cases q <;> simp [encode, Instr.fits] at h
  subst h
  rfl

theorem EncodedLength.decNop (absent : Bool) : EncodedLength.Statement (.decNop absent) := by
  intro p q bits h
  cases q <;> simp [encode, Instr.fits] at h
  subst h
  rfl

theorem EncodedLength.hdrLit8 (c : BitVec 8) : EncodedLength.Statement (.hdrLit8 c) := by
  intro p q bits h
  cases q <;> simp [encode, Instr.fits] at h
  subst h
  simp [Port.codeWidth, payloadWidth]

theorem EncodedLength.hdrLit16 (c : Char16) : EncodedLength.Statement (.hdrLit16 c) := by
  intro p q bits h
  cases q <;> simp [encode, Instr.fits] at h
  subst h
  simp [Port.codeWidth, payloadWidth]

theorem EncodedLength.hdrEos : EncodedLength.Statement .hdrEos := by
  intro p q bits h
  cases q <;> simp [encode, Instr.fits] at h
  subst h
  simp [Port.codeWidth, payloadWidth]

theorem EncodedLength.hdrIllegal : EncodedLength.Statement .hdrIllegal := by
  intro p q bits h
  cases q <;> simp [encode, Instr.fits] at h
  subst h
  simp [Port.codeWidth, payloadWidth]

theorem EncodedLength.lit8 (c : BitVec 8) : EncodedLength.Statement (.lit8 c) := by
  intro p q bits h
  cases q <;> simp [encode, Instr.fits, Port.loops] at h
  obtain ⟨-, rfl⟩ := h
  simp [payloadWidth]

theorem EncodedLength.lit16 (c : Char16) : EncodedLength.Statement (.lit16 c) := by
  intro p q bits h
  cases q <;> simp [encode, Instr.fits, Port.loops] at h
  obtain ⟨-, rfl⟩ := h
  simp [payloadWidth]

theorem EncodedLength.eos : EncodedLength.Statement .eos := by
  intro p q bits h
  cases q <;> simp [encode, Instr.fits, Port.loops] at h
  obtain ⟨-, rfl⟩ := h
  simp [payloadWidth]

theorem EncodedLength.ref (k : Nat) : EncodedLength.Statement (.ref k) := by
  intro p q bits h
  cases q <;> simp [encode, Instr.fits, Port.loops] at h
  obtain ⟨-, rfl⟩ := h
  simp [payloadWidth]

theorem EncodedLength.refnew : EncodedLength.Statement .refnew := by
  intro p q bits h
  cases q <;> simp [encode, Instr.fits, Port.loops] at h
  obtain ⟨-, rfl⟩ := h
  simp [payloadWidth]

theorem EncodedLength.illegal (k : Nat) : EncodedLength.Statement (.illegal k) := by
  intro p q bits h
  cases q <;> simp [encode, Instr.fits, Port.loops] at h
  obtain ⟨-, rfl⟩ := h
  simp [payloadWidth]

theorem EncodedLength.pad : EncodedLength.Statement .pad := by
  intro p q bits h
  cases q <;> simp [encode, Instr.fits, Port.pads, Port.wf] at h
  obtain ⟨-, rfl⟩ := h
  simp [payloadWidth]

theorem EncodedLength.tick (e : Engine) : EncodedLength.Statement (.tick e) := by
  intro p q bits h
  cases h

theorem EncodedLength.putbit (b : Bool) : EncodedLength.Statement (.putbit b) := by
  intro p q bits h
  cases h

theorem EncodedLength.putlsb (v n : Nat) : EncodedLength.Statement (.putlsb v n) := by
  intro p q bits h
  cases h

theorem EncodedLength.putmsb (v m : Nat) : EncodedLength.Statement (.putmsb v m) := by
  intro p q bits h
  cases h

theorem EncodedLength.flush : EncodedLength.Statement .flush := by
  intro p q bits h
  cases h

theorem EncodedLength.getbit : EncodedLength.Statement .getbit := by
  intro p q bits h
  cases h

theorem EncodedLength.refill : EncodedLength.Statement .refill := by
  intro p q bits h
  cases h

theorem EncodedLength.getlsb (n : Nat) : EncodedLength.Statement (.getlsb n) := by
  intro p q bits h
  cases h

theorem EncodedLength.getmsb (m : Nat) : EncodedLength.Statement (.getmsb m) := by
  intro p q bits h
  cases h

theorem EncodedLength.encChar : EncodedLength.Statement .encChar := by
  intro p q bits h
  cases h

theorem EncodedLength.registerChar (c : Char16) : EncodedLength.Statement (.registerChar c) := by
  intro p q bits h
  cases h

theorem EncodedLength.register (wc : Phrase) : EncodedLength.Statement (.register wc) := by
  intro p q bits h
  cases h

theorem EncodedLength.emit (p : Phrase) : EncodedLength.Statement (.emit p) := by
  intro p q bits h
  cases h

theorem EncodedLength.emitLiteral (p : Phrase) : EncodedLength.Statement (.emitLiteral p) := by
  intro p q bits h
  cases h

theorem EncodedLength.encFinish : EncodedLength.Statement .encFinish := by
  intro p q bits h
  cases h

theorem EncodedLength.decHeader : EncodedLength.Statement .decHeader := by
  intro p q bits h
  cases h

theorem EncodedLength.decToken : EncodedLength.Statement .decToken := by
  intro p q bits h
  cases h

theorem EncodedLength.registerLit (c : Char16) : EncodedLength.Statement (.registerLit c) := by
  intro p q bits h
  cases h

theorem EncodedLength.registerPhrase (p : Phrase) : EncodedLength.Statement (.registerPhrase p) := by
  intro p q bits h
  cases h

theorem EncodedLength.outAppend (x : OutItem) : EncodedLength.Statement (.outAppend x) := by
  intro p q bits h
  cases h

theorem EncodedLength.finish (e : Engine) (k : Kind) : EncodedLength.Statement (.finish e k) := by
  intro p q bits h
  cases h

theorem EncodedLength.raise (e : Engine) (c : Cause) (info : Nat) : EncodedLength.Statement (.raise e c info) := by
  intro p q bits h
  cases h

end Sys2Proof.Laws
end

