-- ==== Sys2Proof/Laws/Steps.lean ====
section
/-! SUPPORT. What a step of each agent can do, once for all invariants (R183, R247, R326). -/

namespace Sys2Proof.Machine

/-! ### The engines -/

/-- A step of the encoder changes nothing, or runs its unit, after which the command goes on or is over. -/
theorem encStep_cases {s t : State} (h : encStep s = .next t) (hm : Memory.wf s.enc.outMem) :
    t = s ∨ (s.enc.phase = .scan ∧ ∃ e, t = { s with enc := e } ∧ exec (encUnit s.enc) s = .next t ∧
        (s.enc.On s.enc.outLen e ∨ s.enc.Over s.enc.outLen e)) := by
  unfold encStep at h
  cases hp : s.enc.phase with
  | idle => simp [hp] at h; exact .inl h.symm
  | done => simp [hp] at h; exact .inl h.symm
  | scan =>
    simp only [hp] at h
    refine .inr ⟨rfl, ?_⟩
    have h0 := h
    have key : ∀ r : Run Enc Unit, r.Post (s.enc.On s.enc.outLen) (s.enc.Over s.enc.outLen) →
        encOutcome s r = .next t → ∃ e, t = { s with enc := e } ∧ (s.enc.On s.enc.outLen e ∨ s.enc.Over s.enc.outLen e) := by
      intro r hr ho
      cases r with
      | ok a e => cases ho; exact ⟨e, rfl, .inl (hr.1 _ _ rfl)⟩
      | ended e => cases ho; exact ⟨e, rfl, .inr (hr.2 _ rfl)⟩
      | fault f => cases ho
    have hr := Enc.On.refl (n := s.enc.outLen) (e := s.enc) hm (Nat.le_refl _)
    unfold encUnit at h
    split at h
    · obtain ⟨e, a, b⟩ := key _ hr.charStep h; exact ⟨e, a, h0, b⟩
    · obtain ⟨e, a, b⟩ := key _ hr.finishStep h; exact ⟨e, a, h0, b⟩

/-- What a unit of the decoder leaves of its command: it goes on, perhaps from the header into the loop, or it is over. -/
def Dec.Left (d e : Dec) : Prop :=
  e.inMem = d.inMem ∧ Memory.wf e.outMem ∧
  ((e.status = d.status ∧ (e.phase = d.phase ∨ (d.phase = .header ∧ e.phase = .loop))) ∨
    (e.phase = .done ∧ e.status ∈ [statusFinished .seq, statusFinished .overrun, statusFailed .truncatedInput,
      statusFailed .corruptCode, statusFailed .capacityExceeded]))

theorem Dec.On.left {n m l : Nat} {d e : Dec} (h : d.On n m l e) : Dec.Left d e := ⟨h.inMem, h.canonical, .inl
    ⟨h.status, .inl h.phase⟩⟩
theorem Dec.Over.left {n m : Nat} {d e : Dec} (h : d.Over n m e) : Dec.Left d e := ⟨h.inMem, h.canonical, .inr ⟨h.phase, by
  have := h.status; simp at this ⊢; tauto⟩⟩

theorem Dec.Left.of_post {d : Dec} {r : Run Dec Unit} {s t : State} (h : r.Post (Dec.Left d) (Dec.Left d)) (ho :
    decOutcome s r = .next t) : ∃ e, t = { s with dec := e } ∧ Dec.Left d e := by
  cases r with
  | ok a e => cases ho; exact ⟨e, rfl, (h.1 _ _ rfl)⟩
  | ended e => cases ho; exact ⟨e, rfl, (h.2 _ rfl)⟩
  | fault f => cases ho
theorem Run.Post.mono {σ α : Type} {P P' Q Q' : σ → Prop} {r : Run σ α} (h : r.Post P Q) (a : ∀ s, P s → P' s) (b :
    ∀ s, Q s → Q' s) : r.Post P' Q' :=
  ⟨fun x t e => a _ (h.1 x t e), fun t e => b _ (h.2 t e)⟩

theorem Dec.Left.trans {d e f : Dec} (h : Dec.Left d e) (hp : e.phase = d.phase) (hs : e.status = d.status) (g :
    Dec.Left e f) : Dec.Left d f := by
  obtain ⟨a1, a2, a3⟩ := h
  obtain ⟨b1, b2, b3⟩ := g
  refine ⟨b1.trans a1, b2, ?_⟩
  rw [hp, hs] at b3; exact b3

/-- A step of the decoder changes nothing but the decoder, and leaves it as it was or as its unit leaves it. -/
theorem decStep_cases {s t : State} (h : decStep s = .next t) (hm : Memory.wf s.dec.outMem) :
    ∃ d, t = { s with dec := d } ∧ (d = s.dec ∨ Dec.Left s.dec d) := by
  unfold decStep at h
  have tail : ∀ (d : Dec) k, Memory.wf d.outMem → (d.tail s.cfg k).Post (Dec.Left d) (Dec.Left d) := fun d k hd =>
    Run.Post.mono (Dec.On.tail (Dec.On.refl hd) k (Nat.le_refl _)) (fun _ ⟨_, x⟩ => Dec.On.left x) (fun _ => Dec.Over.left)
  have lit : ∀ (d : Dec) c, Memory.wf d.outMem → (d.literal s.cfg c).Post (Dec.Left d) (Dec.Left d) := fun d k hd =>
    Run.Post.mono (Dec.On.literal (Dec.On.refl hd) k (Nat.le_refl _)) (fun _ ⟨_, x⟩ => Dec.On.left x)
        (fun _ => Dec.Over.left)
  cases hp : s.dec.phase with
  | idle => simp [hp] at h; exact ⟨_, h.symm, .inl rfl⟩
  | done => simp [hp] at h; exact ⟨_, h.symm, .inl rfl⟩
  | header =>
    simp only [hp, exec, execDecHeader] at h
    have hf := Dec.On.fetchHeader (p := s.cfg) (Dec.On.refl (m := 0) (d := s.dec) hm)
    cases hx : s.dec.fetchHeader s.cfg with
    | fault f => rw [hx] at h; cases h
    | ended d => rw [hx] at h; cases h; exact ⟨_, rfl, .inr (Dec.Over.left (hf.2 _ hx))⟩
    | ok tk d =>
      rw [hx] at h
      have hd := hf.1 _ _ hx
      have hk := Dec.On.left hd
      have tr : ∀ {f}, Dec.Left d f → Dec.Left s.dec f := fun g => Dec.Left.trans hk hd.phase hd.status g
      have hl : ∀ c, (d.headerLiteral s.cfg c).Post (Dec.Left s.dec) (Dec.Left s.dec) := fun c => by
        refine Run.Post.mono (Dec.On.headerLiteral (Dec.On.refl (d := d) hd.canonical) c (Nat.le_refl _)) ?_
            (fun _ x => tr (Dec.Over.left x))
        rintro _ ⟨g, hg, rfl⟩
        have := tr (Dec.On.left hg)
        refine ⟨this.1, this.2.1, .inl ⟨?_, .inr ⟨hp, rfl⟩⟩⟩
        exact hg.status.trans hd.status
      cases tk with
      | lit8 c => obtain ⟨e, a, b⟩ := Dec.Left.of_post (hl _) h; exact ⟨e, a, .inr b⟩
      | lit16 c => obtain ⟨e, a, b⟩ := Dec.Left.of_post (hl _) h; exact ⟨e, a, .inr b⟩
      | eos => cases h; exact ⟨_, rfl, .inr ⟨hk.1, hk.2.1, .inr ⟨rfl, by simp⟩⟩⟩
      | illegal => cases h; exact ⟨_, rfl, .inr ⟨hk.1, hk.2.1, .inr ⟨rfl, by simp⟩⟩⟩
  | loop =>
    simp only [hp, exec, execDecToken] at h
    split at h
    · split at h
      · cases h; exact ⟨_, rfl, .inr ⟨rfl, hm, .inr ⟨rfl, by simp⟩⟩⟩
      · cases h; exact ⟨_, rfl, .inr ⟨rfl, hm, .inr ⟨rfl, by simp⟩⟩⟩
    have hf := Dec.On.fetchLoop (p := s.cfg) (Dec.On.refl (m := 0) (d := s.dec) hm)
    cases hx : s.dec.fetchLoop s.cfg with
    | fault f => rw [hx] at h; cases h
    | ended d => rw [hx] at h; cases h; exact ⟨_, rfl, .inr (Dec.Over.left (hf.2 _ hx))⟩
    | ok tk d =>
      rw [hx] at h
      have hd := hf.1 _ _ hx
      have hk := Dec.On.left hd
      have tr : ∀ {f}, Dec.Left d f → Dec.Left s.dec f := fun g => Dec.Left.trans hk hd.phase hd.status g
      have ht : ∀ k, (d.tail s.cfg k).Post (Dec.Left s.dec) (Dec.Left s.dec) :=
          fun k => Run.Post.mono (tail d k hd.canonical) (fun _ => tr) (fun _ => tr)
      have hl : ∀ c, (d.literal s.cfg c).Post (Dec.Left s.dec) (Dec.Left s.dec) :=
          fun k => Run.Post.mono (lit d k hd.canonical) (fun _ => tr) (fun _ => tr)
      cases tk with
      | lit8 c => obtain ⟨e, a, b⟩ := Dec.Left.of_post (hl _) h; exact ⟨e, a, .inr b⟩
      | lit16 c => obtain ⟨e, a, b⟩ := Dec.Left.of_post (hl _) h; exact ⟨e, a, .inr b⟩
      | ref k => obtain ⟨e, a, b⟩ := Dec.Left.of_post (ht _) h; exact ⟨e, a, .inr b⟩
      | refnew => obtain ⟨e, a, b⟩ := Dec.Left.of_post (ht _) h; exact ⟨e, a, .inr b⟩
      | eos => cases h; exact ⟨_, rfl, .inr ⟨hk.1, hk.2.1, .inr ⟨rfl, by simp⟩⟩⟩
      | illegal k => cases h; exact ⟨_, rfl, .inr ⟨hk.1, hk.2.1, .inr ⟨rfl, by simp⟩⟩⟩

/-- A START of the encoder is ignored, or begins a valid scan, or ends at once (R180 to R182, log 30). -/
theorem Enc.StartedAs.leaves {p : Params} {e f : Enc} (h : e.StartedAs p f) : f = e ∨ (f.inMem = e.inMem ∧
    f.outMem = e.outMem ∧
   ((f.phase = .scan ∧ f.status = statusBusy ∧ f.ScanOk p) ∨ (f.phase = .done ∧
       f.status ∈ [statusFinished .seq, statusFailed .invalidArgument, statusFailed .capacityExceeded]))) := by
  obtain ⟨a, h⟩ := h
  by_cases hb : isBusy e.status = true
  · simp [Enc.start, hb] at h; exact .inl h.symm
  · right
    by_cases hl : legalBpc p e.bpcReg.toNat = true
    · cases a with
      | true => simp [Enc.start, hb, hl] at h; subst h; exact ⟨rfl, rfl, .inr ⟨rfl, by simp⟩⟩
      | false =>
        cases hf : dictFull p 2 with
        | true => simp [Enc.start, hb, hl, hf] at h; subst h; exact ⟨rfl, rfl, .inr ⟨rfl, by simp⟩⟩
        | false =>
        obtain ⟨g, hg, h1, h2, h3, h4, h5, h6, h7, h8, h9, -⟩ := Enc.start_ok (by simpa using hb) hl hf
        rw [hg] at h
        rcases h with h | h
        · cases h; exact ⟨h8, h9, .inl ⟨h2, h3, h1⟩⟩
        · cases h
    · simp [Enc.start, hb, hl] at h; subst h; exact ⟨rfl, rfl, .inr ⟨rfl, by simp⟩⟩

/-- A START of the decoder is ignored, or comes to a valid header, or ends at once (R220 to R223). -/
theorem Dec.StartedAs.leaves {p : Params} {e f : Dec} (h : e.StartedAs p f) : f = e ∨ (f.inMem = e.inMem ∧
    f.outMem = e.outMem ∧
   ((f.phase = .header ∧ f.status = statusBusy ∧ f.HeaderOk p) ∨ (f.phase = .done ∧
       f.status ∈ [statusFinished .seq, statusFinished .null, statusFailed .invalidArgument]))) := by
  obtain ⟨a, h⟩ := h
  by_cases hb : isBusy e.status = true
  · simp [Dec.start, hb] at h; exact .inl h.symm
  · right
    by_cases hl : legalReset p e.resetReg = true
    · cases a with
      | true => simp [Dec.start, hb, hl] at h; subst h; exact ⟨rfl, rfl, .inr ⟨rfl, by simp⟩⟩
      | false =>
        by_cases hz : e.lenReg = 0
        · simp [Dec.start, hb, hl, hz] at h; subst h; exact ⟨rfl, rfl, .inr ⟨rfl, by simp⟩⟩
        obtain ⟨g, hg, h1, h2, h3, h4, h5, h6⟩ := Dec.start_ok (by simpa using hb) hl hz
        rw [hg] at h
        rcases h with h | h
        · cases h; exact ⟨h5, h4, .inl ⟨h2, h3, h1⟩⟩
        · cases h
    · simp [Dec.start, hb, hl] at h; subst h; exact ⟨rfl, rfl, .inr ⟨rfl, by simp⟩⟩

/-! ### The machine -/

/-- A step is a step of the host, of the encoder or of the decoder. -/
theorem step_cases {s t : State} (h : step s = .next t) : ∃ r, (hostStep { s with sched := r } = .next t) ∨
    encStep { s with sched := r } = .next t ∨ decStep { s with sched := r } = .next t := by
  obtain ⟨a, r, h'⟩ := step_eq_agentStep s
  rw [h'] at h
  refine ⟨r, ?_⟩
  cases a with
  | host => exact .inl h
  | enc => exact .inr (.inl h)
  | dec => exact .inr (.inr h)

/-- A step of the host that answers a next state. -/
theorem hostStep_next {s t : State} (h : hostStep s = .next t) : t.cfg = s.cfg ∧ s.enc.Hosted s.cfg t.enc ∧
    s.dec.Hosted s.cfg t.dec := by
  have := hostStep_hosted s
  rw [h] at this
  cases this with
  | next _ a b c => exact ⟨a, b, c⟩

end Sys2Proof.Machine
end

