-- ==== Sys2Proof/Laws/Stores.lean ====
section
/-! SUPPORT. Which elements of ENC_OUT the encoder's operations store to, whatever its capacities (R62, R66, R151). -/

namespace Sys2Proof.Machine

/-- The elements of ENC_OUT below ENC_OUTLEN of `e`, and those from `m` on, read in `f` as in `e`. -/
def Enc.Outside (m : Nat) (e f : Enc) : Prop := ∀ a, a < e.outLen ∨ m ≤ a → Memory.read f.outMem a = Memory.read e.outMem a

/-- `f` is a later moment of the command of `e`: `x` bits have been appended since, the schedule is `nk`, and the elements outside
those from ENC_OUTLEN to `m` read as before. -/
structure Enc.Within (m x : Nat) (nk : Nat × Nat) (e f : Enc) : Prop where
  canonical : Memory.wf f.outMem
  width : f.bpc = e.bpc
  pos : f.pos < f.bpc
  count : f.outLen * e.bpc + f.pos = e.outLen * e.bpc + e.pos + x
  schedule : (f.numBits, f.enlargeIn) = nk
  outside : e.Outside m f

section
variable {m x : Nat} {nk : Nat × Nat} {e f g : Enc} {p : Params}

theorem Enc.Within.refl (hc : e.CursorOk) (hm : Memory.wf e.outMem) : e.Within m 0 (e.numBits, e.enlargeIn) e :=
  ⟨hm, rfl, hc.1, rfl, rfl, fun _ _ => rfl⟩

/-- A change of registers that are neither the cursor nor the schedule. -/
theorem Enc.Within.registers (h : e.Within m x nk f)
    (hg : g.outMem = f.outMem ∧ g.bpc = f.bpc ∧ g.pos = f.pos ∧ g.outLen = f.outLen) :
    e.Within m x (g.numBits, g.enlargeIn) g := by
  obtain ⟨h1, h2, h3, h4⟩ := hg
  refine ⟨h1 ▸ h.canonical, h2.trans h.width, by rw [h3, h2]; exact h.pos, by rw [h4, h3]; exact h.count, rfl, ?_⟩
  unfold Enc.Outside
  rw [h1]
  exact h.outside

theorem Enc.Within.putBit (h : e.Within m x nk f) (b : Bool) (hx : e.outLen + (e.pos + (x + 1)) / e.bpc ≤ m) :
    (f.putBit p b).Post (e.Within m (x + 1) nk) (e.Outside m) := by
  have hw := h.width
  have hp := h.pos
  have hc := h.count
  unfold Enc.putBit
  dsimp only
  split
  · rename_i heq
    unfold Enc.outAppend
    split
    · exact .ended h.outside
    · have hpos : 0 < e.bpc := by omega
      have hdiv : f.outLen + 1 = e.outLen + (e.pos + (x + 1)) / e.bpc := by
        have h3 : e.pos + (x + 1) + e.outLen * e.bpc = 0 + (f.outLen + 1) * e.bpc := by rw [Nat.add_mul]; omega
        have := congrArg (· / e.bpc) h3
        simp only [Nat.add_mul_div_right _ _ hpos, Nat.zero_div] at this
        omega
      have hle : e.outLen ≤ f.outLen := by
        by_contra hlt
        have := Nat.mul_le_mul_right e.bpc (show f.outLen + 1 ≤ e.outLen by omega)
        rw [Nat.add_mul] at this
        omega
      refine .ok ⟨Memory.wf_write _ _ h.canonical, hw, by simp only; omega, ?_, h.schedule, fun a ha => ?_⟩
      · simp only [Nat.add_mul]; omega
      · simp only
        rw [Memory.read_write h.canonical, if_neg (by omega), h.outside a ha]
  · exact .ok ⟨h.canonical, hw, by simp only at *; omega, by simp only; omega, h.schedule, h.outside⟩

theorem Enc.Within.putBits (h : e.Within m x nk f) (bs : List Bool)
    (hx : e.outLen + (e.pos + (x + bs.length)) / e.bpc ≤ m) :
    (f.putBits p bs).Post (e.Within m (x + bs.length) nk) (e.Outside m) := by
  induction bs generalizing f x with
  | nil => exact .ok h
  | cons b bs ih =>
    simp only [List.length_cons] at hx ⊢
    have hl : x + (bs.length + 1) = x + 1 + bs.length := by omega
    rw [hl] at hx ⊢
    refine (h.putBit b (Nat.le_trans ?_ hx)).andThen fun _ g hg => ih hg hx
    exact Nat.add_le_add_left (Nat.div_le_div_right (by omega)) _

/-- Sending the match (R184, R191) stores to the elements its bits complete, and leaves the schedule after its ticks. -/
theorem Enc.Within.emitMatch (hc : e.CursorOk) (hm : Memory.wf e.outMem)
    (hx : e.outLen + (e.pos + (e.matchBits p).length) / e.bpc ≤ m) :
    (e.emitMatch p).Post (fun f => e.Within m (e.matchBits p).length (f.numBits, f.enlargeIn) f ∧ f.numBits = e.widthAfterMatch)
      (e.Outside m) := by
  unfold Enc.emitMatch
  unfold Enc.matchBits at *
  unfold Enc.widthAfterMatch
  cases hw : e.w with
  | nil => exact Run.Post.ok ⟨Enc.Within.refl hc hm, rfl⟩
  | cons c cs =>
    simp only [hw] at hx ⊢
    rw [Enc.emit_eq]
    cases ht : e.tokenBits p { first := c, rest := cs } with
    | none => exact .fault
    | some bits =>
      simp only [ht, Option.getD_some] at hx ⊢
      have h0 := (Enc.Within.refl (m := m) hc hm).putBits (p := p) bits (by simpa using hx)
      refine h0.andThen fun _ g hg => .ok ?_
      rw [Nat.zero_add] at hg
      have hs := hg.schedule
      simp only [Prod.mk.injEq] at hs
      refine ⟨hg.registers ?_, ?_⟩
      · unfold Enc.emitted
        split <;> simp
      · unfold Enc.emitted
        by_cases hq : ({ first := c, rest := cs } : Phrase) ∈ e.pend <;> simp [hq, hs.1, hs.2]

theorem Enc.Outside.register {f : Enc} (h : e.Outside m f) (q : Phrase) : (f.register p q).Post (e.Outside m) (e.Outside m) := by
  unfold Enc.register
  split
  · exact .ended h
  · exact .ok h

/-- Registering a character never seen (R185) changes neither the token of a phrase in the dictionary nor what is stored. -/
theorem Enc.matchBits_registerChar {c : Char16} (hw : e.w = [] ∨ ∃ q, e.w = phraseChars q ∧ inDomain e.dict q = true)
    (hc : inDomain e.dict (single c) = false) (n k i : Nat) :
    Enc.matchBits p { e with ii := i, dict := assign e.dict (single c) n, dictSize := k, pend := insertPhrase (single c) e.pend } =
      e.matchBits p := by
  unfold Enc.matchBits
  rcases hw with hw | ⟨q, hw, hq⟩
  · simp [hw]
  · have hne : q ≠ single c := fun h => by rw [h, hc] at hq; cases hq
    have hpe : q ∈ insertPhrase (single c) e.pend ↔ q ∈ e.pend := by
      unfold insertPhrase
      split <;> simp [hne]
    simp only [hw, phraseChars]
    show (Enc.tokenBits p _ q).getD [] = (Enc.tokenBits p e q).getD []
    simp [Enc.tokenBits, hpe, find_assign, hne, literalBits]

/-- ENC.CHAR stores to the elements its bits complete. -/
theorem Enc.charStep_stores (h : e.ScanOk p) (hm : Memory.wf e.outMem)
    (hx : e.outLen + (e.pos + (e.charBits p).length) / e.bpc ≤ m) : (e.charStep p).Post (e.Outside m) (e.Outside m) := by
  have hw := h.current.imp (fun h => h.1) id
  have rest : ∀ f : Enc, f.outMem = e.outMem → f.outLen = e.outLen → f.pos = e.pos → f.bpc = e.bpc → f.acc = e.acc →
      f.w = e.w → f.matchBits p = e.matchBits p →
      (inDomain f.dict (extend e.w (Memory.read e.inMem e.ii)) = false →
        inDomain e.dict (extend e.w (Memory.read e.inMem e.ii)) = false) →
      Run.Post (e.Outside m) (e.Outside m)
        (if inDomain f.dict (extend f.w (Memory.read e.inMem e.ii)) then
            .ok () { f with w := phraseChars (extend f.w (Memory.read e.inMem e.ii)) }
          else (f.emitMatch p).andThen fun _ g =>
            (g.register p (extend f.w (Memory.read e.inMem e.ii))).andThen fun _ g =>
              .ok () { g with w := [Memory.read e.inMem e.ii] }) := by
    intro f h1 h2 h3 h4 h5 h6 h7 h8
    have out : ∀ g, f.Outside m g → e.Outside m g := fun g hg a ha => by rw [hg a (by rw [h2]; exact ha), h1]
    split
    · exact .ok fun a _ => by simp only; rw [h1]
    · rename_i hd
      rw [h6] at hd
      have hd' := h8 (by simpa using hd)
      simp only [Enc.charBits, hd', Bool.false_eq_true, if_false] at hx
      have he := Enc.Within.emitMatch (p := p) (m := m) (e := f) (by unfold Enc.CursorOk; rw [h3, h4, h5]; exact h.cursor) (by rw [h1]; exact hm)
        (by rw [h2, h3, h4, h7]; exact hx)
      refine Run.Post.andThen (P := e.Outside m) ⟨fun a t ht => out t (he.1 a t ht).1.outside, fun t ht => out t (he.2 t ht)⟩ ?_
      exact fun _ g hg => (hg.register _).andThen fun _ x hx => .ok hx
  unfold Enc.charStep
  dsimp only
  split
  · exact rest _ rfl rfl rfl rfl rfl rfl rfl id
  · rename_i hd
    unfold Enc.registerChar
    split
    · exact .ended fun _ _ => rfl
    · refine rest _ rfl rfl rfl rfl rfl rfl (Enc.matchBits_registerChar hw (by simpa using hd) _ _ _) fun hn => ?_
      simp only [inDomain_assign, Bool.or_eq_false_iff] at hn
      exact hn.2

/-- ENC.FINISH stores to the elements its bits complete. -/
theorem Enc.finishStep_stores (hc : e.CursorOk) (hm : Memory.wf e.outMem)
    (hx : e.outLen + (e.pos + (e.finishBits p).length) / e.bpc ≤ m) : (e.finishStep p).Post (e.Outside m) (e.Outside m) := by
  have hlen : (e.finishBits p).length = (e.matchBits p).length + e.widthAfterMatch +
      (e.bpc - (e.pos + ((e.matchBits p).length + e.widthAfterMatch)) % e.bpc) := by
    simp [Enc.finishBits, codeBits, Nat.add_assoc]
  have bound : ∀ k, k ≤ (e.finishBits p).length → e.outLen + (e.pos + k) / e.bpc ≤ m := fun k hk =>
    Nat.le_trans (Nat.add_le_add_left (Nat.div_le_div_right (by omega)) _) hx
  unfold Enc.finishStep Enc.putLsb Enc.flush
  refine (Enc.Within.emitMatch hc hm (bound _ (by omega))).andThen fun _ f hf => ?_
  obtain ⟨hf, hn⟩ := hf
  refine (hf.putBits (p := p) (codeBits 2 f.numBits) (bound _ (by simp [codeBits]; omega))).andThen fun _ g hg => ?_
  have hcount := hg.count
  have hgp := hg.pos
  rw [hg.width] at hgp
  have hpos : g.pos = (e.pos + ((e.matchBits p).length + e.widthAfterMatch)) % e.bpc := by
    have h3 : e.pos + ((e.matchBits p).length + e.widthAfterMatch) + e.bpc * e.outLen = g.pos + e.bpc * g.outLen := by
      rw [Nat.mul_comm e.bpc, Nat.mul_comm e.bpc]
      simp only [codeBits, List.length_map, List.length_range, hn] at hcount
      omega
    have := congrArg (· % e.bpc) h3
    simpa [Nat.mod_eq_of_lt hgp] using this.symm
  refine (hg.putBits (p := p) (List.replicate (g.bpc - g.pos) false) (bound _ ?_)).andThen fun _ x hx => .ended hx.outside
  simp only [List.length_replicate, codeBits, List.length_map, List.length_range, hg.width, hn, hpos]
  omega

end

end Sys2Proof.Machine
end

