-- ==== Sys2Proof/Laws/Sync.lean ====
section
/-! SUPPORT. The decoder in step with the encoder (R44, R238, R242): how the decoder that has consumed all bits sent so far stands to
the encoder that sent them, and what the next token does to the pair. -/

namespace Sys2Proof.Machine

/-- The encoder's dictionary as the decoder holds it: code to phrase. -/
def swapped (m : List (Phrase × Nat)) : List (Nat × Phrase) := m.map Prod.swap

@[simp] theorem swapped_append (m n : List (Phrase × Nat)) : swapped (m ++ n) = swapped m ++ swapped n := List.map_append
@[simp] theorem swapped_cons (q : Phrase) (k : Nat) (m : List (Phrase × Nat)) : swapped ((q, k) :: m) = (k, q) :: swapped m := rfl
@[simp] theorem swapped_nil : swapped [] = [] := rfl

/-- A pair listed once by its key is found. -/
theorem find_of_mem {κ β : Type} [DecidableEq κ] {m : List (κ × β)} {k : κ} {v : β} (hn : (m.map Prod.fst).Nodup)
    (h : (k, v) ∈ m) : find m k = some v := by
  induction m with
  | nil => cases h
  | cons a m ih =>
    obtain ⟨j, x⟩ := a
    simp only [List.map_cons, List.nodup_cons] at hn
    rcases List.mem_cons.1 h with h | h
    · cases h; simp [find]
    · have hj : j ≠ k := fun hj => hn.1 (hj ▸ List.mem_map.2 ⟨_, h, rfl⟩)
      simp [find, hj, ih hn.2 h]

/-- The decoder before the header token, and the encoder with its first character read and nothing sent. -/
structure AtHeader (p : Params) (e : Enc) (d : Dec) : Prop where
  scan : e.ScanOk p
  canonical : Memory.wf e.outMem
  header : d.HeaderOk p
  phase : d.phase = .header
  output : Memory.wf d.outMem
  first : ∃ c, e.w = [c] ∧ e.pend = [single c] ∧ e.dict = [(single c, 3)] ∧ e.dictSize = 4 ∧ e.numBits = 2 ∧
    e.enlargeIn = 2 ∧ [c] = Memory.slice e.inMem 0 e.ii

/-- The decoder in the loop: it lacks the phrase the encoder registered last, which begins with the decoder's previous phrase
and ends in the first character of the encoder's match, and that character too while it is pending. -/
structure InLoop (p : Params) (e : Enc) (d : Dec) : Prop where
  scan : e.ScanOk p
  canonical : Memory.wf e.outMem
  loop : d.LoopOk p
  phase : d.phase = .loop
  output : Memory.wf d.outMem
  widths : d.numBits = e.numBits ∧ d.enlargeIn = e.enlargeIn
  entries : ∃ c rest, e.w = c :: rest ∧
    ((e.pend = [] ∧ e.dictSize = d.dictSize + 1 ∧ swapped e.dict = d.dict ++ [(d.dictSize, append d.w c)]) ∨
      (e.pend = [single c] ∧ rest = [] ∧ e.dictSize = d.dictSize + 2 ∧
        swapped e.dict = d.dict ++ [(d.dictSize, single c), (d.dictSize + 1, append d.w c)]))
  text : d.output ++ e.w = Memory.slice e.inMem 0 e.ii

/-- The decoder after the token of the encoder's match `q`: its dictionary is the encoder's (R238, R244). -/
structure Received (p : Params) (e : Enc) (q : Phrase) (d d' : Dec) : Prop where
  loop : d'.LoopOk p
  phase : d'.phase = .loop
  canonical : Memory.wf d'.outMem
  dict : d'.dict = swapped e.dict
  size : d'.dictSize = e.dictSize
  previous : d'.w = q
  widths : (d'.numBits, d'.enlargeIn) =
    if q ∈ e.pend then tickPair (tickPair e.numBits e.enlargeIn).1 (tickPair e.numBits e.enlargeIn).2
    else tickPair e.numBits e.enlargeIn
  output : d'.output = d.output ++ phraseChars q

section
variable {p : Params} {e f : Enc} {d : Dec} {v : State} {q : Phrase} {bits rest : List Bool}

/-- The literal of a character, read back in the loop (R96, R99). -/
theorem decodeLoop_literal (c : Char16) (n : Nat) (h : 2 ≤ e.numBits) :
    ∃ t, decodeLoop p e.numBits n (literalBits p e c ++ rest) = .ok (t, rest) ∧
      ∀ s, runLoopToken t s = execLit16 c s := by
  have h1 : 1 % 2 ^ e.numBits = 1 := Nat.mod_eq_of_lt (Nat.one_lt_two_pow (by omega))
  unfold literalBits
  split
  · rename_i hc
    refine ⟨.lit8 (BitVec.ofNat 8 c.toNat), ?_, fun s => ?_⟩
    · simp [decodeLoop, takeBits_codeBits, takeBits_payloadBits, codeOfBits_codeBits, loopClass,
        payloadOfBits_payloadBits _ _ _ (show c.toNat < 2 ^ 8 from hc)]
    · have : (BitVec.ofNat 8 c.toNat).setWidth 16 = c := by
        apply BitVec.eq_of_toNat_eq
        simp only [BitVec.toNat_setWidth, BitVec.toNat_ofNat]
        omega
      simp only [runLoopToken, execLit8, execLit16, this]
  · refine ⟨.lit16 c, ?_, fun s => rfl⟩
    simp [decodeLoop, takeBits_codeBits, takeBits_payloadBits, codeOfBits_codeBits, loopClass, h1,
      payloadOfBits_payloadBits _ _ _ c.isLt]

/-- The literal of a character, read back in the header (R95, R99). -/
theorem decodeHeader_literal (c : Char16) (h : e.numBits = 2) :
    ∃ t, decodeHeader p (literalBits p e c ++ rest) = .ok (t, rest) ∧ ∀ s, runHeaderToken t s = execHdrLit16 c s := by
  unfold literalBits
  rw [h]
  split
  · rename_i hc
    refine ⟨.lit8 (BitVec.ofNat 8 c.toNat), ?_, fun s => ?_⟩
    · simp [decodeHeader, takeBits_codeBits, takeBits_payloadBits, codeOfBits_codeBits, headerClass,
        payloadOfBits_payloadBits _ _ _ (show c.toNat < 2 ^ 8 from hc)]
    · have : (BitVec.ofNat 8 c.toNat).setWidth 16 = c := by
        apply BitVec.eq_of_toNat_eq
        simp only [BitVec.toNat_setWidth, BitVec.toNat_ofNat]
        omega
      simp only [runHeaderToken, execHdrLit8, execHdrLit16, this]
  · refine ⟨.lit16 c, ?_, fun s => rfl⟩
    simp [decodeHeader, takeBits_codeBits, takeBits_payloadBits, codeOfBits_codeBits, headerClass,
      payloadOfBits_payloadBits _ _ _ c.isLt]

/-- Fetching in the loop where the decoder reads a token. -/
theorem execDecToken_of_decode {t : LoopToken} (hc : v.dec.CursorOk)
    (hd : decodeLoop v.cfg v.dec.numBits v.dec.dictSize v.dec.ahead = .ok (t, rest)) (hx : v.dec.exh = false) :
    ∃ d, v.dec.Moved d ∧ d.ahead = rest ∧ execDecToken v = runLoopToken t { v with dec := d } := by
  rcases Dec.fetchLoop_reads v.cfg hc with ⟨t', r, d, h1, h2, h3, h4⟩ | ⟨d, h1, -⟩
  · rw [hd] at h1
    cases h1
    exact ⟨d, h3, h4, by simp [execDecToken, hx, h2]⟩
  · rw [hd] at h1
    cases h1

/-- Fetching in the header where the decoder reads a token. -/
theorem execDecHeader_of_decode {t : HeaderToken} (hc : v.dec.CursorOk)
    (hd : decodeHeader v.cfg v.dec.ahead = .ok (t, rest)) :
    ∃ d, v.dec.Moved d ∧ d.ahead = rest ∧ execDecHeader v = runHeaderToken t { v with dec := d } := by
  rcases Dec.fetchHeader_reads v.cfg hc with ⟨t', r, d, h1, h2, h3, h4⟩ | ⟨d, h1, -⟩
  · rw [hd] at h1
    cases h1
    exact ⟨d, h3, h4, by simp [execDecHeader, h2]⟩
  · rw [hd] at h1
    cases h1

/-- Bits ahead mean that the input is not used up. -/
theorem Dec.not_exh (h : d.ahead ≠ []) : d.exh = false := by
  cases hx : d.exh with
  | false => rfl
  | true => exact absurd (Dec.ahead_eq_nil.2 hx) h

/-- The header token of the match (R228). -/
theorem AtHeader.token (hp : v.cfg.unbounded) (h : AtHeader v.cfg e v.dec) (hq : e.w = phraseChars q)
    (hb : e.tokenBits v.cfg q = some bits) (ha : v.dec.ahead = bits ++ rest) :
    ∃ d', execDecHeader v = .next { v with dec := d' } ∧ d'.ahead = rest ∧ Received v.cfg e q v.dec d' := by
  obtain ⟨c, hw, hpe, hdict, hsize, hn, hk, -⟩ := h.first
  have hqc : q = single c := phraseChars_inj (hq.symm.trans hw)
  subst hqc
  have hbits : bits = literalBits v.cfg e c := by
    simp only [Enc.tokenBits, hpe, List.mem_singleton, if_true, Option.some.injEq, single_first] at hb
    exact hb.symm
  obtain ⟨t, ht, hrun⟩ := decodeHeader_literal (p := v.cfg) (rest := rest) c hn
  obtain ⟨d1, hm, ha1, hex⟩ := execDecHeader_of_decode h.header.cursor (by rw [ha, hbits]; exact ht)
  obtain ⟨h1, h2, h3, h4, h5, h6, h7, h8, h9, h10, -⟩ := hm.eqs
  have hH : d1.HeaderOk v.cfg := ⟨by rw [h10]; exact h.header.mask, hm.cursor, h1.trans h.header.dict, h7.trans h.header.output⟩
  obtain ⟨g, hg, hwr⟩ := Dec.outAppend_ok (p := v.cfg) (d := d1) c (outFull_unbounded hp _) (by rw [h6]; exact h.output)
  obtain ⟨d2, hd2⟩ : ∃ d2 : Dec, { g with
    dict := assign g.dict 3 (single c), dictSize := 4, numBits := 3, enlargeIn := 4, w := single c, phase := .loop } = d2 :=
    ⟨_, rfl⟩
  refine ⟨d2, ?_, ?_, ?_⟩ <;> subst hd2
  · rw [hex, hrun]
    simp only [Dec.outAppend, outFull_unbounded hp, Bool.false_eq_true, if_false, Run.ok.injEq, true_and] at hg
    simp [execHdrLit16, Dec.headerLiteral, Dec.outAppend, dictFull_unbounded hp, outFull_unbounded hp, ← hg]
  · exact hwr.ahead_eq.trans ha1
  · have hdo : d1.output = v.dec.output := by rw [Dec.output, Dec.output, h6, h7]
    exact
      { loop := hH.loop c hwr
        phase := rfl
        canonical := hwr.canonical
        dict := by simp [hdict, hwr.eqs.1, hH.dict, assign]
        size := hsize.symm
        previous := rfl
        widths := by simp [hpe, hn, hk, tickPair]
        output := by rw [← hdo]; exact hwr.output }

/-- The code of a match that is not pending names the match in the decoder: it is stored there, or it is the phrase the token
registers (R237, R238). -/
theorem InLoop.resolve (h : InLoop p e d) (hq : e.w = phraseChars q) (hpe : e.pend = []) {k : Nat}
    (hk : find e.dict q = some k) : d.resolve k = some q ∧ 3 ≤ k ∧ k ≤ d.dictSize := by
  obtain ⟨c, r, hw, hcase⟩ := h.entries
  have hqc : q.first = c := by
    rw [hw] at hq
    exact (List.cons.inj hq).1.symm
  rcases hcase with ⟨-, hsize, hdict⟩ | ⟨hpe', -⟩
  · have hlt := h.scan.code_lt hk
    have hmem : (k, q) ∈ swapped e.dict := List.mem_map.2 ⟨_, find_mem hk, rfl⟩
    rw [hdict, List.mem_append, List.mem_singleton, Prod.mk.injEq] at hmem
    refine ⟨?_, hlt.1, by omega⟩
    rcases hmem with hmem | ⟨rfl, hqa⟩
    · have hnd : (d.dict.map Prod.fst).Nodup := by rw [h.loop.indices.2]; exact List.nodup_range' (step := 1) (by omega)
      have hf := find_of_mem hnd hmem
      have := h.loop.index_lt hf
      simp [Dec.resolve, this.2, hf]
    · have hcw : c = d.w.first := by rw [← hqc, hqa]; rfl
      unfold Dec.resolve
      rw [if_neg (Nat.lt_irrefl _), if_pos rfl, hqa, hcw]
  · rw [hpe] at hpe'
    cases hpe'

/-- The loop token of the match (R234, R236, R237). -/
theorem InLoop.token (hp : v.cfg.unbounded) (h : InLoop v.cfg e v.dec) (hq : e.w = phraseChars q)
    (hb : e.tokenBits v.cfg q = some bits) (ha : v.dec.ahead = bits ++ rest) :
    ∃ d', execDecToken v = .next { v with dec := d' } ∧ d'.ahead = rest ∧ Received v.cfg e q v.dec d' := by
  obtain ⟨c, r, hw, hcase⟩ := h.entries
  have hn2 : 2 ≤ e.numBits := h.scan.schedule.1
  rcases hcase with ⟨hpe, hsize, hdict⟩ | ⟨hpe, hr, hsize, hdict⟩
  · -- a reference
    have hqn : q ∉ e.pend := by simp [hpe]
    obtain ⟨k, hk, hkb⟩ : ∃ k, find e.dict q = some k ∧ codeBits k e.numBits = bits := by
      simpa [Enc.tokenBits, hqn] using hb
    obtain ⟨hres, h3, hle⟩ := h.resolve hq hpe hk
    have hkn : k < 2 ^ e.numBits := by
      have ht := h.scan.ticks
      have h1 := h.scan.schedule
      have := (h.scan.code_lt hk).2
      rw [hpe] at ht
      simp only [List.length_nil] at ht
      omega
    obtain ⟨t, ht, hrun⟩ : ∃ t, decodeLoop v.cfg v.dec.numBits v.dec.dictSize v.dec.ahead = .ok (t, rest) ∧
        ∀ s : State, s.dec.dictSize = v.dec.dictSize → runLoopToken t s = decOutcome s (s.dec.tail s.cfg k) := by
      rw [ha, ← hkb, h.widths.1]
      by_cases hlt : k < v.dec.dictSize
      · refine ⟨.ref k, ?_, fun s _ => rfl⟩
        have hcl : loopClass v.dec.dictSize k = .stored := by
          unfold loopClass; rw [if_neg (by omega), if_neg (by omega), if_neg (by omega), if_pos hlt]
        simp [decodeLoop, takeBits_codeBits, codeOfBits_codeBits, Nat.mod_eq_of_lt hkn, hcl]
      · have hkd : k = v.dec.dictSize := by omega
        refine ⟨.refnew, ?_, fun s hs => by rw [hkd, ← hs]; rfl⟩
        have hcl : loopClass v.dec.dictSize k = .selfRef := by
          unfold loopClass; rw [if_neg (by omega), if_neg (by omega), if_neg (by omega), if_neg hlt, if_pos hkd]
        simp [decodeLoop, takeBits_codeBits, codeOfBits_codeBits, Nat.mod_eq_of_lt hkn, hcl]
    have hx : v.dec.exh = false := Dec.not_exh (by
      rw [ha, ← hkb]
      intro h0
      have := congrArg List.length h0
      simp at this
      omega)
    obtain ⟨d1, hm, ha1, hex⟩ := execDecToken_of_decode h.loop.cursor ht hx
    obtain ⟨h1, h2, h3', h4, h5, h6, h7, h8, -⟩ := hm.eqs
    have hres1 : d1.resolve k = some q := by unfold Dec.resolve; rw [h1, h2, h5]; exact hres
    obtain ⟨g, hwr, htail⟩ := Dec.tail_ok hp hres1 (by rw [h6]; exact h.output)
    have hdo : d1.output = v.dec.output := by rw [Dec.output, Dec.output, h6, h7]
    have hqc : q.first = c := by
      rw [hw] at hq
      exact (List.cons.inj hq).1.symm
    obtain ⟨g1, g2, g3, g4, g5, g6, g7⟩ := hwr.eqs
    refine ⟨g.registered q, ?_, hwr.ahead_eq.trans ha1, ?_⟩
    · rw [hex, hrun _ h2]
      simp only [htail, decOutcome_ok]
    · exact
        { loop := (h.loop.moved hm).registered hres1 hwr
          phase := by rw [← h.phase, ← h8, ← g6]; rfl
          canonical := hwr.canonical
          dict := by
            simp only [Dec.registered, g1, g2, g5, h1, h2, h5, assign_new _ _ _ h.loop.next_free, hdict, hqc]
          size := by simp only [Dec.registered, g2, h2, hsize]
          previous := rfl
          widths := by simp only [Dec.registered, g3, g4, h3', h4, h.widths.1, h.widths.2, hqn, if_false]
          output := by
            rw [← hdo]
            exact hwr.output }
  · -- a literal
    have hqc : q = single c := phraseChars_inj (by rw [← hq, hw, hr]; rfl)
    subst hqc
    have hbits : bits = literalBits v.cfg e c := by
      simp only [Enc.tokenBits, hpe, List.mem_singleton, if_true, Option.some.injEq, single_first] at hb
      exact hb.symm
    obtain ⟨t, ht, hrun⟩ := decodeLoop_literal (p := v.cfg) (rest := rest) c v.dec.dictSize hn2
    have hx : v.dec.exh = false := Dec.not_exh (by
      rw [ha, hbits]
      intro h0
      have := congrArg List.length h0
      unfold literalBits at this
      split at this
      · simp at this
      · simp at this)
    obtain ⟨d1, hm, ha1, hex⟩ := execDecToken_of_decode h.loop.cursor
      (by rw [h.widths.1, ha, hbits]; exact ht) hx
    obtain ⟨h1, h2, h3', h4, h5, h6, h7, h8, -⟩ := hm.eqs
    obtain ⟨g, hwr, hlit⟩ := Dec.literal_ok hp c (d := d1) (by rw [h6]; exact h.output)
    have hdo : d1.output = v.dec.output := by rw [Dec.output, Dec.output, h6, h7]
    obtain ⟨g1, g2, g3, g4, g5, g6, g7⟩ := hwr.eqs
    simp only at g1 g2 g3 g4 g5 g6
    have hreg := (h.loop.moved hm).register (single c)
    have hnext : find (assign v.dec.dict v.dec.dictSize (single c)) (v.dec.dictSize + 1) = none := by
      have := hreg.next_free
      simp only [h1, h2] at this
      exact this
    refine ⟨g.registered (single c), ?_, hwr.ahead_eq.trans ha1, ?_⟩
    · rw [hex, hrun]
      simp only [execLit16, hlit, decOutcome_ok]
    · exact
        { loop := hreg.registered (k := d1.dictSize) (by simp [Dec.resolve, find_assign]) hwr
          phase := by rw [← h.phase, ← h8, ← g6]; rfl
          canonical := hwr.canonical
          dict := by
            simp only [Dec.registered, g1, g2, g5, h1, h2, h5, single_first]
            rw [assign_new _ _ _ hnext, assign_new _ _ _ h.loop.next_free, hdict]
            simp
          size := by simp only [Dec.registered, g2, h2, hsize]
          previous := rfl
          widths := by
            simp only [Dec.registered, g3, g4, h3', h4, h.widths.1, h.widths.2, hpe, List.mem_singleton, if_true]
          output := by
            rw [← hdo]
            exact hwr.output }

/-- A step that extends the match leaves the pair as it stands (R186). -/
theorem InLoop.hit (h : InLoop p e d) (hf : f.ScanOk p) (hq : e.w = phraseChars q) (hpe : e.pend = [])
    (heq : f = { e with ii := e.ii + 1, w := phraseChars (append q (Memory.read e.inMem e.ii)) }) : InLoop p f d := by
  obtain ⟨c, r, hw, hcase⟩ := h.entries
  have hchars : phraseChars (append q (Memory.read e.inMem e.ii)) = c :: (r ++ [Memory.read e.inMem e.ii]) := by
    rw [phraseChars_append, ← hq, hw]; rfl
  rcases hcase with ⟨h1, h2, h3⟩ | ⟨h1, -⟩
  · exact
      { scan := hf
        canonical := by rw [heq]; exact h.canonical
        loop := h.loop
        phase := h.phase
        output := h.output
        widths := by rw [heq]; exact h.widths
        entries := ⟨c, r ++ [Memory.read e.inMem e.ii], by rw [heq]; exact hchars, .inl (by rw [heq]; exact ⟨h1, h2, h3⟩)⟩
        text := by
          have ht := h.text
          rw [heq]
          simp only [phraseChars_append, ← hq, ← List.append_assoc, ht]
          rw [Memory.slice_succ, Nat.zero_add] }
  · rw [hpe] at h1
    cases h1

/-- After a miss the decoder that has received its token is in step again (R187). -/
theorem Received.next {d' : Dec} (h : Received p e q d d') (hf : f.ScanOk p) (hm : Memory.wf f.outMem)
    (htext : d.output ++ phraseChars q = Memory.slice e.inMem 0 e.ii)
    (hin : f.inMem = e.inMem ∧ f.ii = e.ii + 1)
    (hw : f.w = [Memory.read e.inMem e.ii])
    (hs : let c := Memory.read e.inMem e.ii
          let new := !inDomain e.dict (single c)
          f.dict = e.dict ++ (if new then [(single c, e.dictSize)] else []) ++
            [(append q c, if new then e.dictSize + 1 else e.dictSize)] ∧
          f.dictSize = (if new then e.dictSize + 2 else e.dictSize + 1) ∧
          f.pend = (if new then [single c] else []) ∧
          (f.numBits, f.enlargeIn) =
            if q ∈ e.pend then tickPair (tickPair e.numBits e.enlargeIn).1 (tickPair e.numBits e.enlargeIn).2
            else tickPair e.numBits e.enlargeIn) : InLoop p f d' := by
  obtain ⟨h1, h2, h3, h4⟩ := hs
  have hwid := h.widths.trans h4.symm
  rw [Prod.mk.injEq] at hwid
  exact
    { scan := hf
      canonical := hm
      loop := h.loop
      phase := h.phase
      output := h.canonical
      widths := hwid
      entries := by
        refine ⟨_, [], hw, ?_⟩
        cases hn : inDomain e.dict (single (Memory.read e.inMem e.ii)) with
        | true =>
          simp only [hn, Bool.not_true, Bool.false_eq_true, if_false, List.append_nil] at h1 h2 h3
          exact .inl ⟨h3, by rw [h2, h.size], by rw [h1, h.dict, h.size, h.previous]; simp⟩
        | false =>
          simp only [hn, Bool.not_false, if_true] at h1 h2 h3
          exact .inr ⟨h3, rfl, by rw [h2, h.size], by rw [h1, h.dict, h.size, h.previous]; simp⟩
      text := by
        rw [hw, h.output, htext, hin.1, hin.2, Memory.slice_succ, Nat.zero_add] }

/-- The end marker read in the loop (R235). -/
theorem execDecToken_eos (hc : v.dec.CursorOk) (hn : 2 ≤ v.dec.numBits) (ha : v.dec.ahead = codeBits 2 v.dec.numBits ++ rest) :
    ∃ d, v.dec.Moved d ∧ execDecToken v = .next { v with dec := d.finish .seq } := by
  have h2 : 2 % 2 ^ v.dec.numBits = 2 := Nat.mod_eq_of_lt (Nat.lt_of_lt_of_le (by decide : 2 < 2 ^ 2) (Nat.pow_le_pow_right (by decide) hn))
  have hx : v.dec.exh = false := Dec.not_exh (by
    rw [ha]
    intro h0
    have := congrArg List.length h0
    simp at this
    omega)
  obtain ⟨d, hm, -, he⟩ := execDecToken_of_decode (t := .eos) (rest := rest) hc (by
    rw [ha]; simp [decodeLoop, takeBits_codeBits, codeOfBits_codeBits, h2, loopClass]) hx
  exact ⟨d, hm, he⟩

/-- The end marker read in the header (R229). -/
theorem execDecHeader_eos (hc : v.dec.CursorOk) (ha : v.dec.ahead = codeBits 2 2 ++ rest) :
    ∃ d, v.dec.Moved d ∧ execDecHeader v = .next { v with dec := d.finish .seq } := by
  obtain ⟨d, hm, -, he⟩ := execDecHeader_of_decode (t := .eos) (rest := rest) hc (by
    rw [ha]; simp [decodeHeader, takeBits_codeBits, codeOfBits_codeBits, headerClass])
  exact ⟨d, hm, he⟩

end

end Sys2Proof.Machine
end

