-- ==== Sys2Proof/Tests/Slice0.lean ====
section
/-! SUPPORT. The model's own tests. Expected values are those of spec/95_test_vectors.md (its vector is named at each test) or are written
out by hand from the formats of 30_encoding.md. -/

namespace Sys2Proof.Tests
open Sys2Proof.Machine

/-! ### Well-formedness: an ill-formed term for each check, which the check refuses -/

theorem test_wf_refuses_reserved_references : Instr.wf (.ref 2) = false ∧ Instr.wf (.illegal 3) = false := by decide
theorem test_wf_refuses_short_codes : Instr.wf (.putlsb 1 1) = false ∧ Instr.wf (.getlsb 1) = false := by decide
theorem test_wf_refuses_wide_codes : Instr.wf (.putlsb 8 3) = false := by decide
theorem test_wf_refuses_payload_widths : Instr.wf (.putmsb 0 9) = false ∧ Instr.wf (.getmsb 9) = false := by decide
theorem test_wf_refuses_wide_payloads : Instr.wf (.putmsb 256 8) = false ∧ Instr.wf (.putmsb 65536 16) = false := by decide
theorem test_wf_refuses_single_phrases : Instr.wf (.register (single 97)) = false ∧ Instr.wf (.registerPhrase (single 97)) = false := by
  decide
theorem test_wf_refuses_long_literals : Instr.wf (.emitLiteral (append (single 97) 98)) = false := by decide
theorem test_wf_refuses_decoder_kinds : Instr.wf (.finish .enc .null) = false ∧ Instr.wf (.finish .enc .overrun) = false := by
  decide
theorem test_wf_refuses_decoder_causes :
    Instr.wf (.raise .enc .truncatedInput 0) = false ∧ Instr.wf (.raise .enc .corruptCode 4) = false ∧
      Instr.wf (.raise .dec .truncatedInput 1) = false := by decide
theorem test_wf_refuses_ports : Port.wf (.loop 1 3) = false ∧ Port.wf (.loop 2 2) = false ∧ Port.wf (.padding 0) = false := by
  decide
theorem test_fits_refuses_other_ports :
    Instr.fits .decCtrl .encStart = false ∧ Instr.fits .encCtrl .decStart = false ∧ Instr.fits .header (.lit8 97) = false ∧
      Instr.fits (.loop 3 4) (.hdrLit8 97) = false ∧ Instr.fits .header .pad = false ∧ Instr.fits (.padding 0) .pad = false ∧
      Instr.fits (.loop 1 4) .eos = false := by decide
theorem test_fits_refuses_codes_out_of_range :
    Instr.fits (.loop 3 5) (.ref 5) = false ∧ Instr.fits (.loop 3 10) (.ref 8) = false ∧ Instr.fits (.loop 3 8) (.ref 2) = false ∧
      Instr.fits (.loop 3 8) .refnew = false ∧ Instr.fits (.loop 3 4) (.illegal 4) = false ∧
      Instr.fits (.loop 3 4) (.illegal 8) = false := by decide
theorem test_fits_refuses_internal_operations :
    Instr.fits (.loop 3 5) (.tick .dec) = false ∧ Instr.fits .header .decHeader = false ∧ Instr.fits .encCtrl .encChar = false := by
  decide

/-! ### Decoding: one word for each row, written out from the formats (R93 to R96, R100, R110) -/

theorem test_decode_encStart : decode .default .encCtrl [true, false] = .ok (.encStart, []) := by rfl
theorem test_decode_encStartAbsent : decode .default .encCtrl [true, true] = .ok (.encStartAbsent, []) := by rfl
theorem test_decode_encNop : decode .default .encCtrl [false, true] = .ok (.encNop true, []) := by rfl
theorem test_decode_decStart : decode .default .decCtrl [true, false] = .ok (.decStart, []) := by rfl
theorem test_decode_decStartAbsent : decode .default .decCtrl [true, true] = .ok (.decStartAbsent, []) := by rfl
theorem test_decode_decNop : decode .default .decCtrl [false, false] = .ok (.decNop false, []) := by rfl

-- V2: LIT8 97 @2 '0001100001'
theorem test_decode_hdrLit8 :
    decode .default .header [false, false, false, true, true, false, false, false, false, true] = .ok (.hdrLit8 97, []) := by rfl
-- V5: LIT16 300 @2 '100000000100101100'
theorem test_decode_hdrLit16 :
    decode .default .header [true, false, false, false, false, false, false, false, false, true, false, false, true, false, true,
      true, false, false] = .ok (.hdrLit16 300, []) := by rfl
theorem test_decode_hdrEos : decode .default .header [false, true] = .ok (.hdrEos, []) := by rfl
theorem test_decode_hdrIllegal : decode .default .header [true, true] = .ok (.hdrIllegal, []) := by rfl

-- V3: LIT8 98 @3 '00001100010'
theorem test_decode_lit8 :
    decode .default (.loop 3 4) [false, false, false, false, true, true, false, false, false, true, false] =
      .ok (.lit8 98, []) := by rfl
-- V7: LIT16 300 @3 '1000000000100101100'
theorem test_decode_lit16 :
    decode .default (.loop 3 4) [true, false, false, false, false, false, false, false, false, false, true, false, false, true,
      false, true, true, false, false] = .ok (.lit16 300, []) := by rfl
-- V6: EOS @4 '0100', REF 5 @3 '101', REF 7 @3 '111'
theorem test_decode_eos : decode .default (.loop 4 8) [false, true, false, false] = .ok (.eos, []) := by rfl
theorem test_decode_ref : decode .default (.loop 3 6) [true, false, true] = .ok (.ref 5, []) := by rfl
theorem test_decode_refnew : decode .default (.loop 3 7) [true, true, true] = .ok (.refnew, []) := by rfl
-- W13: code bits 1,0,1 against dictSize 4
theorem test_decode_illegal : decode .default (.loop 3 4) [true, false, true] = .ok (.illegal 5, []) := by rfl
theorem test_decode_pad : decode .default (.padding 5) [false, false, false, false, false] = .ok (.pad, []) := by rfl

-- W16: the input ends inside the header payload
theorem test_decode_truncated : decode .default .header [false, false, false, true, true, false] = .error .truncated := by rfl
theorem test_decode_truncated_code : decode .default (.loop 3 4) [false, true] = .error .truncated := by rfl
theorem test_decode_padNotZero : decode .default (.padding 2) [false, true] = .error .padNotZero := by rfl
-- section 2.9: with LIT_MSB_FIRST false, 97 is '10000110'
theorem test_decode_lsb_first_payload :
    decode { Params.default with litMsbFirst := false } .header
      [false, false, true, false, false, false, false, true, true, false] = .ok (.hdrLit8 97, []) := by rfl

theorem test_encode_hdrLit8 :
    encode .default .header (.hdrLit8 97) = some [false, false, false, true, true, false, false, false, false, true] := by decide
theorem test_encode_ref : encode .default (.loop 4 8) (.ref 3) = some [true, true, false, false] := by decide
theorem test_encode_refnew : encode .default (.loop 3 4) .refnew = some [false, false, true] := by decide

/-! ### One step of each instruction -/

/-- A field of the next state, if there is one. -/
def result {α : Type} (o : Host.Outcome State Fault Refusal) (f : State → α) : Option α :=
  match o with
  | .next t => some (f t)
  | .fault _ => none
  | .refused _ => none

/-- After reset, with the encoder's configuration and input. -/
def encInput (bpc : BitVec 8) (input : List Char16) : State :=
  { State.reset with enc := { Enc.reset with
      bpcReg := bpc, lenReg := input.length, inMem := Memory.ofCells ((List.range input.length).zip input) } }

/-- After reset, with the decoder's configuration and input. -/
def decInput (reset : Nat) (input : List Nat) : State :=
  { State.reset with dec := { Dec.reset with
      resetReg := reset, lenReg := input.length, inMem := Memory.ofCells ((List.range input.length).zip input) } }

/-- An encoder at work, with a writer's cursor. -/
def writer (bpc acc pos : Nat) : State :=
  { State.reset with enc := { Enc.reset with
      status := statusBusy, bpc := bpc, acc := acc, pos := pos, numBits := 3, enlargeIn := 4, dictSize := 5, phase := .scan } }

/-- The decoder of section 2.3 at work, with a reader's cursor. -/
def reader (reset val position index : Nat) (input : List Nat) : State :=
  { decInput reset input with dec := { (decInput reset input).dec with
      status := statusBusy, val := val, position := position, index := index, resetValue := reset, len := input.length,
      phase := .loop } }

/-- The decoder of P2 after the header token `a`, the output `a` written. -/
def afterA : State :=
  { reader 32 4 2 2 [6, 4, 12, 21, 58, 0] with dec := { (reader 32 4 2 2 [6, 4, 12, 21, 58, 0]).dec with
      dict := [(3, single 97)], dictSize := 4, numBits := 3, enlargeIn := 4, w := single 97, outMem := [(0, 97)], outLen := 1 } }

-- H1, H3, H4
theorem test_encStart : result (exec .encStart (encInput 6 [97])) (fun t => (t.enc.status, t.enc.phase, t.enc.len, t.enc.bpc)) =
    some (1, .scan, 1, 6) := by decide
theorem test_encStart_width : result (exec .encStart (encInput 0 [])) (fun t => (t.enc.status, t.enc.fInfo, t.enc.outLen)) =
    some (62, 0, 0) := by decide
-- H2, H4
theorem test_encStartAbsent : result (exec .encStartAbsent (encInput 6 [1, 2, 3, 4, 5])) (fun t => (t.enc.status, t.enc.outLen)) =
    some (2, 0) := by decide
theorem test_encStartAbsent_width : result (exec .encStartAbsent (encInput 17 [])) (fun t => (t.enc.status, t.enc.fInfo)) =
    some (62, 17) := by decide
-- H10
theorem test_encNop : exec (.encNop true) (encInput 6 [97]) = .next (encInput 6 [97]) := by rfl
-- H6, H8
theorem test_decStart_null : result (exec .decStart (decInput 32 [])) (fun t => (t.dec.status, t.dec.outLen)) = some (6, 0) := by
  decide
theorem test_decStart_reset : result (exec .decStart (decInput 48 [1, 2, 3])) (fun t => (t.dec.status, t.dec.fInfo)) =
    some (62, 48) := by decide
-- H5, H7
theorem test_decStartAbsent : result (exec .decStartAbsent (decInput 32 [1, 2, 3, 4, 5, 6, 7])) (fun t => (t.dec.status, t.dec.outLen)) =
    some (2, 0) := by decide
theorem test_decStartAbsent_reset : result (exec .decStartAbsent (decInput 0 [])) (fun t => (t.dec.status, t.dec.fInfo, t.dec.fIdx)) =
    some (62, 0, 0) := by decide
theorem test_decNop : exec (.decNop false) (decInput 32 [6]) = .next (decInput 32 [6]) := by rfl

-- P2, the header token, and R228
theorem test_hdrLit8 : result (exec (.hdrLit8 97) (reader 32 4 2 2 [6, 4]))
      (fun t => (t.dec.dict, t.dec.dictSize, t.dec.numBits, t.dec.enlargeIn, t.dec.output)) =
    some ([(3, single 97)], 4, 3, 4, [97]) := by decide
-- W5
theorem test_hdrLit16 : result (exec (.hdrLit16 300) (reader 32 4 2 2 [6, 4]))
      (fun t => (t.dec.dict, t.dec.numBits, t.dec.enlargeIn, t.dec.output)) =
    some ([(3, single 300)], 3, 4, [300]) := by decide
-- W9
theorem test_hdrEos : result (exec .hdrEos (reader 32 16 8 1 [16])) (fun t => (t.dec.status, t.dec.outLen)) = some (2, 0) := by decide
-- W15
theorem test_hdrIllegal : result (exec .hdrIllegal (reader 32 48 8 1 [48])) (fun t => (t.dec.status, t.dec.fInfo, t.dec.fIdx)) =
    some (46, 3, 1) := by decide
-- P2, token 2
theorem test_lit8 : result (exec (.lit8 98) afterA)
      (fun t => (t.dec.numBits, t.dec.enlargeIn, t.dec.dictSize, t.dec.output, t.dec.w)) =
    some (3, 2, 6, [97, 98], single 98) := by decide
-- P3, token 2
theorem test_lit16 : result (exec (.lit16 300) afterA) (fun t => (t.dec.dict, t.dec.output)) =
    some ([(3, single 97), (4, single 300), (5, append (single 97) 300)], [97, 300]) := by decide
theorem test_eos : result (exec .eos afterA) (fun t => (t.dec.status, t.dec.outLen, t.dec.dictSize)) = some (2, 1, 4) := by decide
-- W2: REF 4 = dictSize, the self-reference
theorem test_refnew : result (exec .refnew afterA) (fun t => (t.dec.output, t.dec.numBits, t.dec.enlargeIn, t.dec.dictSize)) =
    some ([97, 97, 97], 3, 3, 5) := by decide
-- A stored reference: REF 3 after `a` appends `a` and registers `aa` (R236, R240)
theorem test_ref : result (exec (.ref 3) afterA) (fun t => (t.dec.output, t.dec.dict, t.dec.w)) =
    some ([97, 97], [(3, single 97), (4, append (single 97) 97)], single 97) := by decide
-- W13
theorem test_illegal : result (exec (.illegal 5) afterA) (fun t => (t.dec.status, t.dec.fInfo, t.dec.fIdx, t.dec.outLen)) =
    some (46, 5, 2, 0) := by decide

-- B10
theorem test_pad : result (exec .pad (writer 6 1 2)) (fun t => (t.enc.outMem, t.enc.acc, t.enc.pos)) = some ([(0, 16)], 0, 0) := by
  decide
-- T2, T3
theorem test_tick_enc : result (exec (.tick .enc) (writer 6 0 0)) (fun t => (t.enc.numBits, t.enc.enlargeIn)) = some (3, 3) := by decide
theorem test_tick_dec : result (exec (.tick .dec) { afterA with dec := { afterA.dec with numBits := 2, enlargeIn := 1 } })
      (fun t => (t.dec.numBits, t.dec.enlargeIn)) = some (3, 4) := by decide
-- B1, B2
theorem test_putbit : result (exec (.putbit true) (writer 6 0 0)) (fun t => (t.enc.outMem, t.enc.acc, t.enc.pos)) = some ([], 1, 1) := by
  decide
theorem test_putbit_full : result (exec (.putbit false) (writer 6 3 5)) (fun t => (t.enc.outMem, t.enc.acc, t.enc.pos)) =
    some ([(0, 6)], 0, 0) := by decide
-- B5, B7
theorem test_putlsb : result (exec (.putlsb 2 4) (writer 6 0 0)) (fun t => (t.enc.acc, t.enc.pos)) = some (4, 4) := by decide
theorem test_putlsb_one : result (exec (.putlsb 1 3) (writer 6 0 0)) (fun t => (t.enc.acc, t.enc.pos)) = some (4, 3) := by decide
-- B8, B9
theorem test_putmsb : result (exec (.putmsb 97 8) (writer 6 0 2)) (fun t => (t.enc.outMem, t.enc.acc, t.enc.pos)) =
    some ([(0, 6)], 1, 4) := by decide
theorem test_putmsb_wide : result (exec (.putmsb 300 16) (writer 16 0 0)) (fun t => (t.enc.outMem, t.enc.acc, t.enc.pos)) =
    some ([(0, 300)], 0, 0) := by decide
-- B14, B11
theorem test_flush : result (exec .flush (writer 6 21 5)) (fun t => (t.enc.outMem, t.enc.outLen)) = some ([(0, 42)], 1) := by decide
theorem test_flush_whole : result (exec .flush (writer 6 0 0)) (fun t => (Memory.read t.enc.outMem 0, t.enc.outLen, t.enc.pos)) =
    some (0, 1, 0) := by decide
-- G1, G3
theorem test_getbit : result (exec .getbit (reader 32 6 32 1 [6, 5, 0])) (fun t => (t.ret, t.dec.position, t.dec.index)) =
    some (0, 16, 1) := by decide
theorem test_getbit_last : result (exec .getbit (reader 32 0 1 3 [6, 5, 0])) (fun t => (t.ret, t.dec.position, t.dec.index, t.dec.exh)) =
    some (0, 32, 4, true) := by decide
-- G2
theorem test_refill : result (exec .refill (reader 32 6 0 1 [6, 5, 0])) (fun t => (t.dec.val, t.dec.position, t.dec.index, t.dec.exh)) =
    some (5, 32, 2, false) := by decide
-- G6, G11
theorem test_getlsb : result (exec (.getlsb 4) (reader 32 16 32 1 [16])) (fun t => (t.ret, t.dec.position)) = some (2, 2) := by decide
theorem test_getlsb_refills : result (exec (.getlsb 2) (reader 1 0 1 1 [0, 1, 0]))
      (fun t => (t.ret, t.dec.index, t.dec.position, t.dec.exh)) = some (2, 3, 1, false) := by decide
-- G9, G10
theorem test_getmsb : result (exec (.getmsb 8) (reader 128 97 128 1 [97])) (fun t => t.ret) = some 97 := by decide
theorem test_getmsb_wide : result (exec (.getmsb 16) (reader 32768 300 32768 1 [300])) (fun t => t.ret) = some 300 := by decide

/-- What a run of the encoder leaves. -/
def leaves (r : Run Enc Unit) : Enc :=
  match r with
  | .ok _ e => e
  | .ended e => e
  | .fault _ => Enc.reset

/-- The encoder of P1 after START and after each of its first steps. -/
def enc0 : Enc := leaves ((encInput 6 [97, 98, 97, 98, 97, 98, 97]).enc.start .default false)
def enc1 : Enc := leaves (enc0.charStep .default)
def enc2 : Enc := leaves (enc1.charStep .default)
def enc3 : Enc := leaves (enc2.charStep .default)
def enc4 : Enc := leaves (enc3.charStep .default)
/-- The machine with that encoder. -/
def scanning (e : Enc) : State := { State.reset with enc := e }

-- P1, steps 0 and 1
theorem test_encChar : result (exec .encChar (scanning enc0)) (fun t => (t.enc.dict, t.enc.pend, t.enc.w, t.enc.dictSize, t.enc.outLen)) =
    some ([(single 97, 3)], [single 97], [97], 4, 0) := by decide
theorem test_encChar_miss : result (exec .encChar (scanning enc1))
      (fun t => ((t.enc.numBits, t.enc.enlargeIn, t.enc.dictSize), t.enc.outLen, t.enc.pos, t.enc.w)) =
    some ((3, 4, 6), 1, 4, [98]) := by decide
-- P1, step 1: new b→4, pending
theorem test_registerChar : result (exec (.registerChar 98) (scanning enc1)) (fun t => (t.enc.dict, t.enc.pend, t.enc.dictSize)) =
    some ([(single 97, 3), (single 98, 4)], [single 97, single 98], 5) := by decide
-- H14: dictSize 5 with DICT_CAP 5
theorem test_register_full :
    result (exec (.register (append (single 97) 98)) { writer 6 0 0 with cfg := { Params.default with dictCap := some 5 } })
      (fun t => (t.enc.status, t.enc.outLen)) = some (78, 0) := by decide
theorem test_register : result (exec (.register (append (single 97) 98)) (writer 6 0 0)) (fun t => (t.enc.dict, t.enc.dictSize, t.enc.pend)) =
    some ([(append (single 97) 98, 5)], 6, []) := by decide
-- P1, step 4: REF 5 @3 '101' and one tick, from (3, 2) with pos 3
theorem test_emit : result (exec (.emit (append (single 97) 98)) (scanning enc4)) (fun t => (t.enc.numBits, t.enc.enlargeIn, t.enc.outLen, t.enc.pos)) =
    some (3, 1, 4, 0) := by decide
-- P1, step 1: LIT8 97 @2 and two ticks, the mark cleared; without a code, the fault of log 15
theorem test_emit_pending : result (exec (.emit (single 97)) (scanning enc1))
      (fun t => (t.enc.numBits, t.enc.enlargeIn, t.enc.pend, t.enc.pos)) = some (3, 4, [], 4) := by decide
theorem test_emitLiteral : result (exec (.emitLiteral (single 97)) (scanning enc1))
      (fun t => (t.enc.numBits, t.enc.enlargeIn, t.enc.pend, t.enc.acc)) = some (2, 1, [], 1) := by decide
-- V1, V2
theorem test_encFinish : result (exec .encFinish (scanning (leaves ((encInput 6 []).enc.start .default false))))
      (fun t => (t.enc.status, t.enc.outMem, t.enc.outLen)) = some (2, [(0, 16)], 1) := by decide
theorem test_encFinish_match :
    result (exec .encFinish (scanning (leaves ((leaves ((encInput 6 [97]).enc.start .default false)).charStep .default))))
      (fun t => (t.enc.numBits, t.enc.enlargeIn, t.enc.outLen, Memory.slice t.enc.outMem 0 3)) = some (3, 4, 3, [6, 5, 0]) := by decide

/-- A decoder that has been started. -/
def started (reset : Nat) (input : List Nat) : State :=
  match exec .decStart (decInput reset input) with
  | .next t => t
  | .fault _ => State.reset
  | .refused _ => State.reset

-- P2, the header; W16
theorem test_decHeader : result (exec .decHeader (started 32 [6, 4, 12, 21, 58, 0]))
      (fun t => (t.dec.phase, t.dec.index, t.dec.position, t.dec.output)) = some (.loop, 2, 2, [97]) := by decide
theorem test_decHeader_truncated : result (exec .decHeader (started 32 [6])) (fun t => (t.dec.status, t.dec.fInfo, t.dec.fIdx)) =
    some (30, 0, 2) := by decide
-- P2, token 2; W18, the loop-top test
theorem test_decToken : result (exec .decToken afterA) (fun t => (t.dec.index, t.dec.position, t.dec.output, t.dec.dictSize)) =
    some (4, 4, [97, 98], 6) := by decide
theorem test_decToken_overrun : result (exec .decToken { afterA with dec := { afterA.dec with exh := true } })
      (fun t => (t.dec.status, t.dec.outLen, t.dec.fIdx)) = some (10, 0, 2) := by decide
theorem test_registerLit : result (exec (.registerLit 98) afterA) (fun t => (t.dec.dict, t.dec.dictSize, t.dec.enlargeIn)) =
    some ([(3, single 97), (4, single 98)], 5, 3) := by decide
theorem test_registerPhrase : result (exec (.registerPhrase (append (single 97) 98)) afterA) (fun t => (t.dec.dict, t.dec.enlargeIn)) =
    some ([(3, single 97), (4, append (single 97) 98)], 3) := by decide
theorem test_outAppend_enc : result (exec (.outAppend (.symbol 6)) (writer 6 0 0)) (fun t => (t.enc.outMem, t.enc.outLen)) =
    some ([(0, 6)], 1) := by decide
theorem test_outAppend_dec : result (exec (.outAppend (.char 98)) afterA) (fun t => (t.dec.outMem, t.dec.outLen)) =
    some ([(0, 97), (1, 98)], 2) := by decide
theorem test_finish : result (exec (.finish .dec .overrun) afterA) (fun t => (t.dec.status, t.dec.outLen, t.dec.fIdx)) =
    some (10, 0, 2) := by decide
theorem test_raise : result (exec (.raise .enc .capacityExceeded 2) (writer 6 0 0)) (fun t => (t.enc.status, t.enc.fInfo, t.enc.outLen)) =
    some (78, 2, 0) := by decide

/-! ### The host's placing of a word -/

theorem test_table_word_command : decodeTableWord 8 1 = some .encStart ∧ decodeTableWord 8 3 = some .encStartAbsent := by
  constructor <;> rfl
theorem test_table_word_header : decodeTableWord 8 2 = some .hdrEos := by rfl
theorem test_withFetchWord : result (step (State.reset.withFetchWord 8 2)) (fun t => (t.dec.status, t.dec.outLen)) = some (2, 0) := by
  decide

/-! ### Witnesses: for each obligation, a state and operands that meet its hypotheses, clause by clause -/

theorem witness_DecodeInvertsEncode :
    Instr.fits .encCtrl .encStart = true ∧ Instr.fits .header (.hdrLit8 255) = true ∧ Instr.fits .header (.hdrLit16 65535) = true ∧
      Instr.fits (.loop 2 3) .eos = true ∧ Instr.fits (.loop 3 8) (.ref 3) = true ∧ Instr.fits (.loop 3 8) (.ref 7) = true ∧
      Instr.fits (.loop 3 7) .refnew = true ∧ Instr.fits (.loop 3 4) (.illegal 5) = true ∧
      Instr.fits (.loop 3 4) (.illegal 7) = true ∧ Instr.fits (.padding 1) .pad = true := by decide

theorem witness_EncodeInvertsDecode :
    Port.wf (.loop 3 4) = true ∧ decode .default (.loop 3 4) [true, false, true, true] = .ok (.illegal 5, [true]) ∧
      decode .default (.loop 3 6) [true, false, true, true] = .ok (.ref 5, [true]) ∧
      decode .default (.loop 3 5) [true, false, true] = .ok (.refnew, []) := ⟨rfl, rfl, rfl, rfl⟩

/-- After reset, with accesses the host has yet to make. -/
def hosted (accesses : List HostAccess) : State := { State.reset with host := accesses }

theorem witness_HostStepRunsTheCommandWord :
    (hosted [.writeReg 0 1]).TurnOf .host (hosted [.writeReg 0 1]) ∧
      (hosted [.writeReg 0 1]).host = .writeReg (ctrlReg .enc) 1 :: [] ∧
      decode State.reset.cfg (ctrlPort .enc) (codeBits 1 2) = .ok (.encStart, []) := ⟨.inl ⟨rfl, rfl, rfl⟩, rfl, rfl⟩
theorem witness_HostStepRunsTheCommandWord_dec :
    State.TurnOf { hosted [.writeReg 8 3] with sched := [.host] } .host (hosted [.writeReg 8 3]) ∧
      decode State.reset.cfg (ctrlPort .dec) (codeBits 3 2) = .ok (.decStartAbsent, []) := ⟨.inr ⟨[], rfl, rfl⟩, rfl⟩

theorem cursor_afterA : afterA.dec.CursorOk := by decide
theorem header_started : (started 32 [6, 4, 12, 21, 58, 0]).dec.HeaderOk .default := ⟨by decide, by decide, by decide, by decide⟩
theorem loop_afterA : afterA.dec.LoopOk .default :=
  ⟨by decide, by decide, by decide, by decide, by decide, by decide, [], by decide⟩

theorem witness_DecoderStepRunsTheToken :
    afterA.TurnOf .dec afterA ∧ afterA.dec.CursorOk ∧ afterA.dec.phase = .loop ∧ afterA.dec.exh = false ∧
      (decode afterA.cfg (.loop afterA.dec.numBits afterA.dec.dictSize) afterA.dec.ahead).toOption.map Prod.fst =
        some (.lit8 98) := ⟨.inl ⟨rfl, rfl, rfl⟩, by decide, rfl, rfl, by decide⟩
theorem witness_DecoderStepRunsTheToken_truncated :
    (started 32 [6]).TurnOf .dec (started 32 [6]) ∧ (started 32 [6]).dec.CursorOk ∧ (started 32 [6]).dec.phase = .header ∧
      decode (started 32 [6]).cfg .header (started 32 [6]).dec.ahead = .error .truncated :=
  ⟨.inl ⟨rfl, rfl, rfl⟩, by decide, rfl, rfl⟩

theorem witness_EngineStepsFollowThePhase :
    (scanning enc0).TurnOf .enc (scanning enc0) ∧ enc0.phase = .scan ∧ enc0.ii < enc0.len :=
  ⟨.inl ⟨rfl, rfl, rfl⟩, by decide, by decide⟩
theorem witness_EngineStepsFollowThePhase_finish :
    (writer 6 0 0).TurnOf .enc (writer 6 0 0) ∧ (writer 6 0 0).enc.phase = .scan ∧ (writer 6 0 0).enc.len ≤ (writer 6 0 0).enc.ii :=
  ⟨.inl ⟨rfl, rfl, rfl⟩, by decide, by decide⟩
theorem witness_EngineStepsFollowThePhase_idle :
    State.TurnOf { State.reset with sched := [.enc] } .enc State.reset ∧ State.reset.enc.phase = .idle ∧
      State.TurnOf { State.reset with sched := [.dec] } .dec State.reset ∧ State.reset.dec.phase = .idle :=
  ⟨.inr ⟨[], rfl, rfl⟩, rfl, .inr ⟨[], rfl, rfl⟩, rfl⟩

theorem witness_EncStartFollowsTheChecks :
    isBusy (encInput 1 [97]).enc.status = false ∧ 1 ≤ (encInput 1 [97]).enc.bpcReg.toNat ∧
      (encInput 16 []).enc.bpcReg.toNat ≤ (encInput 16 []).cfg.bpcMax ∧ (encInput 0 []).enc.bpcReg.toNat = 0 ∧
      (encInput 17 []).cfg.bpcMax < (encInput 17 []).enc.bpcReg.toNat ∧ dictFull (encInput 1 [97]).cfg 2 = false := by decide

theorem witness_DecStartFollowsTheChecks :
    isBusy (decInput 1 [1]).dec.status = false ∧ (decInput 1 [1]).dec.phase = .idle ∧
      (0 < (decInput 1 [1]).cfg.bpcMax ∧ (decInput 1 [1]).dec.resetReg = 2 ^ 0) ∧
      (15 < (decInput 32768 []).cfg.bpcMax ∧ (decInput 32768 []).dec.resetReg = 2 ^ 15) ∧
      (decInput 1 [1]).dec.lenReg ≠ 0 ∧ (decInput 32768 []).dec.lenReg = 0 := by decide
theorem witness_DecStartFollowsTheChecks_illegal :
    ∀ j, j < (decInput 48 [1]).cfg.bpcMax → (decInput 0 []).dec.resetReg ≠ 2 ^ j ∧ (decInput 48 [1]).dec.resetReg ≠ 2 ^ j := by
  decide

theorem witness_BusyStartsAndNopsDoNothing :
    isBusy (writer 6 0 0).enc.status = true ∧ isBusy afterA.dec.status = true := by decide

/-- The encoder of P1 at the end of its command. -/
def used : State := { encInput 6 [97] with enc := { (encInput 6 [97]).enc with
  status := 62, fInfo := 9, dictSize := 7, outMem := [(3, 5)], phase := .done } }
theorem witness_StartForgetsEarlierCommands :
    used.cfg = (encInput 6 [97]).cfg ∧ isBusy used.enc.status = false ∧ used.enc.bpcReg = (encInput 6 [97]).enc.bpcReg ∧
      used.enc.lenReg = (encInput 6 [97]).enc.lenReg ∧ used.enc.inMem = (encInput 6 [97]).enc.inMem ∧
      legalBpc used.cfg used.enc.bpcReg.toNat = true ∧ dictFull used.cfg 2 = false ∧ used.enc ≠ (encInput 6 [97]).enc := by decide
theorem witness_StartForgetsEarlierCommands_dec :
    isBusy (decInput 32 [6, 5]).dec.status = false ∧ legalReset (decInput 32 [6, 5]).cfg (decInput 32 [6, 5]).dec.resetReg = true ∧
      (decInput 32 [6, 5]).dec.lenReg ≠ 0 := by decide

/-- Both schedules of the machine at a pair. -/
def scheduled (n k : Nat) : State :=
  { State.reset with enc := { Enc.reset with numBits := n, enlargeIn := k }, dec := { Dec.reset with numBits := n, enlargeIn := k } }
theorem witness_TickCountsDownOrWidens :
    (scheduled 2 1).enc.enlargeIn = 1 ∧ 2 ≤ (scheduled 2 2).enc.enlargeIn ∧ (scheduled 2 1).dec.enlargeIn = 1 ∧
      2 ≤ (scheduled 2 2).dec.enlargeIn := by decide
theorem witness_ScheduleHasItsClosedForm :
    2 = Nat.log2 (0 + 2) + 1 ∧ (scheduled 2 2).enc.numBits = 2 ∧ (scheduled 2 2).enc.enlargeIn = 2 ∧ (scheduled 2 2).dec.numBits = 2 ∧
      (scheduled 2 2).dec.enlargeIn = 2 := by decide
theorem witness_TickKeepsTheScheduleRange :
    ScheduleOk (scheduled 2 1).dec.numBits (scheduled 2 1).dec.enlargeIn ∧
      ScheduleOk (scheduled 3 4).dec.numBits (scheduled 3 4).dec.enlargeIn ∧
      ScheduleOk (scheduled 2 1).enc.numBits (scheduled 2 1).enc.enlargeIn ∧
      ScheduleOk (scheduled 3 4).enc.numBits (scheduled 3 4).enc.enlargeIn := by decide

/-- An encoder whose OUT space is full. -/
def fullWriter : State := { writer 6 0 5 with cfg := { Params.default with outCap := some 0 } }
theorem witness_PutbitShiftsIn :
    (writer 6 0 4).cfg.lenW = none ∧ (writer 6 0 4).enc.pos + 1 ≠ (writer 6 0 4).enc.bpc ∧
      (writer 6 0 5).enc.pos + 1 = (writer 6 0 5).enc.bpc ∧
      (∀ cap, (writer 6 0 5).cfg.outCap = some cap → (writer 6 0 5).enc.outLen < cap) ∧ fullWriter.cfg.lenW = none ∧
      fullWriter.enc.pos + 1 = fullWriter.enc.bpc ∧ ∃ cap, fullWriter.cfg.outCap = some cap ∧ cap ≤ fullWriter.enc.outLen :=
  ⟨rfl, by decide, by decide, (fun _ h => by cases h), rfl, by decide, 0, rfl, by decide⟩
theorem witness_PutFieldsAppendTheirBits :
    (writer 6 1 2).Unbounded ∧ (writer 6 1 2).enc.CursorOk ∧ Memory.wf (writer 6 1 2).enc.outMem := by decide
theorem witness_FlushCompletesOneSymbol :
    (writer 6 0 0).enc.CursorOk ∧ (writer 6 31 5).enc.CursorOk ∧ outFull (writer 6 0 0).cfg (writer 6 0 0).enc.outLen = false := by
  decide
theorem witness_WriterStoresOnlyWhatItCompletes :
    writerBits .default (writer 6 0 2).enc (.putmsb 97 8) = some [false, true, true, false, false, false, false, true] ∧
      writerBits .default (writer 6 0 0).enc .flush = some [false, false, false, false, false, false] ∧
      writerBits .default enc1 (.emitLiteral (single 97)) = some [false, false, false, true, true, false, false, false, false, true] ∧
      writerBits .default enc4 (.emit (append (single 97) 98)) = some [true, false, true] ∧ (writer 6 0 2).enc.CursorOk ∧
      enc1.CursorOk ∧ fullWriter.enc.CursorOk := by decide

/-- A reader that has used up its input. -/
def exhausted : State := { afterA with dec := { afterA.dec with exh := true, index := 7 } }
theorem witness_GetbitTestsTheMask :
    exhausted.dec.exh = true ∧ afterA.dec.exh = false ∧ afterA.dec.position >>> 1 ≠ 0 ∧
      (reader 32 6 1 1 [6, 5, 0]).dec.exh = false ∧ (reader 32 6 1 1 [6, 5, 0]).dec.position >>> 1 = 0 := by decide
theorem witness_RefillLoadsOrExhausts :
    (reader 32 6 1 2 [6, 5, 0]).dec.index < (reader 32 6 1 2 [6, 5, 0]).dec.len ∧
      (reader 32 6 1 3 [6, 5, 0]).dec.len ≤ (reader 32 6 1 3 [6, 5, 0]).dec.index := by decide
theorem witness_ReaderDeliversTheBitsAhead :
    (reader 2 2 1 1 [2]).dec.CursorOk ∧ (reader 2 2 1 1 [2]).dec.ahead = false :: [] ∧
      (reader 2 2 1 1 [2]).dec.ahead = [false] ++ [] ∧ (reader 2 2 1 1 [2]).dec.ahead.length < 2 ∧
      exhausted.dec.CursorOk ∧ exhausted.dec.ahead.length < 1 := by decide

/-- The writer of B10 after FLUSH, and a decoder configured for its one symbol. -/
def written : State :=
  { decInput 32 [16] with enc := { Enc.reset with bpc := 6, outMem := [(0, 16)], outLen := 1 } }
theorem witness_ReaderInvertsWriter :
    written.enc.pos = 0 ∧ 1 ≤ written.enc.outLen ∧ 1 ≤ written.enc.bpc ∧ written.enc.bpc ≤ written.cfg.bpcMax ∧
      isBusy written.dec.status = false ∧ written.dec.resetReg = 2 ^ (written.enc.bpc - 1) ∧
      written.dec.lenReg = written.enc.outLen ∧
      Memory.slice written.dec.inMem 0 written.enc.outLen = Memory.slice written.enc.outMem 0 written.enc.outLen := by decide

/-! The states of an ENCODE are valid: by START and by its steps. -/

theorem leaves_valid {e : Enc} (h : e.ScanOk .default) (hm : Memory.wf e.outMem) (hi : e.ii < e.len) :
    (leaves (e.charStep .default)).ScanOk .default ∧ Memory.wf (leaves (e.charStep .default)).outMem := by
  obtain ⟨f, hf, hs, -⟩ := Enc.charStep_ok (p := .default) (by decide) h hm hi
  rw [hf]
  exact ⟨hs.ok, hs.canonical⟩
theorem valid0 : enc0.ScanOk .default ∧ Memory.wf enc0.outMem := by
  obtain ⟨f, hf, hs, -⟩ := Enc.start_ok (p := .default) (e := (encInput 6 [97, 98, 97, 98, 97, 98, 97]).enc) (by decide) (by decide) (by decide)
  unfold enc0
  rw [hf]
  refine ⟨hs, ?_⟩
  have : leaves ((encInput 6 [97, 98, 97, 98, 97, 98, 97]).enc.start .default false) = f := by rw [hf]; rfl
  show Memory.wf f.outMem
  rw [← this]
  decide
theorem valid1 : enc1.ScanOk .default ∧ Memory.wf enc1.outMem := leaves_valid valid0.1 valid0.2 (by decide)
theorem valid2 : enc2.ScanOk .default ∧ Memory.wf enc2.outMem := leaves_valid valid1.1 valid1.2 (by decide)
theorem valid3 : enc3.ScanOk .default ∧ Memory.wf enc3.outMem := leaves_valid valid2.1 valid2.2 (by decide)
theorem valid4 : enc4.ScanOk .default ∧ Memory.wf enc4.outMem := leaves_valid valid3.1 valid3.2 (by decide)

theorem witness_EncoderRegistrationsTakeTheNextCode : dictFull (writer 6 0 0).cfg (writer 6 0 0).enc.dictSize = false := by decide
theorem witness_EmissionsSendTheirToken :
    (scanning enc1).Unbounded ∧ enc1.CursorOk ∧ Memory.wf enc1.outMem ∧ single 97 ∈ enc1.pend := by decide
theorem witness_EmissionsSendTheirToken_code :
    append (single 97) 98 ∉ enc4.pend ∧ find enc4.dict (append (single 97) 98) = some 5 ∧ single 99 ∉ enc4.pend ∧
      find enc4.dict (single 99) = none ∧ enc4.CursorOk ∧ Memory.wf enc4.outMem := by decide
theorem witness_CodesFitTheirWidth :
    enc4.ScanOk .default ∧ enc4.w = phraseChars (append (single 97) 98) ∧ append (single 97) 98 ∉ enc4.pend ∧
      find enc4.dict (append (single 97) 98) = some 5 := ⟨valid4.1, by decide, by decide, by decide⟩
-- P1: step 3 extends `a` to `ab`; step 0 registers the first character
theorem witness_EncCharExtendsTheMatch :
    Memory.read enc3.inMem enc3.ii = 98 ∧ inDomain enc3.dict (single 98) = true ∧ inDomain enc3.dict (extend enc3.w 98) = true ∧
      Memory.read enc0.inMem enc0.ii = 97 ∧ inDomain enc0.dict (single 97) = false ∧ enc0.w = [] ∧
      dictFull .default enc0.dictSize = false := by decide
-- P1: step 1 misses with a new character, step 2 with a known one
theorem witness_EncCharSendsOnAMiss :
    enc1.ScanOk .default ∧ Memory.wf enc1.outMem ∧ enc1.ii < enc1.len ∧ Memory.read enc1.inMem enc1.ii = 98 ∧
      enc1.w = phraseChars (single 97) ∧ inDomain enc1.dict (append (single 97) 98) = false ∧
      inDomain enc1.dict (single 98) = false := ⟨valid1.1, valid1.2, by decide, by decide, by decide, by decide, by decide⟩
theorem witness_EncCharSendsOnAMiss_known :
    enc2.ScanOk .default ∧ Memory.wf enc2.outMem ∧ enc2.ii < enc2.len ∧ Memory.read enc2.inMem enc2.ii = 97 ∧
      enc2.w = phraseChars (single 98) ∧ inDomain enc2.dict (append (single 98) 97) = false ∧
      inDomain enc2.dict (single 97) = true := ⟨valid2.1, valid2.2, by decide, by decide, by decide, by decide, by decide⟩
theorem witness_EncFinishEndsTheStream :
    (scanning enc0).Unbounded ∧ enc0.ScanOk .default ∧ Memory.wf enc0.outMem ∧ enc0.w = [] ∧ enc4.ScanOk .default ∧
      enc4.w ≠ [] := ⟨by decide, valid0.1, valid0.2, by decide, valid4.1, by decide⟩
theorem witness_EncoderUnitsComplete : enc3.phase = .scan ∧ enc3.ScanOk .default ∧ Memory.wf enc3.outMem :=
  ⟨by decide, valid3.1, valid3.2⟩

theorem witness_HeaderLiteralSetsTheDictionary :
    outFull (started 32 [6, 5, 0]).cfg (started 32 [6, 5, 0]).dec.outLen = false ∧ Memory.wf (started 32 [6, 5, 0]).dec.outMem ∧
      (97 : Char16) = (97 : BitVec 8).setWidth 16 ∧ dictFull (started 32 [6, 5, 0]).cfg 3 = false := by decide
theorem witness_EndAndIllegalCodesHalt :
    (started 32 [6]).dec.phase = .header ∧ afterA.dec.phase = .loop ∧ afterA.dec.dictSize < 5 := by decide
theorem witness_LoopLiteralRegistersTwice : afterA.Unbounded ∧ Memory.wf afterA.dec.outMem ∧ (97 : Char16) = (97 : BitVec 8).setWidth 16 := by
  decide
theorem witness_ReferencesAppendTheirPhrase :
    afterA.Unbounded ∧ Memory.wf afterA.dec.outMem ∧ 3 < afterA.dec.dictSize ∧ find afterA.dec.dict 3 = some (single 97) ∧
      append (single 97) 97 = append afterA.dec.w afterA.dec.w.first := by decide
theorem witness_DecoderRegistrationsFillTheNextIndex : dictFull afterA.cfg afterA.dec.dictSize = false := by decide

/-- A decoder of one-bit symbols, so that its bits ahead are the elements of its input. -/
def oneBit (bits : List Nat) : State := started 1 bits
theorem witness_DecHeaderReadsTheFirstToken :
    (oneBit [0, 0, 0, 1, 1, 0, 0, 0, 0, 1]).dec.CursorOk ∧
      (oneBit [0, 0, 0, 1, 1, 0, 0, 0, 0, 1]).dec.ahead = [false, false] ++ payloadBits true (97 : Char16).toNat 8 ++ [] ∧
      (97 : Char16).toNat < 256 ∧ (oneBit [0, 1]).dec.ahead = [false, true] ++ [] ∧ (oneBit [1, 1]).dec.ahead = [true, true] ++ [] ∧
      (oneBit [0, 1]).dec.CursorOk ∧ (oneBit [1, 1]).dec.CursorOk ∧
      dictFull (oneBit [0, 1]).cfg 3 = false ∧ outFull (oneBit [0, 1]).cfg (oneBit [0, 1]).dec.outLen = false ∧
      Memory.wf (oneBit [0, 1]).dec.outMem := by decide
theorem witness_DecHeaderReadsTheFirstToken_wide :
    (oneBit [1, 0, 0, 0, 0, 0, 0, 0, 0, 1, 0, 0, 1, 0, 1, 1, 0, 0]).dec.ahead =
      [true, false] ++ payloadBits true (300 : Char16).toNat 16 ++ [] := by decide
theorem witness_DecTokenRunsTheNextToken :
    afterA.dec.CursorOk ∧ afterA.dec.exh = false ∧
      (decodeLoop afterA.cfg afterA.dec.numBits afterA.dec.dictSize afterA.dec.ahead).toOption.map Prod.fst = some (.lit8 98) := by
  decide
theorem witness_LoopTopEndsOnExhaustion :
    exhausted.dec.exh = true ∧ exhausted.cfg.strictOverrun = false ∧ exhausted.dec.phase = .loop ∧
      ({ exhausted with cfg := { Params.default with strictOverrun := true } } : State).cfg.strictOverrun = true := by decide
theorem witness_DecoderUnitsComplete :
    (started 32 [6, 4, 12, 21, 58, 0]).dec.phase = .header ∧ (started 32 [6, 4, 12, 21, 58, 0]).dec.HeaderOk .default ∧
      Memory.wf (started 32 [6, 4, 12, 21, 58, 0]).dec.outMem := ⟨by decide, header_started, by decide⟩
theorem witness_DecoderUnitsComplete_loop : afterA.dec.phase = .loop ∧ afterA.dec.LoopOk .default ∧ Memory.wf afterA.dec.outMem :=
  ⟨rfl, loop_afterA, by decide⟩

/-- The decoder of P2 with room for two characters, and with none left. -/
def capped (cap : Nat) : State := { afterA with cfg := { Params.default with outCap := some cap, dictCap := some 4 } }
theorem witness_OutAppendChecksTheCapacity :
    (capped 2).cfg.lenW = none ∧ (∀ cap, (capped 2).cfg.outCap = some cap → (capped 2).dec.outLen < cap) ∧
      (∃ cap, (capped 1).cfg.outCap = some cap ∧ cap ≤ (capped 1).dec.outLen) ∧
      (∀ cap, (capped 1).cfg.outCap = some cap → (capped 1).enc.outLen < cap) ∧
      (∃ cap, fullWriter.cfg.outCap = some cap ∧ cap ≤ fullWriter.enc.outLen) :=
  ⟨rfl, fun _ h => by cases h; decide, ⟨1, rfl, by decide⟩, fun _ h => by cases h; decide, ⟨0, rfl, by decide⟩⟩
theorem witness_RaiseReportsItsCause :
    (4 : BitVec 3) = (match Cause.capacityExceeded with
      | .truncatedInput => 1 | .corruptCode => 2 | .invalidArgument => 3 | .capacityExceeded => 4) := by decide
/-- The parameters with both dictionary bounds. -/
def bounded (cap w : Nat) : Params := { Params.default with dictCap := some cap, cntW := some w }
-- each clause applies: at dictSize 4 and 4, at 3 by CNT_W, at 2 by DICT_CAP
theorem witness_FullDictionariesRaise :
    NoRoom (capped 2).cfg (capped 2).dec.dictSize ∧ NoRoom (capped 2).cfg (writer 6 0 0).enc.dictSize ∧ NoRoom (bounded 8 2) 3 ∧
      NoRoom (bounded 2 8) 2 ∧ isBusy (encInput 6 [97]).enc.status = false ∧ 1 ≤ (encInput 6 [97]).enc.bpcReg.toNat ∧
      (encInput 6 [97]).enc.bpcReg.toNat ≤ (bounded 2 8).bpcMax :=
  ⟨.inl ⟨4, by decide⟩, .inl ⟨4, by decide⟩, .inr ⟨2, by decide⟩, .inl ⟨2, by decide⟩, by decide, by decide, by decide⟩
-- R137: with 2-bit counters the header literal of P1 [6, 5, 0] cannot take dictSize to 4
theorem test_header_literal_wraps_no_counter :
    ∃ info, exec (.hdrLit8 97) { started 32 [6, 5, 0] with cfg := bounded 8 2 } =
      exec (.raise .dec .capacityExceeded info) { started 32 [6, 5, 0] with cfg := bounded 8 2 } := ⟨_, rfl⟩
-- R137: with 1-bit counters START cannot set dictSize to 3
theorem test_start_wraps_no_counter :
    ∃ t, exec .encStart { encInput 6 [97] with cfg := bounded 8 1 } = .next t ∧ t.enc.status = statusFailed .capacityExceeded :=
  ⟨_, rfl, by decide⟩

theorem witness_OperationsKeepTheOtherEngine :
    (∃ t, exec .encChar (scanning enc1) = .next t) ∧ engineOf .encChar = .enc ∧ (∃ t, exec .decToken afterA = .next t) ∧
      engineOf .decToken = .dec := ⟨⟨_, rfl⟩, rfl, ⟨_, rfl⟩, rfl⟩
theorem witness_OperationsStoreOnlyTheirOutput :
    Memory.wf afterA.enc.outMem ∧ Memory.wf afterA.dec.outMem ∧ (∃ t, exec .refnew afterA = .next t) ∧
      charsAppended afterA.cfg afterA.dec .refnew = [97, 97] ∧ (∃ t, exec (.tick .enc) (writer 6 0 0) = .next t) ∧
      sentBits .default (writer 6 0 0).enc (.tick .enc) = none := ⟨by decide, by decide, ⟨_, rfl⟩, by decide, ⟨_, rfl⟩, rfl⟩

theorem witness_OperationsStoreOnlyTheirOutput_units :
    enc1.ScanOk .default ∧ (∃ t, exec .encChar (scanning enc1) = .next t) ∧ (∃ t, exec .encFinish (scanning enc1) = .next t) ∧
      sentBits .default enc1 .encChar = some (literalBits .default enc1 97) ∧
      charsAppended afterA.cfg afterA.dec .decToken = [98] := ⟨valid1.1, ⟨_, rfl⟩, ⟨_, rfl⟩, by decide, by decide⟩

theorem witness_StepsKeepMemoriesCanonical : afterA.MemoriesOk ∧ ∃ t, step afterA = .next t := ⟨by decide, _, rfl⟩
theorem witness_StepsKeepTheStatusWord : afterA.MemoriesOk ∧ afterA.StatusOk ∧ ∃ t, step afterA = .next t :=
  ⟨by decide, by decide, _, rfl⟩
theorem witness_StepsKeepTheEncoderInvariant :
    (scanning enc1).MemoriesOk ∧ (scanning enc1).EncoderOk ∧ enc1.phase = .scan ∧ ∃ t, step (scanning enc1) = .next t :=
  ⟨by decide, fun _ => valid1.1, by decide, _, rfl⟩
theorem witness_StepsKeepTheDecoderInvariant :
    afterA.MemoriesOk ∧ afterA.DecoderOk ∧ afterA.dec.phase = .loop ∧ ∃ t, step afterA = .next t :=
  ⟨by decide, ⟨(by intro h; cases h), fun _ => loop_afterA⟩, rfl, _, rfl⟩
theorem witness_NoStepFaults : (scanning enc3).EncoderOk ∧ (scanning enc3).enc.phase = .scan := ⟨fun _ => valid3.1, by decide⟩

theorem witness_AbsentRegistersReadZero : (6 : Fin 16) = 6 ∨ (6 : Fin 16) = 7 ∨ (6 : Fin 16) = 15 := by decide
theorem witness_RegistersReadAsHeld :
    (4, used.enc.outLen) ∈ [((4 : Fin 16), used.enc.outLen), (5, used.enc.fInfo)] ∧ isBusy used.enc.status = false ∧ isBusy used.dec.status = false := by decide
theorem witness_ConfigurationWritesChangeOneRegister :
    State.reset.cfg.lenW = none ∧ 255 < 256 ∧ 65535 < 2 ^ State.reset.cfg.bpcMax := by decide
theorem witness_InSpacesAreStableWhileBusy :
    isBusy (writer 6 0 0).enc.status = true ∧ isBusy afterA.dec.status = true ∧ isBusy State.reset.enc.status = false ∧
      Memory.wf State.reset.enc.inMem ∧ isBusy State.reset.dec.status = false ∧ 65535 < 2 ^ State.reset.cfg.bpcMax ∧
      Memory.wf State.reset.dec.inMem := by decide

/-- Both engines at the end of a command that returned one element. -/
def doneBoth : State :=
  { State.reset with
    enc := { Enc.reset with status := statusFinished .seq, outLen := 1, outMem := [(0, 16)], phase := .done }
    dec := { Dec.reset with status := statusFinished .seq, outLen := 1, outMem := [(0, 97)], phase := .done } }
theorem witness_OutSpacesAreValidAfterDone :
    isDone State.reset.enc.status = false ∧ isDone State.reset.dec.status = false ∧ doneBoth.enc.status = statusFinished .seq ∧
      0 < doneBoth.enc.outLen ∧ doneBoth.dec.status = statusFinished .seq ∧ 0 < doneBoth.dec.outLen ∧
      isDone doneBoth.enc.status = true ∧ doneBoth.enc.outLen ≤ 1 ∧ isDone used.enc.status = true ∧
      statusKind used.enc.status ≠ 0 ∧ isBusy (writer 6 0 0).enc.status = true ∧ isBusy afterA.dec.status = true := by decide
theorem witness_EngineStepsCommute :
    (∃ t u, encStep { afterA with enc := enc1 } = .next t ∧ decStep t = .next u) ∧
      ∃ v u, decStep { afterA with enc := enc1 } = .next v ∧ encStep v = .next u := ⟨⟨_, _, rfl, rfl⟩, ⟨_, _, rfl, rfl⟩⟩
theorem witness_EncoderTerminates :
    (scanning enc0).Unbounded ∧ (scanning enc0).sched = [] ∧ enc0.phase = .scan ∧ enc0.ScanOk .default ∧ Memory.wf enc0.outMem :=
  ⟨by decide, rfl, by decide, valid0.1, valid0.2⟩
theorem witness_DecoderTerminates :
    afterA.sched = [] ∧ afterA.enc.phase ≠ .scan ∧ afterA.dec.phase = .loop ∧ afterA.dec.LoopOk .default ∧ Memory.wf afterA.dec.outMem :=
  ⟨rfl, by decide, rfl, loop_afterA, by decide⟩
-- V2 and W1
theorem witness_DecodingTheEncodingGivesTheInput :
    (encInput 6 [97]).Unbounded ∧ (encInput 6 [97]).sched = [] ∧ isBusy (encInput 6 [97]).enc.status = false ∧
      Memory.wf (encInput 6 [97]).enc.outMem ∧ 1 ≤ (encInput 6 [97]).enc.bpcReg.toNat ∧
      (encInput 6 [97]).enc.bpcReg.toNat ≤ (encInput 6 [97]).cfg.bpcMax ∧ (decInput 32 [6, 5, 0]).cfg = (encInput 6 [97]).cfg ∧
      (decInput 32 [6, 5, 0]).enc.phase ≠ .scan ∧ isBusy (decInput 32 [6, 5, 0]).dec.status = false ∧
      Memory.wf (decInput 32 [6, 5, 0]).dec.outMem ∧
      (decInput 32 [6, 5, 0]).dec.resetReg = 2 ^ ((encInput 6 [97]).enc.bpcReg.toNat - 1) := by decide
theorem witness_DecodingTheEncodingGivesTheInput_symbols :
    (match exec .encStart (encInput 6 [97]) with
      | .next t => result (steps 2 t) fun u =>
          (u.enc.outLen, Memory.slice (decInput 32 [6, 5, 0]).dec.inMem 0 3 == Memory.slice u.enc.outMem 0 3)
      | .fault _ => none
      | .refused _ => none) = some (3, true) ∧ (decInput 32 [6, 5, 0]).dec.lenReg = 3 := by decide

end Sys2Proof.Tests
end

section
/-! Proofs of the family 00_scope: full dictionaries (R7, R137, R274). -/

namespace Sys2Proof.Machine

/-! ### What a full dictionary is, and what each operation does with it -/

/-- A number does not fit a width exactly when the width is finite and its range ends at or below the number (R137). -/
theorem fitsWidth_eq_false_iff {w : Option Nat} {n : Nat} :
    fitsWidth w n = false ↔ ∃ b, w = some b ∧ 2 ^ b ≤ n := by
  cases w <;> simp [fitsWidth]

/-- `dictFull` is the test of DICT_CAP and CNT_W that R7 and R137 ask for. -/
theorem dictFull_iff_noRoom {p : Params} {n : Nat} : dictFull p n = true ↔ NoRoom p n := by
  have hcap : p.dictCap.any (fun c => decide (c ≤ n)) = true ↔ ∃ cap, p.dictCap = some cap ∧ cap < n + 1 := by
    cases p.dictCap <;> simp
  have hcnt : (!fitsWidth p.cntW (n + 1)) = true ↔ ∃ w, p.cntW = some w ∧ 2 ^ w ≤ n + 1 := by
    rw [Bool.not_eq_true', fitsWidth_eq_false_iff]
  rw [dictFull, Bool.or_eq_true, hcap, hcnt, NoRoom]

theorem Enc.registerChar_full {p : Params} {e : Enc} (hf : dictFull p e.dictSize = true) (c : Char16) :
    e.registerChar p c = .ended (e.raise .capacityExceeded e.ii) := if_pos hf

theorem Enc.register_full {p : Params} {e : Enc} (hf : dictFull p e.dictSize = true) (q : Phrase) :
    e.register p q = .ended (e.raise .capacityExceeded e.ii) := if_pos hf

theorem Dec.registerNext_full {p : Params} {d : Dec} (hf : dictFull p d.dictSize = true) (q : Phrase) :
    d.registerNext p q = .ended (d.raise .capacityExceeded d.dictSize) := if_pos hf

theorem Dec.headerLiteral_full {p : Params} (hf : dictFull p 3 = true) (c : Char16) (d : Dec) :
    d.headerLiteral p c = .ended (d.raise .capacityExceeded (Config.unsetCounter p)) := if_pos hf

/-- START with a legal width where dictSize 3 has no room (R180, log 30): it fails after its checks, and no symbol is stored. -/
theorem Enc.start_full {p : Params} {e : Enc} (hb : isBusy e.status = false) (hl : legalBpc p e.bpcReg.toNat = true)
    (hf : dictFull p 2 = true) :
    ∃ f, e.start p false = .ended f ∧ f.status = statusFailed .capacityExceeded ∧ f.phase = .done ∧ f.outLen = 0 ∧
      f.outMem = e.outMem := by
  simp [Enc.start, hb, hl, hf]

/-! ### The same of the instructions -/

section
variable {s : State}

theorem exec_encRegistration_full (hf : dictFull s.cfg s.enc.dictSize = true) {c : Char16} {q : Phrase} :
    ∀ i ∈ [Instr.registerChar c, Instr.register q], exec i s = exec (.raise .enc .capacityExceeded s.enc.ii) s := by
  rw [List.forall_mem_cons, List.forall_mem_singleton]
  constructor
  · exact congrArg (encOutcome s) (Enc.registerChar_full hf c)
  · exact congrArg (encOutcome s) (Enc.register_full hf q)

theorem exec_decRegistration_full (hf : dictFull s.cfg s.dec.dictSize = true) {c : Char16} {q : Phrase} :
    ∀ i ∈ [Instr.registerLit c, Instr.registerPhrase q],
      exec i s = exec (.raise .dec .capacityExceeded s.dec.dictSize) s := by
  rw [List.forall_mem_cons, List.forall_mem_singleton]
  constructor
  · exact congrArg (decOutcome s) (Dec.registerNext_full hf (single c))
  · exact congrArg (decOutcome s) (Dec.registerNext_full hf q)

theorem exec_headerLiteral_full (hf : dictFull s.cfg 3 = true) {c8 : BitVec 8} {c : Char16} :
    ∀ i ∈ [Instr.hdrLit8 c8, Instr.hdrLit16 c],
      exec i s = exec (.raise .dec .capacityExceeded (Config.unsetCounter s.cfg)) s := by
  rw [List.forall_mem_cons, List.forall_mem_singleton]
  constructor
  · exact congrArg (decOutcome s) (Dec.headerLiteral_full hf (c8.setWidth 16) s.dec)
  · exact congrArg (decOutcome s) (Dec.headerLiteral_full hf c s.dec)

theorem exec_encStart_full (hb : isBusy s.enc.status = false) (hl : legalBpc s.cfg s.enc.bpcReg.toNat = true)
    (hf : dictFull s.cfg 2 = true) :
    ∃ e, exec .encStart s = .next { s with enc := e } ∧ e.status = statusFailed .capacityExceeded ∧ e.phase = .done ∧
      e.outLen = 0 ∧ e.outMem = s.enc.outMem := by
  obtain ⟨e, hrun, hleft⟩ := Enc.start_full hb hl hf
  exact ⟨e, congrArg (encOutcome s) hrun, hleft⟩

end

/-- Settles O41: `dictFull` is the test `NoRoom`, and each operation that sets dictSize makes it first. -/
theorem fullDictionariesRaise : Obligations.FullDictionariesRaise := by
  unfold Obligations.FullDictionariesRaise
  intro s c8 c q
  refine ⟨fun n => dictFull_iff_noRoom, fun h => exec_encRegistration_full (dictFull_iff_noRoom.mpr h),
    fun h => exec_decRegistration_full (dictFull_iff_noRoom.mpr h),
    fun h => ⟨_, exec_headerLiteral_full (dictFull_iff_noRoom.mpr h)⟩, fun h hb hmin hmax => ?_⟩
  have hl : legalBpc s.cfg s.enc.bpcReg.toNat = true := by simp [legalBpc, hmin, hmax]
  exact exec_encStart_full hb hl (dictFull_iff_noRoom.mpr h)

end Sys2Proof.Machine
end

section
/-! Proofs of the family 10_state: what every step keeps of the status words and of the invariants of R44. -/

namespace Sys2Proof.Machine

/-! ### What a step can do to each engine -/

section
variable {s t : State} {P Q : Enc → Prop}

/-- What holds wherever a run of the encoder ends holds of the next state's encoder. -/
theorem Run.Post.encOutcome_next {r : Run Enc Unit} (hr : r.Post P Q) (h : encOutcome s r = .next t) :
    t.cfg = s.cfg ∧ (P t.enc ∨ Q t.enc) := by
  obtain ⟨e, rfl, hok | hended⟩ := Machine.encOutcome_next h
  · exact ⟨rfl, .inl (hr.1 _ _ hok)⟩
  · exact ⟨rfl, .inr (hr.2 _ hended)⟩

/-- A step keeps the parameters, and does to each engine what an access of the host or a step of that engine does. -/
theorem step_engine_cases (hm : s.MemoriesOk) (h : step s = .next t) :
    t.cfg = s.cfg ∧ (s.enc.Hosted s.cfg t.enc ∨ ∃ r, encStep { s with sched := r } = .next t) ∧
      (s.dec.Hosted s.cfg t.dec ∨ ∃ r, decStep { s with sched := r } = .next t) := by
  obtain ⟨-, heo, -, hdo⟩ := hm
  obtain ⟨r, hhost | henc | hdec⟩ := step_cases h
  · obtain ⟨hcfg, he, hd⟩ := hostStep_next hhost
    exact ⟨hcfg, .inl he, .inl hd⟩
  · obtain rfl | ⟨-, e, rfl, -⟩ := encStep_cases henc heo
    · exact ⟨rfl, .inl .same, .inl .same⟩
    · exact ⟨rfl, .inr ⟨r, henc⟩, .inl .same⟩
  · obtain ⟨d, rfl, -⟩ := decStep_cases hdec hdo
    exact ⟨rfl, .inl .same, .inr ⟨r, hdec⟩⟩

end

/-! ### The status words (R25, R34, R43) -/

/-- `State.StatusOk`, of the encoder. -/
def Enc.StatusOk (e : Enc) : Prop :=
  statusState e.status = e.phase.state ∧
  e.status ∈ [0#8, statusBusy, statusFinished .seq, statusFailed .invalidArgument, statusFailed .capacityExceeded]

/-- `State.StatusOk`, of the decoder. -/
def Dec.StatusOk (d : Dec) : Prop :=
  statusState d.status = d.phase.state ∧
  d.status ∈ [0#8, statusBusy, statusFinished .seq, statusFinished .null, statusFinished .overrun,
    statusFailed .truncatedInput, statusFailed .corruptCode, statusFailed .invalidArgument,
    statusFailed .capacityExceeded]

theorem statusOk_iff {s : State} : s.StatusOk ↔ s.enc.StatusOk ∧ s.dec.StatusOk := by
  unfold State.StatusOk Enc.StatusOk Dec.StatusOk
  tauto

@[simp] theorem statusState_statusBusy : statusState statusBusy = stateBusy := by decide
@[simp] theorem statusState_statusFinished (k : Kind) : statusState (statusFinished k) = stateDone := by
  cases k <;> decide
@[simp] theorem statusState_statusFailed (c : Cause) : statusState (statusFailed c) = stateDone := by
  cases c <;> decide

/-- The end of a command of the encoder leaves a word it produces, and DONE in both places (R34, R279, R280). -/
theorem Enc.statusOk_of_done {e : Enc} (hp : e.phase = .done)
    (hs : e.status ∈ [statusFinished .seq, statusFailed .invalidArgument, statusFailed .capacityExceeded]) :
    e.StatusOk := by
  unfold Enc.StatusOk
  simp only [List.mem_cons, List.not_mem_nil, or_false] at hs
  obtain hs | hs | hs := hs <;> simp [hs, hp, EncPhase.state]

/-- The end of a command of the decoder leaves a word it produces, and DONE in both places (R43, R279, R280). -/
theorem Dec.statusOk_of_done {d : Dec} (hp : d.phase = .done)
    (hs : d.status ∈ [statusFinished .seq, statusFinished .null, statusFinished .overrun, statusFailed .truncatedInput,
      statusFailed .corruptCode, statusFailed .invalidArgument, statusFailed .capacityExceeded]) : d.StatusOk := by
  unfold Dec.StatusOk
  simp only [List.mem_cons, List.not_mem_nil, or_false] at hs
  obtain hs | hs | hs | hs | hs | hs | hs := hs <;> simp [hs, hp, DecPhase.state]

theorem Enc.reset_statusOk : Enc.reset.StatusOk := ⟨by decide, by decide⟩

theorem Dec.reset_statusOk : Dec.reset.StatusOk := ⟨by decide, by decide⟩

theorem Enc.Hosted.statusOk {p : Params} {e f : Enc} (h : e.Hosted p f) (he : e.StatusOk) : f.StatusOk := by
  cases h with
  | same => exact he
  | width v => exact he
  | length v => exact he
  | store i c hidle => exact he
  | start _ hstart =>
    obtain rfl | ⟨-, -, ⟨hp, hs, -⟩ | ⟨hp, hs⟩⟩ := hstart.leaves
    · exact he
    · simp [Enc.StatusOk, hp, hs, EncPhase.state]
    · exact Enc.statusOk_of_done hp hs
  | reset m n hm hn => exact Enc.reset_statusOk

theorem Dec.Hosted.statusOk {p : Params} {d f : Dec} (h : d.Hosted p f) (hd : d.StatusOk) : f.StatusOk := by
  cases h with
  | same => exact hd
  | mask v => exact hd
  | length v => exact hd
  | store i v hidle => exact hd
  | start _ hstart =>
    obtain rfl | ⟨-, -, ⟨hp, hs, -⟩ | ⟨hp, hs⟩⟩ := hstart.leaves
    · exact hd
    · simp [Dec.StatusOk, hp, hs, DecPhase.state]
    · exact Dec.statusOk_of_done hp (by simp at hs ⊢; tauto)
  | reset m n hm hn => exact Dec.reset_statusOk

/-- A unit of the encoder keeps the word and the phase, or ends the command. -/
theorem encStep_statusOk {s t : State} (h : encStep s = .next t) (hm : Memory.wf s.enc.outMem) (hs : s.enc.StatusOk) :
    t.enc.StatusOk := by
  obtain rfl | ⟨-, e, rfl, -, hon | hover⟩ := encStep_cases h hm
  · exact hs
  · simpa only [Enc.StatusOk, hon.status, hon.phase] using hs
  · exact Enc.statusOk_of_done hover.phase (by obtain h | h := hover.status <;> simp [h])

/-- A unit of the decoder keeps the word, and the phase up to HEADER and LOOP, which STATE does not tell apart (R43), or ends
the command. -/
theorem decStep_statusOk {s t : State} (h : decStep s = .next t) (hm : Memory.wf s.dec.outMem) (hs : s.dec.StatusOk) :
    t.dec.StatusOk := by
  obtain ⟨d, rfl, rfl | ⟨-, -, ⟨hst, hp | ⟨hheader, hloop⟩⟩ | ⟨hp, hst⟩⟩⟩ := decStep_cases h hm
  · exact hs
  · simpa only [Dec.StatusOk, hst, hp] using hs
  · simpa only [Dec.StatusOk, hst, hheader, hloop, DecPhase.state] using hs
  · exact Dec.statusOk_of_done hp (by simp at hst ⊢; tauto)

/-- Settles O45: an access of the host and a unit of either engine keep both words. -/
theorem stepsKeepTheStatusWord : Obligations.StepsKeepTheStatusWord := by
  unfold Obligations.StepsKeepTheStatusWord
  intro s t hm hs h
  rw [statusOk_iff] at hs ⊢
  obtain ⟨hse, hsd⟩ := hs
  have ⟨_, heo, _, hdo⟩ := hm
  obtain ⟨-, he, hd⟩ := step_engine_cases hm h
  constructor
  · obtain he | ⟨r, he⟩ := he
    · exact he.statusOk hse
    · exact encStep_statusOk he heo hse
  · obtain hd | ⟨r, hd⟩ := hd
    · exact hd.statusOk hsd
    · exact decStep_statusOk hd hdo hsd

/-! ### The encoder in phase SCAN (R44 items 1 to 5 and 7) -/

/-- The capacities are no part of the invariant: of the parameters it reads BPC_MAX alone. -/
theorem Enc.scanOk_ideal {p : Params} {e : Enc} : e.ScanOk (ideal p) ↔ e.ScanOk p :=
  ⟨fun h => { h with }, fun h => { h with }⟩

/-- What the host owns of the encoder is no part of the invariant (R61, R316). -/
theorem Enc.ScanOk.with_hostOwned {p : Params} {e : Enc} (h : e.ScanOk p) (bpc : BitVec 8) (len : Nat) (m : Memory Char16) :
    Enc.ScanOk p { e with bpcReg := bpc, lenReg := len, inMem := m } :=
  { h with }

section
variable {p : Params} {e : Enc}

/-- A character step within any capacities goes on in a valid state, or ends the command (R184, R274). -/
theorem Enc.ScanOk.charStep (h : e.ScanOk p) (hm : Memory.wf e.outMem) (hi : e.ii < e.len) :
    (e.charStep p).Post (fun f => f.ScanOk p) (fun f => f.phase = .done) := by
  obtain heq | ⟨g, hfull⟩ := Enc.capped_charStep p e
  · obtain ⟨f, hf, hstep, -⟩ := Enc.charStep_ok (ideal_unbounded p) (Enc.scanOk_ideal.2 h) hm hi
    rw [heq, hf]
    exact .ok (Enc.scanOk_ideal.1 hstep.ok)
  · rw [hfull]
    exact .ended rfl

/-- The finish step within any capacities ends the command (R191, R274). -/
theorem Enc.ScanOk.finishStep (h : e.ScanOk p) (hm : Memory.wf e.outMem) :
    (e.finishStep p).Post (fun f => f.ScanOk p) (fun f => f.phase = .done) := by
  obtain heq | ⟨g, hfull⟩ := Enc.capped_finishStep p e
  · obtain ⟨f, _, _, _, _, -, -, -, -, -, -, hf⟩ := Enc.finishStep_ok (ideal_unbounded p) (Enc.scanOk_ideal.2 h) hm
    rw [heq, hf]
    exact .ended rfl
  · rw [hfull]
    exact .ended rfl

/-- The invariant of the phase SCAN, where the encoder is in it. -/
def Enc.PhaseOk (p : Params) (e : Enc) : Prop := e.phase = .scan → e.ScanOk p

theorem encoderOk_iff {s : State} : s.EncoderOk ↔ s.enc.PhaseOk s.cfg := Iff.rfl

theorem Enc.phaseOk_of_ne (h : e.phase ≠ .scan) : e.PhaseOk p := fun hp => absurd hp h

theorem Enc.Hosted.phaseOk {f : Enc} (h : e.Hosted p f) (he : e.PhaseOk p) : f.PhaseOk p := by
  cases h with
  | same => exact he
  | width v => exact fun hp => (he hp).with_hostOwned v e.lenReg e.inMem
  | length v => exact fun hp => (he hp).with_hostOwned e.bpcReg v e.inMem
  | store i c hidle => exact fun hp => (he hp).with_hostOwned e.bpcReg e.lenReg _
  | start _ hstart =>
    obtain rfl | ⟨-, -, ⟨-, -, hok⟩ | ⟨hp, -⟩⟩ := hstart.leaves
    · exact he
    · exact fun _ => hok
    · exact Enc.phaseOk_of_ne (by simp [hp])
  | reset m n hm hn => exact Enc.phaseOk_of_ne nofun

end

/-- The unit the sequencer picks in phase SCAN (R183) keeps the invariant or ends the command. -/
theorem exec_encUnit_phaseOk {s t : State} (hs : s.enc.ScanOk s.cfg) (hm : Memory.wf s.enc.outMem)
    (h : exec (encUnit s.enc) s = .next t) : t.enc.PhaseOk s.cfg := by
  have unit : ∀ r : Run Enc Unit, r.Post (fun f => f.ScanOk s.cfg) (fun f => f.phase = .done) →
      encOutcome s r = .next t → t.enc.PhaseOk s.cfg := by
    intro r hr ho
    obtain ⟨-, hok | hdone⟩ := hr.encOutcome_next ho
    · exact fun _ => hok
    · exact Enc.phaseOk_of_ne (by simp [hdone])
  unfold encUnit at h
  split at h
  · exact unit _ (hs.charStep hm ‹_›) h
  · exact unit _ (hs.finishStep hm) h

theorem encStep_phaseOk {s t : State} (h : encStep s = .next t) (hm : Memory.wf s.enc.outMem)
    (hs : s.enc.PhaseOk s.cfg) : t.enc.PhaseOk s.cfg := by
  obtain rfl | ⟨hp, -, -, hexec, -⟩ := encStep_cases h hm
  · exact hs
  · exact exec_encUnit_phaseOk (hs hp) hm hexec

/-- Settles O46: START establishes the invariant, a character step keeps it, and nothing else touches what it speaks of. -/
theorem stepsKeepTheEncoderInvariant : Obligations.StepsKeepTheEncoderInvariant := by
  unfold Obligations.StepsKeepTheEncoderInvariant
  intro s t hm hs h
  have ⟨_, heo, _, _⟩ := hm
  obtain ⟨hcfg, he, -⟩ := step_engine_cases hm h
  rw [encoderOk_iff] at hs ⊢
  rw [hcfg]
  obtain he | ⟨r, he⟩ := he
  · exact he.phaseOk hs
  · exact encStep_phaseOk (s := { s with sched := r }) he heo hs

/-! ### The decoder in phases HEADER and LOOP (R44 items 1, 6 and 7) -/

section
variable {p : Params} {d : Dec}

/-- The invariants of the phases HEADER and LOOP, where the decoder is in one of them. -/
def Dec.PhaseOk (p : Params) (d : Dec) : Prop := (d.phase = .header → d.HeaderOk p) ∧ (d.phase = .loop → d.LoopOk p)

theorem decoderOk_iff {s : State} : s.DecoderOk ↔ s.dec.PhaseOk s.cfg := Iff.rfl

theorem Dec.phaseOk_of_ne (hh : d.phase ≠ .header) (hl : d.phase ≠ .loop) : d.PhaseOk p :=
  ⟨fun hp => absurd hp hh, fun hp => absurd hp hl⟩

/-- What the host owns of the decoder is no part of the invariants (R63, R316). -/
theorem Dec.PhaseOk.with_hostOwned (h : d.PhaseOk p) (mask len : Nat) (m : Memory Symbol) :
    Dec.PhaseOk p { d with resetReg := mask, lenReg := len, inMem := m } :=
  ⟨fun hp => { h.1 hp with }, fun hp => { h.2 hp with }⟩

theorem Dec.Hosted.phaseOk {f : Dec} (h : d.Hosted p f) (hd : d.PhaseOk p) : f.PhaseOk p := by
  cases h with
  | same => exact hd
  | mask v => exact hd.with_hostOwned v d.lenReg d.inMem
  | length v => exact hd.with_hostOwned d.resetReg v d.inMem
  | store i v hidle => exact hd.with_hostOwned d.resetReg d.lenReg _
  | start _ hstart =>
    obtain rfl | ⟨-, -, ⟨hp, -, hok⟩ | ⟨hp, -⟩⟩ := hstart.leaves
    · exact hd
    · exact ⟨fun _ => hok, fun hl => by simp [hp] at hl⟩
    · exact Dec.phaseOk_of_ne (by simp [hp]) (by simp [hp])
  | reset m n hm hn => exact Dec.phaseOk_of_ne nofun nofun

end

/-- What a unit of the decoder leaves meets the invariant of its phase. -/
theorem Dec.Stepped.phaseOk {s t : State} {n : Nat} {o : Host.Outcome State Fault Refusal} (h : Dec.Stepped s n o)
    (ho : o = .next t) : t.dec.PhaseOk s.cfg := by
  subst ho
  obtain ⟨e, heq, -, -, ⟨hp, hok, -⟩ | ⟨hp, -⟩ | ⟨hp, -⟩⟩ := h <;> cases heq
  · exact ⟨fun hh => by simp [hp] at hh, fun _ => hok⟩
  · exact Dec.phaseOk_of_ne (by simp [hp]) (by simp [hp])
  · exact Dec.phaseOk_of_ne (by simp [hp]) (by simp [hp])

theorem decStep_phaseOk {s t : State} (h : decStep s = .next t) (hm : Memory.wf s.dec.outMem)
    (hs : s.dec.PhaseOk s.cfg) : t.dec.PhaseOk s.cfg := by
  unfold decStep at h
  cases hp : s.dec.phase <;> simp only [hp] at h
  case idle => cases h; exact hs
  case header => exact (execDecHeader_stepped (hs.1 hp) hp hm).phaseOk h
  case loop => exact (execDecToken_stepped (hs.2 hp) hp hm).phaseOk h
  case done => cases h; exact hs

/-- Settles O47: START establishes the header's invariant, the header step leads from it to the loop's, and a token step keeps
that. -/
theorem stepsKeepTheDecoderInvariant : Obligations.StepsKeepTheDecoderInvariant := by
  unfold Obligations.StepsKeepTheDecoderInvariant
  intro s t hm hs h
  have ⟨_, _, _, hdo⟩ := hm
  obtain ⟨hcfg, -, hd⟩ := step_engine_cases hm h
  rw [decoderOk_iff] at hs ⊢
  rw [hcfg]
  obtain hd | ⟨r, hd⟩ := hd
  · exact hd.phaseOk hs
  · exact decStep_phaseOk (s := { s with sched := r }) hd hdo hs

end Sys2Proof.Machine
end

section
/-! Proofs of the family 10_state: what an operation of one engine leaves as it is (R20, R61, R166, R316). -/

namespace Sys2Proof.Machine

/-! ### Runs that keep a part of the engine -/

/-- However `r` ends, the part `g` of the engine is what it was in `s`. -/
def Run.Keeps {σ α ρ : Type} (g : σ → ρ) (s : σ) (r : Run σ α) : Prop := r.Post (fun t => g t = g s) (fun t => g t = g s)

section
variable {σ α β ρ : Type} {g : σ → ρ} {s t : σ}

theorem Run.Keeps.ok {a : α} (h : g t = g s) : Run.Keeps g s (.ok a t) := Run.Post.ok h

theorem Run.Keeps.ended (h : g t = g s) : Run.Keeps g s (.ended t : Run σ α) := Run.Post.ended h

theorem Run.Keeps.andThen {r : Run σ α} {k : α → σ → Run σ β} (h : r.Keeps g s) (hk : ∀ a t, (k a t).Keeps g t) :
    (r.andThen k).Keeps g s :=
  Run.Post.andThen h fun a t ht => by
    have hkt := hk a t
    rwa [Run.Keeps, ht] at hkt

end

/-! ### The encoder -/

/-- What the host owns of the encoder: ENC_IN, ENC_BPC and ENC_LEN (R61, R316). -/
def Enc.hostOwned (e : Enc) : Memory Char16 × BitVec 8 × Nat := (e.inMem, e.bpcReg, e.lenReg)

section
variable (p : Params) (e : Enc)

theorem Enc.outAppend_keeps (v : Symbol) : (e.outAppend p v).Keeps Enc.hostOwned e := by
  unfold Enc.outAppend
  split
  · exact .ended rfl
  · exact .ok rfl

theorem Enc.putBit_keeps (b : Bool) : (e.putBit p b).Keeps Enc.hostOwned e := by
  unfold Enc.putBit
  dsimp only
  split
  · exact (Enc.outAppend_keeps p { e with acc := _, pos := _ } _).andThen fun _ _ => .ok rfl
  · exact .ok rfl

theorem Enc.putBits_keeps (bs : List Bool) : (e.putBits p bs).Keeps Enc.hostOwned e := by
  induction bs generalizing e with
  | nil => exact .ok rfl
  | cons b bs ih => exact (Enc.putBit_keeps p e b).andThen fun _ f => ih f

theorem Enc.registerChar_keeps (c : Char16) : (e.registerChar p c).Keeps Enc.hostOwned e := by
  unfold Enc.registerChar
  split
  · exact .ended rfl
  · exact .ok rfl

theorem Enc.register_keeps (q : Phrase) : (e.register p q).Keeps Enc.hostOwned e := by
  unfold Enc.register
  split
  · exact .ended rfl
  · exact .ok rfl

theorem Enc.emitLiteral_keeps (q : Phrase) : (e.emitLiteral p q).Keeps Enc.hostOwned e := by
  rw [Enc.emitLiteral_eq]
  exact (Enc.putBits_keeps p e _).andThen fun _ _ => .ok rfl

theorem Enc.emit_keeps (q : Phrase) : (e.emit p q).Keeps Enc.hostOwned e := by
  rw [Enc.emit_eq]
  cases e.tokenBits p q with
  | none => exact .fault
  | some bits =>
    refine (Enc.putBits_keeps p e bits).andThen fun _ f => .ok ?_
    unfold Enc.emitted
    split <;> rfl

theorem Enc.emitMatch_keeps : (e.emitMatch p).Keeps Enc.hostOwned e := by
  unfold Enc.emitMatch
  split
  · exact .ok rfl
  · exact Enc.emit_keeps p e _

theorem Enc.charStep_keeps : (e.charStep p).Keeps Enc.hostOwned e := by
  unfold Enc.charStep
  dsimp only
  refine Run.Keeps.andThen ?_ fun _ f => ?_
  · split
    · exact .ok rfl
    · exact Enc.registerChar_keeps p { e with ii := _ } _
  · split
    · exact .ok rfl
    · exact (Enc.emitMatch_keeps p f).andThen fun _ g => (Enc.register_keeps p g _).andThen fun _ _ => .ok rfl

theorem Enc.finishStep_keeps : (e.finishStep p).Keeps Enc.hostOwned e :=
  (Enc.emitMatch_keeps p e).andThen fun _ f => (Enc.putBits_keeps p f _).andThen fun _ g =>
    (Enc.putBits_keeps p g _).andThen fun _ _ => .ended rfl

theorem Enc.start_keeps (absent : Bool) : (e.start p absent).Keeps Enc.hostOwned e := by
  unfold Enc.start
  dsimp only
  split
  · exact .ok rfl
  split
  · exact .ended rfl
  split
  · exact .ended rfl
  split
  · exact .ended rfl
  · exact .ok rfl

end

/-! ### The decoder -/

/-- What the host owns of the decoder: DEC_IN, DEC_RESET and DEC_LEN (R63, R316). -/
def Dec.hostOwned (d : Dec) : Memory Symbol × Nat × Nat := (d.inMem, d.resetReg, d.lenReg)

@[simp] theorem Dec.refill_hostOwned (d : Dec) : d.refill.hostOwned = d.hostOwned := by simp [Dec.hostOwned]

section
variable (p : Params) (d : Dec)

theorem Dec.getBit_keeps : d.getBit.Keeps Dec.hostOwned d := by
  unfold Dec.getBit
  dsimp only
  split
  · exact .ended rfl
  · refine .ok ?_
    split
    · exact Dec.refill_hostOwned _
    · rfl

theorem Dec.getBits_keeps (n : Nat) : (d.getBits n).Keeps Dec.hostOwned d := by
  induction n generalizing d with
  | zero => exact .ok rfl
  | succ n ih => exact (Dec.getBit_keeps d).andThen fun _ e => (ih e).andThen fun _ _ => .ok rfl

theorem Dec.getLsb_keeps (n : Nat) : (d.getLsb n).Keeps Dec.hostOwned d :=
  (Dec.getBits_keeps d n).andThen fun _ _ => .ok rfl

theorem Dec.getMsb_keeps (m : Nat) : (d.getMsb p m).Keeps Dec.hostOwned d :=
  (Dec.getBits_keeps d m).andThen fun _ _ => .ok rfl

theorem Dec.fetchHeader_keeps : (d.fetchHeader p).Keeps Dec.hostOwned d := by
  refine (Dec.getLsb_keeps d 2).andThen fun code e => ?_
  cases headerClass code with
  | lit8 => exact (Dec.getMsb_keeps p e 8).andThen fun _ _ => .ok rfl
  | lit16 => exact (Dec.getMsb_keeps p e 16).andThen fun _ _ => .ok rfl
  | eos | stored | selfRef | illegal => exact .ok rfl

theorem Dec.fetchLoop_keeps : (d.fetchLoop p).Keeps Dec.hostOwned d := by
  refine (Dec.getLsb_keeps d d.numBits).andThen fun code e => ?_
  cases loopClass e.dictSize code with
  | lit8 => exact (Dec.getMsb_keeps p e 8).andThen fun _ _ => .ok rfl
  | lit16 => exact (Dec.getMsb_keeps p e 16).andThen fun _ _ => .ok rfl
  | eos | stored | selfRef | illegal => exact .ok rfl

theorem Dec.outAppend_keeps (c : Char16) : (d.outAppend p c).Keeps Dec.hostOwned d := by
  unfold Dec.outAppend
  split
  · exact .ended rfl
  · exact .ok rfl

theorem Dec.outAppendAll_keeps (cs : List Char16) : (Dec.outAppendAll p cs d).Keeps Dec.hostOwned d := by
  induction cs generalizing d with
  | nil => exact .ok rfl
  | cons c cs ih => exact (Dec.outAppend_keeps p d c).andThen fun _ e => ih e

theorem Dec.registerNext_keeps (q : Phrase) : (d.registerNext p q).Keeps Dec.hostOwned d := by
  unfold Dec.registerNext
  split
  · exact .ended rfl
  · exact .ok rfl

theorem Dec.tail_keeps (k : Nat) : (d.tail p k).Keeps Dec.hostOwned d := by
  unfold Dec.tail
  split
  · exact .ended rfl
  · exact (Dec.outAppendAll_keeps p d _).andThen fun _ e => (Dec.registerNext_keeps p e _).andThen fun _ _ => .ok rfl

theorem Dec.literal_keeps (c : Char16) : (d.literal p c).Keeps Dec.hostOwned d :=
  (Dec.registerNext_keeps p d _).andThen fun _ e => Dec.tail_keeps p e _

theorem Dec.headerLiteral_keeps (c : Char16) : (d.headerLiteral p c).Keeps Dec.hostOwned d := by
  unfold Dec.headerLiteral
  split
  · exact .ended rfl
  · exact (Dec.outAppend_keeps p { d with
      dict := _, dictSize := _, numBits := _, enlargeIn := _, w := _ } c).andThen fun _ _ => .ok rfl

theorem Dec.start_keeps (absent : Bool) : (d.start p absent).Keeps Dec.hostOwned d := by
  unfold Dec.start
  dsimp only
  split
  · exact .ok rfl
  split
  · exact .ended rfl
  split
  · exact .ended rfl
  split
  · exact .ended rfl
  · exact .ok rfl

end

/-! ### The machine -/

/-- From `s` to `t` an operation of one engine has changed that engine alone, and not what the host owns of it; an operation
of the reader may have left its value in `ret` (log 8). -/
def State.FramedFor : Engine → State → State → Prop
  | .enc, s, t => t = { s with enc := t.enc } ∧ t.enc.hostOwned = s.enc.hostOwned
  | .dec, s, t => t = { s with dec := t.dec, ret := t.ret } ∧ t.dec.hostOwned = s.dec.hostOwned

section
variable {s t : State}

theorem encOutcome_framed {r : Run Enc Unit} (hr : r.Keeps Enc.hostOwned s.enc) (h : encOutcome s r = .next t) :
    State.FramedFor .enc s t := by
  obtain ⟨e, rfl, hok | hended⟩ := encOutcome_next h
  · exact ⟨rfl, hr.1 _ _ hok⟩
  · exact ⟨rfl, hr.2 _ hended⟩

theorem decOutcome_framed {r : Run Dec Unit} (hr : r.Keeps Dec.hostOwned s.dec) (h : decOutcome s r = .next t) :
    State.FramedFor .dec s t := by
  obtain ⟨d, rfl, hok | hended⟩ := decOutcome_next h
  · exact ⟨rfl, hr.1 _ _ hok⟩
  · exact ⟨rfl, hr.2 _ hended⟩

theorem readOutcome_framed {r : Run Dec Nat} (hr : r.Keeps Dec.hostOwned s.dec) (h : readOutcome s r = .next t) :
    State.FramedFor .dec s t := by
  obtain ⟨d, ⟨v, hok, rfl⟩ | ⟨hended, rfl⟩⟩ := readOutcome_next h
  · exact ⟨rfl, hr.1 _ _ hok⟩
  · exact ⟨rfl, hr.2 _ hended⟩

/-- An operation that is one update of the encoder's registers. -/
theorem encUpdate_framed {e : Enc} (h : (.next { s with enc := e } : Host.Outcome State Fault Refusal) = .next t)
    (he : e.hostOwned = s.enc.hostOwned) : State.FramedFor .enc s t := by
  cases h
  exact ⟨rfl, he⟩

/-- An operation that is one update of the decoder's registers. -/
theorem decUpdate_framed {d : Dec} (h : (.next { s with dec := d } : Host.Outcome State Fault Refusal) = .next t)
    (hd : d.hostOwned = s.dec.hostOwned) : State.FramedFor .dec s t := by
  cases h
  exact ⟨rfl, hd⟩

/-- What follows the fetch of a token starts from the decoder that the fetch has left. -/
theorem State.FramedFor.after_fetch {d : Dec} (hd : d.hostOwned = s.dec.hostOwned)
    (h : State.FramedFor .dec { s with dec := d } t) : State.FramedFor .dec s t :=
  ⟨h.1, h.2.trans hd⟩

theorem runHeaderToken_framed {k : HeaderToken} (h : runHeaderToken k s = .next t) : State.FramedFor .dec s t := by
  cases k with
  | lit8 c => exact decOutcome_framed (Dec.headerLiteral_keeps ..) h
  | lit16 c => exact decOutcome_framed (Dec.headerLiteral_keeps ..) h
  | eos => exact decUpdate_framed h rfl
  | illegal => exact decUpdate_framed h rfl

theorem runLoopToken_framed {k : LoopToken} (h : runLoopToken k s = .next t) : State.FramedFor .dec s t := by
  cases k with
  | lit8 c => exact decOutcome_framed (Dec.literal_keeps ..) h
  | lit16 c => exact decOutcome_framed (Dec.literal_keeps ..) h
  | eos => exact decUpdate_framed h rfl
  | ref k => exact decOutcome_framed (Dec.tail_keeps ..) h
  | refnew => exact decOutcome_framed (Dec.tail_keeps ..) h
  | illegal k => exact decUpdate_framed h rfl

theorem execDecHeader_framed (h : execDecHeader s = .next t) : State.FramedFor .dec s t := by
  have hkeeps := Dec.fetchHeader_keeps s.cfg s.dec
  unfold execDecHeader at h
  split at h
  · exact (runHeaderToken_framed h).after_fetch (hkeeps.1 _ _ ‹_›)
  · exact decUpdate_framed h (hkeeps.2 _ ‹_›)
  · cases h

theorem execDecToken_framed (h : execDecToken s = .next t) : State.FramedFor .dec s t := by
  have hkeeps := Dec.fetchLoop_keeps s.cfg s.dec
  unfold execDecToken at h
  split at h
  · split at h
    · exact decUpdate_framed h rfl
    · exact decUpdate_framed h rfl
  split at h
  · exact (runLoopToken_framed h).after_fetch (hkeeps.1 _ _ ‹_›)
  · exact decUpdate_framed h (hkeeps.2 _ ‹_›)
  · cases h

/-- Every instruction keeps the frame of the engine it is an operation of. -/
theorem exec_framed {i : Instr} (h : exec i s = .next t) : State.FramedFor (engineOf i) s t := by
  cases i with
  | encStart | encStartAbsent => exact encOutcome_framed (Enc.start_keeps ..) h
  | encNop absent => exact encUpdate_framed h rfl
  | decStart | decStartAbsent => exact decOutcome_framed (Dec.start_keeps ..) h
  | decNop absent => exact decUpdate_framed h rfl
  | hdrLit8 c | hdrLit16 c => exact decOutcome_framed (Dec.headerLiteral_keeps ..) h
  | hdrEos | hdrIllegal | eos | illegal k => exact decUpdate_framed h rfl
  | lit8 c | lit16 c => exact decOutcome_framed (Dec.literal_keeps ..) h
  | ref k | refnew => exact decOutcome_framed (Dec.tail_keeps ..) h
  | tick e =>
    cases e with
    | enc => exact encUpdate_framed h rfl
    | dec => exact decUpdate_framed h rfl
  | putbit b => exact encOutcome_framed (Enc.putBit_keeps ..) h
  | putlsb v n | putmsb v m | flush | pad => exact encOutcome_framed (Enc.putBits_keeps ..) h
  | getbit => exact readOutcome_framed ((Dec.getBit_keeps _).andThen fun _ _ => .ok rfl) h
  | refill => exact decUpdate_framed h (Dec.refill_hostOwned _)
  | getlsb n => exact readOutcome_framed (Dec.getLsb_keeps ..) h
  | getmsb m => exact readOutcome_framed (Dec.getMsb_keeps ..) h
  | encChar => exact encOutcome_framed (Enc.charStep_keeps ..) h
  | registerChar c => exact encOutcome_framed (Enc.registerChar_keeps ..) h
  | register q => exact encOutcome_framed (Enc.register_keeps ..) h
  | emit q => exact encOutcome_framed (Enc.emit_keeps ..) h
  | emitLiteral q => exact encOutcome_framed (Enc.emitLiteral_keeps ..) h
  | encFinish => exact encOutcome_framed (Enc.finishStep_keeps ..) h
  | decHeader => exact execDecHeader_framed h
  | decToken => exact execDecToken_framed h
  | registerLit c | registerPhrase q => exact decOutcome_framed (Dec.registerNext_keeps ..) h
  | outAppend x =>
    cases x with
    | symbol v => exact encOutcome_framed (Enc.outAppend_keeps ..) h
    | char c => exact decOutcome_framed (Dec.outAppend_keeps ..) h
  | finish e k =>
    cases e with
    | enc => exact encUpdate_framed h rfl
    | dec => exact decUpdate_framed h rfl
  | raise e c info =>
    cases e with
    | enc => exact encUpdate_framed h rfl
    | dec => exact decUpdate_framed h rfl

end

/-- Settles O42: the frame that each operation keeps, read off for either engine. -/
theorem operationsKeepTheOtherEngine : Obligations.OperationsKeepTheOtherEngine := by
  unfold Obligations.OperationsKeepTheOtherEngine
  intro s t i h
  have hframe := exec_framed h
  constructor <;> intro hengine <;> rw [hengine] at hframe
  · simpa only [State.FramedFor, Enc.hostOwned, Prod.mk.injEq] using hframe
  · simpa only [State.FramedFor, Dec.hostOwned, Prod.mk.injEq] using hframe

end Sys2Proof.Machine
end

section
/-! Proofs of the family 10_state: the command words, and the register file as the host reads and writes it (R21 to R26, R35, R36). -/

namespace Sys2Proof.Machine

/-! ### Command words -/

/-- "Bits above bit 1 do not exist" (R22). -/
theorem decodeCommand_mod (e : Engine) (w : Nat) : decodeCommand e (w % 2 ^ 2) = decodeCommand e w := by
  unfold decodeCommand
  rw [Nat.testBit_mod_two_pow, Nat.testBit_mod_two_pow]
  simp

/-- The two bits of a command word, presented at a CTRL register, decode to its command (R110). -/
theorem decode_ctrlPort (p : Params) (e : Engine) (w : Nat) :
    decode p (ctrlPort e) (codeBits w 2) = .ok (decodeCommand e w, []) := by
  have hbits : decodeCommandBits e (codeBits w 2) = .ok (decodeCommand e w, []) := by
    have htake := takeBits_codeBits w 2 []
    rw [List.append_nil] at htake
    simp only [decodeCommandBits, htake, codeOfBits_codeBits, decodeCommand_mod]
  cases e <;> exact hbits

/-- A write of a CTRL register executes the command word (R22, R35). -/
theorem writeReg_ctrl (e : Engine) (w : Nat) (s : State) :
    hostAccess (.writeReg (ctrlReg e) w) s = exec (decodeCommand e w) s := by
  cases e <;> rfl

/-- In a turn of an agent the step is the step of that agent (log 6). -/
theorem step_of_turn {s t : State} {a : Agent} (h : s.TurnOf a t) : step s = agentStep a t := by
  unfold step machineStep
  obtain ⟨hsched, rfl, rfl⟩ | ⟨rest, hsched, rfl⟩ := h <;> rw [hsched]

/-- A turn changes nothing of the state but the schedule. -/
theorem State.TurnOf.host_eq {s t : State} {a : Agent} (h : s.TurnOf a t) : t.host = s.host := by
  obtain ⟨-, -, rfl⟩ | ⟨rest, -, rfl⟩ := h <;> rfl

/-- A step of a host that has an access to make makes it. -/
theorem hostStep_cons {s : State} {a : HostAccess} {more : List HostAccess} (h : s.host = a :: more) :
    hostStep s = hostAccess a { s with host := more } := by
  unfold hostStep
  rw [h]

/-- Settles O4: the host's turn makes its access, and the access executes what the two bits decode to. -/
theorem hostStepRunsTheCommandWord : Obligations.HostStepRunsTheCommandWord := by
  unfold Obligations.HostStepRunsTheCommandWord
  intro s t e w more i rest hturn hhost hdecode
  rw [decode_ctrlPort] at hdecode
  cases hdecode
  calc step s = hostStep t := step_of_turn hturn
    _ = hostAccess (.writeReg (ctrlReg e) w) { t with host := more } := hostStep_cons (hturn.host_eq.trans hhost)
    _ = exec (decodeCommand e w) { t with host := more } := writeReg_ctrl e w _

/-- A START while BUSY has no effect on the encoder (R318). -/
theorem Enc.start_busy {e : Enc} (h : isBusy e.status = true) (p : Params) (absent : Bool) :
    e.start p absent = .ok () e := if_pos h

/-- A START while BUSY has no effect on the decoder (R318). -/
theorem Dec.start_busy {d : Dec} (h : isBusy d.status = true) (p : Params) (absent : Bool) :
    d.start p absent = .ok () d := if_pos h

/-- Settles O9: START tests BUSY before anything else, and the other command words have no effect of their own. -/
theorem busyStartsAndNopsDoNothing : Obligations.BusyStartsAndNopsDoNothing := by
  unfold Obligations.BusyStartsAndNopsDoNothing
  intro s absent
  refine ⟨rfl, rfl, fun h => ⟨?_, ?_⟩, fun h => ⟨?_, ?_⟩⟩
  · exact congrArg (encOutcome s) (Enc.start_busy h s.cfg false)
  · exact congrArg (encOutcome s) (Enc.start_busy h s.cfg true)
  · exact congrArg (decOutcome s) (Dec.start_busy h s.cfg false)
  · exact congrArg (decOutcome s) (Dec.start_busy h s.cfg true)

/-! ### The register file -/

/-- OUTLEN of an engine that is not BUSY reads as held (R26, R35). -/
theorem readOutLen_of_not_busy {status : BitVec 8} (h : isBusy status = false) (n : Nat) (s : State) :
    readOutLen status n s = returns n s := by
  simp [readOutLen, h]

/-- Settles O52: each register's line of `readReg`; OUTLEN needs that its engine is not BUSY. -/
theorem registersReadAsHeld : Obligations.RegistersReadAsHeld := by
  unfold Obligations.RegistersReadAsHeld
  intro s n v
  simp only [List.mem_cons, Prod.mk.injEq, List.not_mem_nil, or_false]
  refine ⟨?_, fun hidle => ?_, fun hidle => ?_⟩
  · rintro (⟨rfl, rfl⟩ | ⟨rfl, rfl⟩ | ⟨rfl, rfl⟩ | ⟨rfl, rfl⟩ | ⟨rfl, rfl⟩ | ⟨rfl, rfl⟩ | ⟨rfl, rfl⟩ | ⟨rfl, rfl⟩) <;> rfl
  · rintro (⟨rfl, rfl⟩ | ⟨rfl, rfl⟩)
    · exact readOutLen_of_not_busy hidle s.enc.outLen s
    · rfl
  · rintro (⟨rfl, rfl⟩ | ⟨rfl, rfl⟩ | ⟨rfl, rfl⟩)
    · exact readOutLen_of_not_busy hidle s.dec.outLen s
    · rfl
    · rfl

/-- Settles O51: `readReg` and `writeReg` have no line for the three numbers. -/
theorem absentRegistersReadZero : Obligations.AbsentRegistersReadZero := by
  unfold Obligations.AbsentRegistersReadZero
  rintro s n v (rfl | rfl | rfl)
  · exact ⟨rfl, rfl⟩
  · exact ⟨rfl, rfl⟩
  · exact ⟨rfl, rfl⟩

/-- Settles O53: each configuration register takes a value of its width, and the read-only registers take nothing. -/
theorem configurationWritesChangeOneRegister : Obligations.ConfigurationWritesChangeOneRegister := by
  unfold Obligations.ConfigurationWritesChangeOneRegister
  intro s v hlenW
  have hfits : fitsWidth s.cfg.lenW v = true := by simp [fitsWidth, hlenW]
  refine ⟨fun hv => ?_, ?_, fun hv => ?_, ?_, ?_⟩
  · exact if_pos hv
  · exact if_pos hfits
  · exact if_pos hv
  · exact if_pos hfits
  · simp only [List.forall_mem_cons]
    exact ⟨rfl, rfl, rfl, rfl, rfl, rfl, rfl, List.forall_mem_nil _⟩

/-! ### After reset -/

/-- Settles O50: the sixteen registers of the state after reset, read one by one. -/
theorem resetReadsZero : Obligations.ResetReadsZero := by
  unfold Obligations.ResetReadsZero
  refine ⟨rfl, rfl, fun n => ?_⟩
  fin_cases n <;> rfl

/-- Settles O48: nothing is listed in the spaces, both words are 0, and no engine is in a phase that has an invariant. -/
theorem resetMeetsTheInvariants : Obligations.ResetMeetsTheInvariants := by
  unfold Obligations.ResetMeetsTheInvariants
  have hmem : State.reset.MemoriesOk := by decide
  exact ⟨hmem, statusOk_iff.2 ⟨Enc.reset_statusOk, Dec.reset_statusOk⟩, Enc.phaseOk_of_ne nofun,
    Dec.phaseOk_of_ne nofun nofun⟩

end Sys2Proof.Machine
end

section
/-! Proofs of the family 20_memory: the canonical form of the four spaces, which every step keeps (R60, R71, log 3). -/

namespace Sys2Proof.Machine

/-- `State.MemoriesOk`, of the encoder. -/
def Enc.Canonical (e : Enc) : Prop := Memory.wf e.inMem ∧ Memory.wf e.outMem

/-- `State.MemoriesOk`, of the decoder. -/
def Dec.Canonical (d : Dec) : Prop := Memory.wf d.inMem ∧ Memory.wf d.outMem

theorem memoriesOk_iff {s : State} : s.MemoriesOk ↔ s.enc.Canonical ∧ s.dec.Canonical := by
  unfold State.MemoriesOk Enc.Canonical Dec.Canonical
  tauto

/-- The host stores to ENC_IN alone, and START to no space. -/
theorem Enc.Hosted.canonical {p : Params} {e f : Enc} (h : e.Hosted p f) (he : e.Canonical) : f.Canonical := by
  have ⟨hin, hout⟩ := he
  cases h with
  | same => exact he
  | width v => exact he
  | length v => exact he
  | store i c hidle => exact ⟨Memory.wf_write i c hin, hout⟩
  | start _ hstart =>
    obtain rfl | ⟨hsameIn, hsameOut, -⟩ := hstart.leaves
    · exact he
    · exact ⟨hsameIn ▸ hin, hsameOut ▸ hout⟩
  | reset m n hm hn => exact ⟨hm, hn⟩

/-- The host stores to DEC_IN alone, and START to no space. -/
theorem Dec.Hosted.canonical {p : Params} {d f : Dec} (h : d.Hosted p f) (hd : d.Canonical) : f.Canonical := by
  have ⟨hin, hout⟩ := hd
  cases h with
  | same => exact hd
  | mask v => exact hd
  | length v => exact hd
  | store i v hidle => exact ⟨Memory.wf_write i v hin, hout⟩
  | start _ hstart =>
    obtain rfl | ⟨hsameIn, hsameOut, -⟩ := hstart.leaves
    · exact hd
    · exact ⟨hsameIn ▸ hin, hsameOut ▸ hout⟩
  | reset m n hm hn => exact ⟨hm, hn⟩

theorem encStep_canonical {s t : State} (h : encStep s = .next t) (hs : s.enc.Canonical) : t.enc.Canonical := by
  have ⟨hin, hout⟩ := hs
  obtain rfl | ⟨-, e, rfl, -, hon | hover⟩ := encStep_cases h hout
  · exact hs
  · exact ⟨hon.inMem ▸ hin, hon.canonical⟩
  · exact ⟨hover.inMem ▸ hin, hover.canonical⟩

theorem decStep_canonical {s t : State} (h : decStep s = .next t) (hs : s.dec.Canonical) : t.dec.Canonical := by
  have ⟨hin, hout⟩ := hs
  obtain ⟨d, rfl, rfl | ⟨hsameIn, hleft, -⟩⟩ := decStep_cases h hout
  · exact hs
  · exact ⟨hsameIn ▸ hin, hleft⟩

/-- Settles O44: an access of the host and a unit of either engine keep the form, since a write to a space keeps it. -/
theorem stepsKeepMemoriesCanonical : Obligations.StepsKeepMemoriesCanonical := by
  unfold Obligations.StepsKeepMemoriesCanonical
  intro s t hm h
  obtain ⟨-, he, hd⟩ := step_engine_cases hm h
  rw [memoriesOk_iff] at hm ⊢
  obtain ⟨hme, hmd⟩ := hm
  constructor
  · obtain he | ⟨r, he⟩ := he
    · exact he.canonical hme
    · exact encStep_canonical he hme
  · obtain hd | ⟨r, hd⟩ := hd
    · exact hd.canonical hmd
    · exact decStep_canonical hd hmd

end Sys2Proof.Machine
end

section
/-! Proofs of the family 20_memory: the primitive OutAppend (R66) and the host's accesses to the spaces (R60, R77, R288, R316, R317). -/

namespace Sys2Proof.Machine

/-! ### OutAppend -/

/-- With LEN_W unbounded a space is full exactly when OUTLEN has reached a finite OUT_CAP (R66). -/
theorem outFull_iff {p : Params} (hlenW : p.lenW = none) {n : Nat} :
    outFull p n = true ↔ ∃ cap, p.outCap = some cap ∧ cap ≤ n := by
  cases hcap : p.outCap <;> simp [outFull, fitsWidth, hlenW, hcap]

/-- With LEN_W unbounded a space has room exactly when OUTLEN is below OUT_CAP (R66). -/
theorem outFull_eq_false_iff {p : Params} (hlenW : p.lenW = none) {n : Nat} :
    outFull p n = false ↔ ∀ cap, p.outCap = some cap → n < cap := by
  cases hcap : p.outCap <;> simp [outFull, fitsWidth, hlenW, hcap]

theorem Enc.outAppend_room {p : Params} {e : Enc} (h : outFull p e.outLen = false) (v : Symbol) :
    e.outAppend p v = .ok () { e with outMem := Memory.write e.outMem e.outLen v, outLen := e.outLen + 1 } := by
  simp [Enc.outAppend, h]

theorem Enc.outAppend_full {p : Params} {e : Enc} (h : outFull p e.outLen = true) (v : Symbol) :
    e.outAppend p v = .ended (e.raise .capacityExceeded e.ii) := if_pos h

theorem Dec.outAppend_room {p : Params} {d : Dec} (h : outFull p d.outLen = false) (c : Char16) :
    d.outAppend p c = .ok () { d with outMem := Memory.write d.outMem d.outLen c, outLen := d.outLen + 1 } := by
  simp [Dec.outAppend, h]

theorem Dec.outAppend_full {p : Params} {d : Dec} (h : outFull p d.outLen = true) (c : Char16) :
    d.outAppend p c = .ended (d.raise .capacityExceeded d.dictSize) := if_pos h

/-- Settles O38: the two outcomes of OutAppend on either engine, and which of them the capacity picks. -/
theorem outAppendChecksTheCapacity : Obligations.OutAppendChecksTheCapacity := by
  unfold Obligations.OutAppendChecksTheCapacity
  intro s v c hlenW
  refine ⟨fun h => ?_, fun h => ?_, fun h => ?_, fun h => ?_⟩
  · exact congrArg (encOutcome s) (Enc.outAppend_room ((outFull_eq_false_iff hlenW).2 h) v)
  · exact congrArg (encOutcome s) (Enc.outAppend_full ((outFull_iff hlenW).2 h) v)
  · exact congrArg (decOutcome s) (Dec.outAppend_room ((outFull_eq_false_iff hlenW).2 h) c)
  · exact congrArg (decOutcome s) (Dec.outAppend_full ((outFull_iff hlenW).2 h) c)

/-! ### The IN spaces -/

section
variable {s : State} {i : Nat}

theorem writeEncIn_busy (h : isBusy s.enc.status = true) (c : Char16) :
    writeEncIn i c s = .refused (.inWriteWhileBusy .enc) := if_pos h

theorem writeDecIn_busy (h : isBusy s.dec.status = true) (v : Symbol) :
    writeDecIn i v s = .refused (.inWriteWhileBusy .dec) := if_pos h

theorem writeEncIn_idle (h : isBusy s.enc.status = false) (c : Char16) :
    writeEncIn i c s = .next { s with enc := { s.enc with inMem := Memory.write s.enc.inMem i c } } := by
  simp [writeEncIn, h]

theorem writeDecIn_idle (h : isBusy s.dec.status = false) {v : Symbol} (hv : v < 2 ^ s.cfg.bpcMax) :
    writeDecIn i v s = .next { s with dec := { s.dec with inMem := Memory.write s.dec.inMem i v } } := by
  simp [writeDecIn, h, hv]

end

/-- Settles O54: BUSY refuses the write; otherwise it is one `Memory.write`, read back by `Memory.read_write`. -/
theorem inSpacesAreStableWhileBusy : Obligations.InSpacesAreStableWhileBusy := by
  unfold Obligations.InSpacesAreStableWhileBusy
  intro s i c v
  refine ⟨fun hbusy => writeEncIn_busy hbusy c, fun hbusy => writeDecIn_busy hbusy v, fun hidle hm => ?_,
    fun hidle hv hm => ?_⟩
  · exact ⟨_, writeEncIn_idle hidle c, fun a => Memory.read_write hm i a c⟩
  · exact ⟨_, writeDecIn_idle hidle hv, fun a => Memory.read_write hm i a v⟩

/-! ### The OUT spaces -/

/-- A free value is below its bound and advances the counter (log 13). -/
theorem returnsFree_lt {bound : Nat} (h : 0 < bound) (s : State) :
    ∃ v, v < bound ∧ returnsFree bound s = .next { s with hostData := v, freeCount := s.freeCount + 1 } :=
  ⟨_, Nat.mod_lt _ h, rfl⟩

/-- OUTLEN of a BUSY engine reads as some value that it has taken since START (R317, log 13). -/
theorem readOutLen_busy {status : BitVec 8} (h : isBusy status = true) (n : Nat) (s : State) :
    ∃ v, v ≤ n ∧ readOutLen status n s = .next { s with hostData := v, freeCount := s.freeCount + 1 } := by
  obtain ⟨v, hv, hread⟩ := returnsFree_lt n.succ_pos s
  exact ⟨v, Nat.le_of_lt_succ hv, (if_pos h).trans hread⟩

theorem isDone_statusFinished (k : Kind) : isDone (statusFinished k) = true := by cases k <;> decide

theorem isResult_statusFinished_seq : isResult (statusFinished .seq) = true := by decide

/-- Another kind than SEQ, or an index from OUTLEN on, names no element of the result (R317). -/
theorem notInResult {status : BitVec 8} {n i : Nat} (h : statusKind status ≠ 0 ∨ n ≤ i) :
    (isResult status && decide (i < n)) = false := by
  obtain hkind | hle := h
  · have hseq : (statusKind status == kindNumber .seq) = false := beq_false_of_ne hkind
    simp [isResult, hseq]
  · simp [hle]

section
variable {s : State} {i : Nat}

theorem readEncOut_early (h : isDone s.enc.status = false) : readEncOut i s = .refused (.outReadBeforeDone .enc) := by
  simp [readEncOut, h]

theorem readDecOut_early (h : isDone s.dec.status = false) : readDecOut i s = .refused (.outReadBeforeDone .dec) := by
  simp [readDecOut, h]

theorem readEncOut_valid (h : s.enc.status = statusFinished .seq) (hi : i < s.enc.outLen) :
    readEncOut i s = returns (Memory.read s.enc.outMem i) s := by
  simp [readEncOut, h, hi, isDone_statusFinished, isResult_statusFinished_seq]

theorem readDecOut_valid (h : s.dec.status = statusFinished .seq) (hi : i < s.dec.outLen) :
    readDecOut i s = returns (Memory.read s.dec.outMem i).toNat s := by
  simp [readDecOut, h, hi, isDone_statusFinished, isResult_statusFinished_seq]

theorem readEncOut_elsewhere (h : isDone s.enc.status = true) (hi : statusKind s.enc.status ≠ 0 ∨ s.enc.outLen ≤ i) :
    readEncOut i s = returnsFree (2 ^ s.cfg.bpcMax) s := by
  simp [readEncOut, h, notInResult hi]

theorem readDecOut_elsewhere (h : isDone s.dec.status = true) (hi : statusKind s.dec.status ≠ 0 ∨ s.dec.outLen ≤ i) :
    readDecOut i s = returnsFree (2 ^ 16) s := by
  simp [readDecOut, h, notInResult hi]

end

/-- Settles O55: the three cases of a read of each OUT space, and OUTLEN read while BUSY. -/
theorem outSpacesAreValidAfterDone : Obligations.OutSpacesAreValidAfterDone := by
  unfold Obligations.OutSpacesAreValidAfterDone
  intro s i
  refine ⟨readEncOut_early, readDecOut_early, readEncOut_valid, readDecOut_valid, fun hdone hi => ?_,
    fun hdone hi => ?_, fun hbusy => readOutLen_busy hbusy s.enc.outLen s, fun hbusy => readOutLen_busy hbusy s.dec.outLen s⟩
  · obtain ⟨v, hv, hread⟩ := returnsFree_lt (Nat.two_pow_pos s.cfg.bpcMax) s
    exact ⟨v, hv, (readEncOut_elsewhere hdone hi).trans hread⟩
  · obtain ⟨v, hv, hread⟩ := returnsFree_lt (Nat.two_pow_pos 16) s
    exact ⟨v, hv, (readDecOut_elsewhere hdone hi).trans hread⟩

end Sys2Proof.Machine
end

section
/-! Proofs of the family 20_memory: which elements of the OUT spaces an operation stores to (R62, R64, R66, R71, R151, R274). -/

namespace Sys2Proof.Machine

/-! ### The writer: all its bits, or CapacityExceeded (R151, R274) -/

/-- OUTLEN after the symbols that `bits` complete (R151). -/
def Enc.endAfter (bits : List Bool) (e : Enc) : Nat := e.outLen + (e.pos + bits.length) / e.bpc

/-- `f` is `e` with `bits` appended to the stream and the command going on. -/
structure Enc.Sent (bits : List Bool) (e f : Enc) : Prop where
  written : f.written = e.written ++ bits
  phase : f.phase = e.phase
  status : f.status = e.status
  fInfo : f.fInfo = e.fInfo

/-- `f` is the end of the command of `e` by CapacityExceeded, at one of the symbols that `bits` complete (R66, R274). -/
structure Enc.Overflowed (p : Params) (bits : List Bool) (e f : Enc) : Prop where
  outLen : f.outLen = 0
  fInfo : f.fInfo = e.ii
  status : f.status = statusFailed .capacityExceeded
  phase : f.phase = .done
  noRoom : ∃ m, e.outLen ≤ m ∧ m < e.endAfter bits ∧ outFull p m = true

/-- `r` appends `bits` or overflows at one of them, and stores only to the elements they complete. -/
structure Enc.Writes (p : Params) (bits : List Bool) (e : Enc) (r : Run Enc Unit) : Prop where
  goes : r.Goes
  result : r.Post (e.Sent bits) (e.Overflowed p bits)
  stores : r.Post (e.Outside (e.endAfter bits)) (e.Outside (e.endAfter bits))

section
variable {p : Params} {e : Enc} {bits : List Bool}

/-- Where one more bit after the bits `as` completes a symbol, its element is among those that the longer `bits` complete. -/
theorem Enc.Appended.outLen_lt_endAfter {as : List Bool} {f : Enc} (h : e.Appended as f) (hfull : f.pos + 1 = f.bpc)
    (hlen : as.length + 1 ≤ bits.length) : f.outLen < e.endAfter bits := by
  have hwidth : f.bpc = e.bpc := by rw [h.frame]
  have hcount := congrArg List.length h.bits
  rw [List.length_append, Enc.length_written, Enc.length_written, hwidth] at hcount
  have hpos : 0 < e.bpc := by omega
  have hend : e.endAfter bits = (e.pos + bits.length + e.outLen * e.bpc) / e.bpc := by
    rw [Nat.add_mul_div_right _ _ hpos, Enc.endAfter, Nat.add_comm]
  rw [hend]
  refine (Nat.le_div_iff_mul_le hpos).2 ?_
  rw [Nat.succ_mul]
  omega

/-- A run of PUTBITs appends its bits or overflows, and stores only to the elements they complete. -/
theorem Enc.putBits_writes (hc : e.CursorOk) (hm : Memory.wf e.outMem) : e.Writes p bits (e.putBits p bits) where
  goes := Enc.putBits_goes p bits e
  result := by
    obtain ⟨f, hrun, happ⟩ | ⟨as, b, f, hpre, happ, hout, hfull, hrun⟩ := Enc.putBits_cases p bits e hc hm <;> rw [hrun]
    · refine .ok ⟨happ.bits, ?_, ?_, ?_⟩ <;> rw [happ.frame]
    · have hlen : as.length + 1 ≤ bits.length := by simpa using hpre.length_le
      refine .ended ⟨rfl, ?_, rfl, rfl, f.outLen, happ.grows, happ.outLen_lt_endAfter hfull hlen, hout⟩
      rw [Enc.raise_fInfo, happ.frame]
  stores := by
    have hend : e.outLen + (e.pos + (0 + bits.length)) / e.bpc ≤ e.endAfter bits := by rw [Nat.zero_add]; rfl
    exact ((Enc.Within.refl hc hm).putBits bits hend).mono (fun _ h => h.outside) fun _ h => h

/-- What follows the bits of an emission: its ticks and the pending mark (R188, R189), which are no part of the stream. -/
theorem Enc.Writes.andThen_registers {r : Run Enc Unit} (h : e.Writes p bits r) {k : Enc → Enc}
    (hk : ∀ f, k f = { f with numBits := (k f).numBits, enlargeIn := (k f).enlargeIn, pend := (k f).pend }) :
    e.Writes p bits (r.andThen fun _ f => .ok () (k f)) where
  goes := h.goes.andThen fun _ _ => .ok
  result := h.result.andThen fun _ f hf => .ok (by rw [hk f]; exact ⟨hf.written, hf.phase, hf.status, hf.fInfo⟩)
  stores := h.stores.andThen fun _ f hf => .ok (by rw [hk f]; exact hf)

theorem Enc.emitLiteral_writes (hc : e.CursorOk) (hm : Memory.wf e.outMem) (q : Phrase) :
    e.Writes p (literalBits p e q.first) (e.emitLiteral p q) := by
  rw [Enc.emitLiteral_eq]
  exact (Enc.putBits_writes hc hm).andThen_registers fun _ => rfl

theorem Enc.emit_writes (hc : e.CursorOk) (hm : Memory.wf e.outMem) {q : Phrase} (ht : e.tokenBits p q = some bits) :
    e.Writes p bits (e.emit p q) := by
  rw [Enc.emit_eq, ht]
  refine (Enc.putBits_writes hc hm).andThen_registers fun f => ?_
  unfold Enc.emitted
  split <;> rfl

theorem Enc.putBit_writes (hc : e.CursorOk) (hm : Memory.wf e.outMem) (b : Bool) : e.Writes p [b] (e.putBit p b) := by
  have hputBits : e.putBits p [b] = e.putBit p b := Run.andThen_unit _
  exact hputBits ▸ Enc.putBits_writes hc hm

end

section
variable {s t : State}

/-- Every operation of the writer is a run that appends its bits or overflows. -/
theorem exec_writer {i : Instr} {bits : List Bool} (hi : writerBits s.cfg s.enc i = some bits) (hc : s.enc.CursorOk)
    (hm : Memory.wf s.enc.outMem) : ∃ r, exec i s = encOutcome s r ∧ s.enc.Writes s.cfg bits r := by
  cases i with
  | putbit b => cases hi; exact ⟨_, rfl, Enc.putBit_writes hc hm b⟩
  | putlsb v n | putmsb v m | flush | pad => cases hi; exact ⟨_, rfl, Enc.putBits_writes hc hm⟩
  | emitLiteral q => cases hi; exact ⟨_, rfl, Enc.emitLiteral_writes hc hm q⟩
  | emit q => exact ⟨_, rfl, Enc.emit_writes hc hm hi⟩
  | _ => cases hi

/-- Settles O17: an operation of the writer is such a run, and nothing but the encoder's state changes. -/
theorem writerStoresOnlyWhatItCompletes : Obligations.WriterStoresOnlyWhatItCompletes := by
  unfold Obligations.WriterStoresOnlyWhatItCompletes
  intro s i bits hi hc hm
  obtain ⟨r, hexec, hw⟩ := exec_writer hi hc hm
  rw [hexec]
  cases hr : r with
  | ok _ e =>
    have h := hw.result.1 _ _ hr
    exact ⟨e, rfl, .inl ⟨h.written, h.phase, h.status, h.fInfo⟩, hw.stores.1 _ _ hr⟩
  | ended e =>
    have h := hw.result.2 _ hr
    exact ⟨e, rfl, .inr ⟨h.outLen, h.fInfo, h.status, h.phase, h.noRoom⟩, hw.stores.2 _ hr⟩
  | fault f => exact absurd hr (hw.goes f)

end

/-! ### The encoder's operations -/

/-- After a run of the encoder that stores only below `m`, an element outside reads as before. -/
theorem Run.Post.enc_outside {s t : State} {m : Nat} {r : Run Enc Unit} (hr : r.Post (s.enc.Outside m) (s.enc.Outside m))
    (h : encOutcome s r = .next t) : s.enc.Outside m t.enc := by
  obtain ⟨-, hout | hout⟩ := hr.encOutcome_next h
  · exact hout
  · exact hout

section
variable {s t : State}

/-- An operation that sends bits stores only to the elements they complete. -/
theorem exec_sends_outside {i : Instr} {bits : List Bool} (hi : sentBits s.cfg s.enc i = some bits)
    (hc : s.enc.CursorOk) (hm : Memory.wf s.enc.outMem) (hok : i = .encChar ∨ i = .encFinish → s.enc.ScanOk s.cfg)
    (h : exec i s = .next t) : s.enc.Outside (s.enc.endAfter bits) t.enc := by
  by_cases hchar : i = .encChar
  · subst hchar
    cases hi
    exact (Enc.charStep_stores (hok (.inl rfl)) hm (Nat.le_refl _)).enc_outside h
  by_cases hfinish : i = .encFinish
  · subst hfinish
    cases hi
    exact (Enc.finishStep_stores hc hm (Nat.le_refl _)).enc_outside h
  have hwriter : writerBits s.cfg s.enc i = some bits := by simpa [sentBits, hchar, hfinish] using hi
  obtain ⟨r, hexec, hw⟩ := exec_writer hwriter hc hm
  exact hw.stores.enc_outside (hexec ▸ h)

/-- START stores to no space (R180). -/
theorem Enc.start_keeps_outMem (p : Params) (absent : Bool) (e : Enc) : (e.start p absent).Keeps Enc.outMem e := by
  have kept : ∀ {f}, e.StartedAs p f → f.outMem = e.outMem := by
    intro f hf
    obtain rfl | ⟨-, hout, -⟩ := hf.leaves
    · rfl
    · exact hout
  exact ⟨fun _ _ hr => kept ⟨absent, .inl hr⟩, fun _ hr => kept ⟨absent, .inr hr⟩⟩

theorem Enc.registerChar_keeps_outMem (p : Params) (c : Char16) (e : Enc) : (e.registerChar p c).Keeps Enc.outMem e := by
  unfold Enc.registerChar
  split
  · exact .ended rfl
  · exact .ok rfl

theorem Enc.register_keeps_outMem (p : Params) (q : Phrase) (e : Enc) : (e.register p q).Keeps Enc.outMem e := by
  unfold Enc.register
  split
  · exact .ended rfl
  · exact .ok rfl

/-- OutAppend stores at ENC_OUTLEN or nowhere (R66). -/
theorem Enc.outAppend_outside (p : Params) (v : Symbol) {e : Enc} (hm : Memory.wf e.outMem) :
    (e.outAppend p v).Post (e.Outside (e.outLen + 1)) (e.Outside (e.outLen + 1)) := by
  unfold Enc.outAppend
  split
  · exact .ended fun _ _ => rfl
  · exact .ok fun a ha => (Memory.read_write hm _ _ _).trans (if_neg (by omega))

theorem Run.Keeps.outMem_next {r : Run Enc Unit} (hr : r.Keeps Enc.outMem s.enc) (h : encOutcome s r = .next t) :
    t.enc.outMem = s.enc.outMem := by
  obtain ⟨-, hout | hout⟩ := Run.Post.encOutcome_next hr h
  · exact hout
  · exact hout

/-- An operation of the encoder that sends no bits stores nothing, OutAppend apart. -/
theorem exec_outMem_of_not_sends {i : Instr} (he : engineOf i = .enc) (hi : sentBits s.cfg s.enc i = none)
    (hno : ∀ v, i ≠ .outAppend (.symbol v)) (h : exec i s = .next t) : t.enc.outMem = s.enc.outMem := by
  cases i with
  | encStart | encStartAbsent => exact (Enc.start_keeps_outMem ..).outMem_next h
  | encNop absent => cases h; rfl
  | registerChar c => exact (Enc.registerChar_keeps_outMem ..).outMem_next h
  | register q => exact (Enc.register_keeps_outMem ..).outMem_next h
  | emit q =>
    have hfault : exec (.emit q) s = .fault .emitWithoutCode := by
      have ht : s.enc.tokenBits s.cfg q = none := hi
      show encOutcome s (s.enc.emit s.cfg q) = _
      rw [Enc.emit_eq, ht]
      rfl
    rw [hfault] at h
    cases h
  | tick e => cases he; cases h; rfl
  | finish e k => cases he; cases h; rfl
  | raise e c info => cases he; cases h; rfl
  | outAppend x =>
    cases x with
    | symbol v => exact absurd rfl (hno v)
    | char c => cases he
  | pad | putbit | putlsb | putmsb | flush | encChar | emitLiteral | encFinish => cases hi
  | _ => cases he

end

/-! ### The decoder's operations -/

/-- The elements of DEC_OUT below DEC_OUTLEN of `d`, and those from `m` on, read in `e` as in `d`. -/
def Dec.Outside (m : Nat) (d e : Dec) : Prop := ∀ a, a < d.outLen ∨ m ≤ a → Memory.read e.outMem a = Memory.read d.outMem a

section
variable {m : Nat} {d e : Dec} {p : Params}

theorem Dec.Kept.outside (h : d.Kept d.outLen m e) : d.Outside m e := h.elsewhere

theorem Dec.outside_of_outMem (h : e.outMem = d.outMem) : d.Outside m e := fun _ _ => by rw [h]

/-- A run that goes on with the command, or ends it, stores only below `m`. -/
theorem Run.Post.dec_stores {α : Type} {l : Nat} {r : Run Dec α} (h : r.Post (d.On d.outLen m l) (d.Over d.outLen m)) :
    r.Post (d.Outside m) (d.Outside m) := h.mono (fun _ hf => hf.outside) fun _ hf => hf.outside

theorem Dec.tail_stores (hm : Memory.wf d.outMem) (k : Nat)
    (hle : d.outLen + (((d.resolve k).map phraseChars).getD []).length ≤ m) :
    (d.tail p k).Post (d.Outside m) (d.Outside m) :=
  (Dec.On.tail (Dec.On.refl hm) k hle).mono (fun _ ⟨_, hf⟩ => hf.outside) fun _ hf => hf.outside

theorem Dec.literal_stores (hm : Memory.wf d.outMem) (c : Char16) :
    (d.literal p c).Post (d.Outside (d.outLen + 1)) (d.Outside (d.outLen + 1)) :=
  (Dec.On.literal (Dec.On.refl hm) c (Nat.le_refl _)).mono (fun _ ⟨_, hf⟩ => hf.outside) fun _ hf => hf.outside

theorem Dec.headerLiteral_stores (hm : Memory.wf d.outMem) (c : Char16) :
    (d.headerLiteral p c).Post (d.Outside (d.outLen + 1)) (d.Outside (d.outLen + 1)) := by
  refine (Dec.On.headerLiteral (Dec.On.refl hm) c (Nat.le_refl _)).mono ?_ fun _ hf => hf.outside
  rintro _ ⟨g, hg, rfl⟩
  exact hg.outside

/-- START stores to no space (R220). -/
theorem Dec.start_stores (absent : Bool) : (d.start p absent).Post (d.Outside m) (d.Outside m) := by
  have kept : ∀ {f}, d.StartedAs p f → d.Outside m f := by
    intro f hf
    obtain rfl | ⟨-, hout, -⟩ := hf.leaves
    · exact Dec.outside_of_outMem rfl
    · exact Dec.outside_of_outMem hout
  exact ⟨fun _ _ hr => kept ⟨absent, .inl hr⟩, fun _ hr => kept ⟨absent, .inr hr⟩⟩

end

section
variable {s t : State} {m : Nat}

theorem Run.Post.dec_outside {r : Run Dec Unit} (hr : r.Post (s.dec.Outside m) (s.dec.Outside m))
    (h : decOutcome s r = .next t) : s.dec.Outside m t.dec := by
  obtain ⟨d, rfl, hok | hended⟩ := decOutcome_next h
  · exact hr.1 _ _ hok
  · exact hr.2 _ hended

theorem Run.Post.read_outside {r : Run Dec Nat} (hr : r.Post (s.dec.Outside m) (s.dec.Outside m))
    (h : readOutcome s r = .next t) : s.dec.Outside m t.dec := by
  obtain ⟨d, ⟨v, hok, rfl⟩ | ⟨hended, rfl⟩⟩ := readOutcome_next h
  · exact hr.1 _ _ hok
  · exact hr.2 _ hended

/-- An operation that is one update of the decoder's registers stores nothing. -/
theorem decUpdate_outside {d : Dec} (h : (.next { s with dec := d } : Host.Outcome State Fault Refusal) = .next t)
    (hd : d.outMem = s.dec.outMem) : s.dec.Outside m t.dec := by
  cases h
  exact Dec.outside_of_outMem hd

/-- A token, or another operation of the decoder below its units, stores only to the elements its characters fill. -/
theorem exec_token_outside {i : Instr} (he : engineOf i = .dec) (hheader : i ≠ .decHeader) (htoken : i ≠ .decToken)
    (hm : Memory.wf s.dec.outMem) (h : exec i s = .next t) :
    s.dec.Outside (s.dec.outLen + (tokenChars s.dec i).length) t.dec := by
  have hon {m : Nat} : s.dec.On s.dec.outLen m 0 s.dec := Dec.On.refl hm
  cases i with
  | decStart | decStartAbsent => exact (Dec.start_stores _).dec_outside h
  | decNop absent => exact decUpdate_outside h rfl
  | hdrLit8 c | hdrLit16 c => exact (Dec.headerLiteral_stores hm _).dec_outside h
  | hdrEos | hdrIllegal | eos | illegal k => exact decUpdate_outside h rfl
  | lit8 c | lit16 c => exact (Dec.literal_stores hm _).dec_outside h
  | ref k => exact (Dec.tail_stores hm k (Nat.le_refl _)).dec_outside h
  | refnew =>
    have hself : s.dec.resolve s.dec.dictSize = some (append s.dec.w s.dec.w.first) := by simp [Dec.resolve]
    exact (Dec.tail_stores hm s.dec.dictSize (by rw [hself]; exact Nat.le_refl _)).dec_outside h
  | getbit => exact ((hon.getBit).andThen fun _ _ hf => .ok hf).dec_stores.read_outside h
  | refill => exact decUpdate_outside h (Dec.refill_outMem _)
  | getlsb n => exact (hon.getLsb n).dec_stores.read_outside h
  | getmsb n => exact (hon.getMsb n).dec_stores.read_outside h
  | registerLit c | registerPhrase q => exact (hon.registerNext _).dec_stores.dec_outside h
  | outAppend x =>
    cases x with
    | symbol v => cases he
    | char c => exact (hon.outAppend c (Nat.lt_succ_self _)).dec_stores.dec_outside h
  | tick e => cases he; exact decUpdate_outside h rfl
  | finish e k => cases he; exact decUpdate_outside h rfl
  | raise e c info => cases he; exact decUpdate_outside h rfl
  | decHeader => exact absurd rfl hheader
  | decToken => exact absurd rfl htoken
  | _ => cases he

theorem runHeaderToken_eq_exec (k : HeaderToken) (s : State) : runHeaderToken k s = exec k.instr s := by cases k <;> rfl

theorem runLoopToken_eq_exec (k : LoopToken) (s : State) : runLoopToken k s = exec k.instr s := by cases k <;> rfl

theorem runHeaderToken_outside {k : HeaderToken} (hm : Memory.wf s.dec.outMem) (h : runHeaderToken k s = .next t) :
    s.dec.Outside (s.dec.outLen + (tokenChars s.dec k.instr).length) t.dec := by
  rw [runHeaderToken_eq_exec] at h
  exact exec_token_outside (by cases k <;> rfl) (by cases k <;> nofun) (by cases k <;> nofun) hm h

theorem runLoopToken_outside {k : LoopToken} (hm : Memory.wf s.dec.outMem) (h : runLoopToken k s = .next t) :
    s.dec.Outside (s.dec.outLen + (tokenChars s.dec k.instr).length) t.dec := by
  rw [runLoopToken_eq_exec] at h
  exact exec_token_outside (by cases k <;> rfl) (by cases k <;> nofun) (by cases k <;> nofun) hm h

/-- What a token stores from DEC_OUTLEN on lies where the fetch before it found DEC_OUTLEN, since a fetch stores nothing. -/
theorem Dec.On.trans_outside {d e f : Dec} {n : Nat} (h : d.On d.outLen (d.outLen + n) 0 e)
    (hf : e.Outside (e.outLen + n) f) : d.Outside (d.outLen + n) f := by
  intro a ha
  have hlen : e.outLen = d.outLen := h.grows
  rw [hf a (hlen ▸ ha), h.elsewhere a ha]

theorem execDecHeader_outside (hm : Memory.wf s.dec.outMem) (h : execDecHeader s = .next t) :
    s.dec.Outside (s.dec.outLen + (charsAppended s.cfg s.dec .decHeader).length) t.dec := by
  have hfetch := Dec.On.fetchHeader (p := s.cfg)
    (Dec.On.refl (m := s.dec.outLen + (charsAppended s.cfg s.dec .decHeader).length) hm)
  unfold execDecHeader at h
  cases hr : s.dec.fetchHeader s.cfg with
  | ok k d =>
    have hchars : charsAppended s.cfg s.dec .decHeader = tokenChars d k.instr := by simp [charsAppended, hr]
    have hon := hfetch.1 k d hr
    rw [hr] at h
    rw [hchars] at hon ⊢
    exact hon.trans_outside (runHeaderToken_outside hon.canonical h)
  | ended d =>
    rw [hr] at h
    cases h
    exact (hfetch.2 d hr).outside
  | fault f => rw [hr] at h; cases h

theorem execDecToken_outside (hm : Memory.wf s.dec.outMem) (h : execDecToken s = .next t) :
    s.dec.Outside (s.dec.outLen + (charsAppended s.cfg s.dec .decToken).length) t.dec := by
  have hfetch := Dec.On.fetchLoop (p := s.cfg)
    (Dec.On.refl (m := s.dec.outLen + (charsAppended s.cfg s.dec .decToken).length) hm)
  unfold execDecToken at h
  split at h
  · split at h
    · exact decUpdate_outside h rfl
    · exact decUpdate_outside h rfl
  rename_i hexh
  cases hr : s.dec.fetchLoop s.cfg with
  | ok k d =>
    have hchars : charsAppended s.cfg s.dec .decToken = tokenChars d k.instr := by simp [charsAppended, hr, hexh]
    have hon := hfetch.1 k d hr
    rw [hr] at h
    rw [hchars] at hon ⊢
    exact hon.trans_outside (runLoopToken_outside hon.canonical h)
  | ended d =>
    rw [hr] at h
    cases h
    exact (hfetch.2 d hr).outside
  | fault f => rw [hr] at h; cases h

/-- An operation of the decoder stores only to the elements its characters fill. -/
theorem exec_dec_outside {i : Instr} (he : engineOf i = .dec) (hm : Memory.wf s.dec.outMem) (h : exec i s = .next t) :
    s.dec.Outside (s.dec.outLen + (charsAppended s.cfg s.dec i).length) t.dec := by
  by_cases hheader : i = .decHeader
  · subst hheader
    exact execDecHeader_outside hm h
  by_cases htoken : i = .decToken
  · subst htoken
    exact execDecToken_outside hm h
  have hchars : charsAppended s.cfg s.dec i = tokenChars s.dec i := by simp [charsAppended, hheader, htoken]
  rw [hchars]
  exact exec_token_outside he hheader htoken hm h

end

/-- Settles O43: the frame says which engine an operation leaves alone, and the lemmas above where it stores on its own. -/
theorem operationsStoreOnlyTheirOutput : Obligations.OperationsStoreOnlyTheirOutput := by
  unfold Obligations.OperationsStoreOnlyTheirOutput
  intro s t i a hme hmd h
  have hframe := exec_framed h
  constructor <;> intro hengine <;> rw [hengine] at hframe <;> obtain ⟨ht, -⟩ := hframe
  · exact ⟨by rw [ht], exec_dec_outside hengine hmd h a⟩
  · refine ⟨by rw [ht], fun hnone hne => ?_, fun bits hsome hc hok => exec_sends_outside hsome hc hme hok h a⟩
    by_cases happend : ∃ v, i = .outAppend (.symbol v)
    · obtain ⟨v, rfl⟩ := happend
      have hout := (Enc.outAppend_outside s.cfg v hme).enc_outside h
      exact hout a (by have := hne v rfl; omega)
    · rw [exec_outMem_of_not_sends hengine hnone (fun v hv => happend ⟨v, hv⟩) h]

end Sys2Proof.Machine
end

section
/-! Proofs of the family 30_encoding: the decoder and the encoder are inverse at every port (R93 to R100, R104, R110, R114). -/

namespace Sys2Proof

open Machine

/-! ### Fields: a code or a payload taken from a list of bits (R93, R94, R99) -/

/-- The `n` bits of a code are those of the value they assemble to. -/
theorem takeBits_code {n : Nat} {bs code rest : List Bool} (h : takeBits n bs = .ok (code, rest)) :
    bs = codeBits (codeOfBits code) n ++ rest ∧ codeOfBits code < 2 ^ n := by
  obtain ⟨hbits, rfl⟩ := takeBits_ok h
  exact ⟨by rw [codeBits_codeOfBits, hbits], codeOfBits_lt code⟩

/-- What is read as a literal is the payload of its character, and the bits after it. -/
theorem payload_written {τ : Type} {m : Nat} {msb : Bool} {f : BitVec m → τ} {t : τ} {bs rest : List Bool}
    (h : (match takeBits m bs with
        | .error x => .error x
        | .ok (c, rest) => .ok (f (BitVec.ofNat m (payloadOfBits msb c)), rest)) =
      (.ok (t, rest) : Except DecodeError (τ × List Bool))) :
    ∃ c : BitVec m, t = f c ∧ bs = payloadBits msb c.toNat m ++ rest := by
  split at h
  · cases h
  · rename_i htake
    cases h
    obtain ⟨hbits, rfl⟩ := takeBits_ok htake
    refine ⟨_, rfl, ?_⟩
    rw [BitVec.toNat_ofNat, Nat.mod_eq_of_lt (payloadOfBits_lt msb _), payloadBits_payloadOfBits, hbits]

/-- A character is assembled from its payload. -/
theorem ofNat_payloadOfBits {m : Nat} (msb : Bool) (c : BitVec m) :
    BitVec.ofNat m (payloadOfBits msb (payloadBits msb c.toNat m)) = c := by
  rw [payloadOfBits_payloadBits msb _ _ c.isLt, BitVec.ofNat_toNat, BitVec.setWidth_eq]

/-- A code that fits its width is assembled from its bits. -/
theorem codeOfBits_codeBits_of_lt {v n : Nat} (h : v < 2 ^ n) : codeOfBits (codeBits v n) = v := by
  rw [codeOfBits_codeBits, Nat.mod_eq_of_lt h]

/-- The codes 0, 1 and 2 fit every code width (R134). -/
theorem lt_two_pow_of_le_two {v n : Nat} (hv : v ≤ 2) (hn : 2 ≤ n) : v < 2 ^ n := by
  have : 2 ^ 2 ≤ 2 ^ n := Nat.pow_le_pow_right (by decide) hn
  omega

/-! ### Codes (R95, R96) -/

/-- What the classification of a header code says of it (R95, R102). -/
theorem headerClass_cases (code : Nat) :
    (headerClass code = .lit8 ∧ code = 0) ∨ (headerClass code = .lit16 ∧ code = 1) ∨
    (headerClass code = .eos ∧ code = 2) ∨ (headerClass code = .illegal ∧ 3 ≤ code) := by
  unfold headerClass
  repeat' split
  all_goals simp only [true_and, reduceCtorEq, false_and, or_false, false_or]
  all_goals omega

theorem loopClass_stored {d k : Nat} (hmin : 3 ≤ k) (hmax : k < d) : loopClass d k = .stored := by
  rw [loopClass, if_neg (by omega), if_neg (by omega), if_neg (by omega), if_pos hmax]

theorem loopClass_selfRef {d : Nat} (hmin : 3 ≤ d) : loopClass d d = .selfRef := by
  rw [loopClass, if_neg (by omega), if_neg (by omega), if_neg (by omega), if_neg (by omega), if_pos rfl]

theorem loopClass_illegal {d k : Nat} (hmin : 3 ≤ d) (hmax : d < k) : loopClass d k = .illegal := by
  rw [loopClass, if_neg (by omega), if_neg (by omega), if_neg (by omega), if_neg (by omega), if_neg (by omega)]

/-! ### Which instructions a port presents (R95, R96, R100, R110, R114) -/

/-- The range of codes of a loop token at code width `n` and dictionary size `d` (R96). -/
def LoopToken.InRange (n d : Nat) : LoopToken → Prop
  | .ref k => 3 ≤ k ∧ k < d ∧ k < 2 ^ n
  | .refnew => d < 2 ^ n
  | .illegal k => d < k ∧ k < 2 ^ n
  | _ => True

/-- A loop token fits the legal loop ports that have its code in range. -/
theorem fits_loop_iff {n d : Nat} {t : LoopToken} :
    Instr.fits (.loop n d) t.instr = true ↔ (2 ≤ n ∧ 3 ≤ d) ∧ t.InRange n d := by
  cases t <;> simp [LoopToken.instr, Instr.fits, Port.loops, Port.wf, LoopToken.InRange, and_assoc]

theorem wf_of_inRange {n d : Nat} {t : LoopToken} (hd : 3 ≤ d) (h : t.InRange n d) : t.instr.wf = true := by
  cases t with
  | ref k => exact decide_eq_true h.1
  | illegal k => exact decide_eq_true (Nat.lt_of_le_of_lt hd h.1)
  | _ => rfl

theorem wf_command (e : Engine) (start absent : Bool) : (decodeCommand e (codeOfBits [start, absent])).wf = true := by
  cases e <;> cases start <;> cases absent <;> rfl

theorem fits_command (e : Engine) (start absent : Bool) :
    Instr.fits (ctrlPort e) (decodeCommand e (codeOfBits [start, absent])) = true := by
  cases e <;> cases start <;> cases absent <;> rfl

/-- The rows of the opcode table that have an encoding, each at the ports of its context. -/
inductive Presented : Port → Instr → Prop
  | command (e : Engine) (start absent : Bool) : Presented (ctrlPort e) (decodeCommand e (codeOfBits [start, absent]))
  | header (t : HeaderToken) : Presented .header t.instr
  | loop (n d : Nat) (t : LoopToken) : Presented (.loop n d) t.instr
  | padding (room : Nat) : Presented (.padding room) .pad

section
variable {q : Port}

theorem presented_command (e : Engine) (start absent : Bool) (h : (q == ctrlPort e) = true) :
    Presented q (decodeCommand e (codeOfBits [start, absent])) :=
  eq_of_beq h ▸ .command e start absent

theorem presented_header (t : HeaderToken) (h : (q == .header) = true) : Presented q t.instr :=
  eq_of_beq h ▸ .header t

theorem presented_loop {allowed : Nat → Nat → Bool} (t : LoopToken) (h : q.loops allowed = true) : Presented q t.instr := by
  cases q with
  | loop n d => exact .loop n d t
  | _ => cases h

theorem presented_padding (h : q.pads = true) : Presented q .pad := by
  cases q with
  | padding room => exact .padding room
  | _ => cases h

/-- Only the rows with an encoding fit a port (R114). -/
theorem presented_of_fits {i : Instr} (h : Instr.fits q i = true) : Presented q i := by
  cases i with
  | encStart => exact presented_command .enc true false h
  | encStartAbsent => exact presented_command .enc true true h
  | encNop absent =>
    cases absent with
    | false => exact presented_command .enc false false h
    | true => exact presented_command .enc false true h
  | decStart => exact presented_command .dec true false h
  | decStartAbsent => exact presented_command .dec true true h
  | decNop absent =>
    cases absent with
    | false => exact presented_command .dec false false h
    | true => exact presented_command .dec false true h
  | hdrLit8 c => exact presented_header (.lit8 c) h
  | hdrLit16 c => exact presented_header (.lit16 c) h
  | hdrEos => exact presented_header .eos h
  | hdrIllegal => exact presented_header .illegal h
  | lit8 c => exact presented_loop (.lit8 c) h
  | lit16 c => exact presented_loop (.lit16 c) h
  | eos => exact presented_loop .eos h
  | ref k => exact presented_loop (.ref k) h
  | refnew => exact presented_loop .refnew h
  | illegal k => exact presented_loop (.illegal k) h
  | pad => exact presented_padding h
  | _ => cases h

end

/-! ### The words of the formats (R95, R96, R100, R110) -/

section
variable {p : Params}

/-- The bits of a header token: its code, and the payload of a literal (R95). -/
def HeaderToken.word (p : Params) : HeaderToken → List Bool
  | .lit8 c => codeBits 0 2 ++ payloadBits p.litMsbFirst c.toNat 8
  | .lit16 c => codeBits 1 2 ++ payloadBits p.litMsbFirst c.toNat 16
  | .eos => codeBits 2 2
  | .illegal => codeBits 3 2

/-- The bits of a loop token: its code, and the payload of a literal (R96). -/
def LoopToken.word (p : Params) (n d : Nat) : LoopToken → List Bool
  | .lit8 c => codeBits 0 n ++ payloadBits p.litMsbFirst c.toNat 8
  | .lit16 c => codeBits 1 n ++ payloadBits p.litMsbFirst c.toNat 16
  | .eos => codeBits 2 n
  | .ref k => codeBits k n
  | .refnew => codeBits d n
  | .illegal k => codeBits k n

theorem encode_command (p : Params) (e : Engine) (start absent : Bool) :
    encode p (ctrlPort e) (decodeCommand e (codeOfBits [start, absent])) = some [start, absent] := by
  cases e <;> cases start <;> cases absent <;> rfl

theorem encode_header (p : Params) (t : HeaderToken) : encode p .header t.instr = some (t.word p) := by
  cases t <;> rfl

theorem encode_loop {n d : Nat} {t : LoopToken} (h : Instr.fits (.loop n d) t.instr = true) :
    encode p (.loop n d) t.instr = some (t.word p n d) := by
  cases t <;> exact if_pos h

theorem encode_pad (p : Params) {room : Nat} (h : Instr.fits (.padding room) .pad = true) :
    encode p (.padding room) .pad = some (List.replicate room false) := if_pos h

/-! ### Decoding what the formats write (R99) -/

/-- At port `q`, `i` has a word, and the word decodes to `i` whatever bits follow it. -/
def ReadsBack (p : Params) (q : Port) (i : Instr) : Prop :=
  ∃ bits, encode p q i = some bits ∧ ∀ rest, decode p q (bits ++ rest) = .ok (i, rest)

theorem decode_command (p : Params) (e : Engine) (bs : List Bool) : decode p (ctrlPort e) bs = decodeCommandBits e bs := by
  cases e <;> rfl

theorem readsBack_command (p : Params) (e : Engine) (start absent : Bool) :
    ReadsBack p (ctrlPort e) (decodeCommand e (codeOfBits [start, absent])) := by
  refine ⟨_, encode_command p e start absent, fun rest => ?_⟩
  rw [decode_command, decodeCommandBits]
  simp only [List.cons_append, List.nil_append, takeBits_two]

theorem decode_header_iff {i : Instr} {bs rest : List Bool} :
    decode p .header bs = .ok (i, rest) ↔ ∃ t : HeaderToken, i = t.instr ∧ decodeHeader p bs = .ok (t, rest) := by
  rw [decode]
  rcases decodeHeader p bs with e | ⟨t, r⟩ <;> simp [eq_comm]

theorem decode_loop_iff {n d : Nat} {i : Instr} {bs rest : List Bool} :
    decode p (.loop n d) bs = .ok (i, rest) ↔ ∃ t : LoopToken, i = t.instr ∧ decodeLoop p n d bs = .ok (t, rest) := by
  rw [decode]
  rcases decodeLoop p n d bs with e | ⟨t, r⟩ <;> simp [eq_comm]

/-- A header token is read back (R95). -/
theorem decodeHeader_word (t : HeaderToken) (rest : List Bool) :
    decodeHeader p (t.word p ++ rest) = .ok (t, rest) := by
  have hcode : ∀ v ≤ 3, codeOfBits (codeBits v 2) = v := fun v hv => codeOfBits_codeBits_of_lt (by omega)
  cases t with
  | lit8 c =>
    simp [HeaderToken.word, decodeHeader, takeBits_codeBits, hcode, headerClass, takeBits_payloadBits, ofNat_payloadOfBits]
  | lit16 c =>
    simp [HeaderToken.word, decodeHeader, takeBits_codeBits, hcode, headerClass, takeBits_payloadBits, ofNat_payloadOfBits]
  | eos => simp [HeaderToken.word, decodeHeader, takeBits_codeBits, hcode, headerClass]
  | illegal => simp [HeaderToken.word, decodeHeader, takeBits_codeBits, hcode, headerClass]

theorem readsBack_header (p : Params) (t : HeaderToken) : ReadsBack p .header t.instr :=
  ⟨_, encode_header p t, fun rest => decode_header_iff.2 ⟨t, rfl, decodeHeader_word t rest⟩⟩

/-- A loop token with its code in range is read back (R96). -/
theorem decodeLoop_word {n d : Nat} {t : LoopToken} (hn : 2 ≤ n) (hd : 3 ≤ d) (hrange : t.InRange n d)
    (rest : List Bool) : decodeLoop p n d (t.word p n d ++ rest) = .ok (t, rest) := by
  have hcode : ∀ v ≤ 2, codeOfBits (codeBits v n) = v := fun v hv =>
    codeOfBits_codeBits_of_lt (lt_two_pow_of_le_two hv hn)
  cases t with
  | lit8 c =>
    simp [LoopToken.word, decodeLoop, takeBits_codeBits, hcode, loopClass, takeBits_payloadBits, ofNat_payloadOfBits]
  | lit16 c =>
    simp [LoopToken.word, decodeLoop, takeBits_codeBits, hcode, loopClass, takeBits_payloadBits, ofNat_payloadOfBits]
  | eos => simp [LoopToken.word, decodeLoop, takeBits_codeBits, hcode, loopClass]
  | ref k =>
    obtain ⟨hmin, hmax, hwidth⟩ := hrange
    simp [LoopToken.word, decodeLoop, takeBits_codeBits, codeOfBits_codeBits_of_lt hwidth, loopClass_stored hmin hmax]
  | refnew =>
    simp [LoopToken.word, decodeLoop, takeBits_codeBits, codeOfBits_codeBits_of_lt hrange, loopClass_selfRef hd]
  | illegal k =>
    obtain ⟨hmin, hwidth⟩ := hrange
    simp [LoopToken.word, decodeLoop, takeBits_codeBits, codeOfBits_codeBits_of_lt hwidth, loopClass_illegal hd hmin]

theorem readsBack_loop {n d : Nat} {t : LoopToken} (p : Params) (h : Instr.fits (.loop n d) t.instr = true) :
    ReadsBack p (.loop n d) t.instr := by
  obtain ⟨⟨hn, hd⟩, hrange⟩ := fits_loop_iff.1 h
  exact ⟨_, encode_loop h, fun rest => decode_loop_iff.2 ⟨t, rfl, decodeLoop_word hn hd hrange rest⟩⟩

theorem readsBack_pad (p : Params) {room : Nat} (h : Instr.fits (.padding room) .pad = true) :
    ReadsBack p (.padding room) .pad := by
  refine ⟨_, encode_pad p h, fun rest => ?_⟩
  have htake := takeBits_append (List.replicate room false) rest
  rw [List.length_replicate] at htake
  simp [decode, decodePadding, htake]

end

/-- Settles O1: the rows with an encoding, each at the ports that present it. -/
theorem decodeInvertsEncode : Obligations.DecodeInvertsEncode := by
  unfold Obligations.DecodeInvertsEncode
  intro p q i h
  cases presented_of_fits h with
  | command e start absent => exact readsBack_command p e start absent
  | header t => exact readsBack_header p t
  | loop n d t => exact readsBack_loop p h
  | padding room => exact readsBack_pad p h

/-! ### Encoding what the decoder reads -/

section
variable {p : Params} {bs rest : List Bool}

/-- `i` is well formed and fits port `q`, and `bs` is its word there and the bits after it. -/
def WrittenAs (p : Params) (q : Port) (i : Instr) (bs rest : List Bool) : Prop :=
  i.wf = true ∧ Instr.fits q i = true ∧ ∃ w, encode p q i = some w ∧ bs = w ++ rest

theorem decodeCommandBits_writtenAs {e : Engine} {i : Instr} (h : decodeCommandBits e bs = .ok (i, rest)) :
    WrittenAs p (ctrlPort e) i bs rest := by
  unfold decodeCommandBits at h
  split at h
  · cases h
  · rename_i w r ht
    cases h
    obtain ⟨hbits, hlen⟩ := takeBits_ok ht
    obtain ⟨start, absent, rfl⟩ := List.length_eq_two.1 hlen
    exact ⟨wf_command e start absent, fits_command e start absent, _, encode_command p e start absent, hbits⟩

theorem header_writtenAs {t : HeaderToken} (hbits : bs = t.word p ++ rest) : WrittenAs p .header t.instr bs rest :=
  ⟨by cases t <;> rfl, by cases t <;> rfl, _, encode_header p t, hbits⟩

theorem decodeHeader_writtenAs {t : HeaderToken} (h : decodeHeader p bs = .ok (t, rest)) :
    WrittenAs p .header t.instr bs rest := by
  unfold decodeHeader at h
  split at h
  · cases h
  · rename_i code r ht
    obtain ⟨hbits, hlt⟩ := takeBits_code ht
    obtain ⟨hc, hv⟩ | ⟨hc, hv⟩ | ⟨hc, hv⟩ | ⟨hc, hv⟩ := headerClass_cases (codeOfBits code) <;> rw [hc] at h <;>
      simp only at h
    · obtain ⟨c, rfl, hpayload⟩ := payload_written h
      exact header_writtenAs (by rw [hbits, hv, hpayload, HeaderToken.word, List.append_assoc])
    · obtain ⟨c, rfl, hpayload⟩ := payload_written h
      exact header_writtenAs (by rw [hbits, hv, hpayload, HeaderToken.word, List.append_assoc])
    · cases h
      exact header_writtenAs (by rw [hbits, hv, HeaderToken.word])
    · cases h
      have hv3 : codeOfBits code = 3 := by omega
      exact header_writtenAs (by rw [hbits, hv3, HeaderToken.word])

theorem loop_writtenAs {n d : Nat} {t : LoopToken} (hn : 2 ≤ n) (hd : 3 ≤ d) (hrange : t.InRange n d)
    (hbits : bs = t.word p n d ++ rest) : WrittenAs p (.loop n d) t.instr bs rest :=
  have hfits := fits_loop_iff.2 ⟨⟨hn, hd⟩, hrange⟩
  ⟨wf_of_inRange hd hrange, hfits, _, encode_loop hfits, hbits⟩

theorem decodeLoop_writtenAs {n d : Nat} {t : LoopToken} (hn : 2 ≤ n) (hd : 3 ≤ d) (h : decodeLoop p n d bs = .ok (t, rest)) :
    WrittenAs p (.loop n d) t.instr bs rest := by
  unfold decodeLoop at h
  split at h
  · cases h
  · rename_i code r ht
    obtain ⟨hbits, hlt⟩ := takeBits_code ht
    obtain ⟨hc, hv⟩ | ⟨hc, hv⟩ | ⟨hc, hv⟩ | ⟨hc, hmin, hmax⟩ | ⟨hc, hmin, hv⟩ | ⟨hc, hmin, hmax⟩ :=
      loopClass_cases d (codeOfBits code) <;> rw [hc] at h <;> simp only at h
    · obtain ⟨c, rfl, hpayload⟩ := payload_written h
      exact loop_writtenAs hn hd trivial (by rw [hbits, hv, hpayload, LoopToken.word, List.append_assoc])
    · obtain ⟨c, rfl, hpayload⟩ := payload_written h
      exact loop_writtenAs hn hd trivial (by rw [hbits, hv, hpayload, LoopToken.word, List.append_assoc])
    · cases h
      exact loop_writtenAs hn hd trivial (by rw [hbits, hv, LoopToken.word])
    · cases h
      exact loop_writtenAs hn hd ⟨hmin, hmax, hlt⟩ hbits
    · cases h
      exact loop_writtenAs hn hd (by rwa [hv] at hlt) (by rw [hbits, hv, LoopToken.word])
    · cases h
      exact loop_writtenAs hn hd ⟨hmax, hlt⟩ hbits

theorem decodePadding_writtenAs {room : Nat} {i : Instr} (hroom : 1 ≤ room) (h : decodePadding room bs = .ok (i, rest)) :
    WrittenAs p (.padding room) i bs rest := by
  unfold decodePadding at h
  split at h
  · cases h
  · rename_i z r ht
    obtain ⟨hbits, rfl⟩ := takeBits_ok ht
    split at h
    · rename_i hz
      cases h
      have hfits : Instr.fits (.padding z.length) .pad = true := decide_eq_true hroom
      have hzeros : z = List.replicate z.length false := List.eq_replicate_iff.2 ⟨rfl, by simpa using hz⟩
      exact ⟨rfl, hfits, _, encode_pad p hfits, by rw [← hzeros, hbits]⟩
    · cases h

end

/-- Settles O2: each port's reading, taken back field by field. -/
theorem encodeInvertsDecode : Obligations.EncodeInvertsDecode := by
  unfold Obligations.EncodeInvertsDecode
  intro p q bits rest i hq h
  cases q with
  | encCtrl => exact decodeCommandBits_writtenAs (e := .enc) h
  | decCtrl => exact decodeCommandBits_writtenAs (e := .dec) h
  | header =>
    obtain ⟨t, rfl, ht⟩ := decode_header_iff.1 h
    exact decodeHeader_writtenAs ht
  | loop n d =>
    obtain ⟨t, rfl, ht⟩ := decode_loop_iff.1 h
    obtain ⟨hn, hd⟩ : 2 ≤ n ∧ 3 ≤ d := by simpa [Port.wf] using hq
    exact decodeLoop_writtenAs hn hd ht
  | padding room => exact decodePadding_writtenAs (of_decide_eq_true hq) h

/-- Settles O3: each word, run through the decoder. -/
theorem wordsWrittenFromTheFormats : Obligations.WordsWrittenFromTheFormats := by
  unfold Obligations.WordsWrittenFromTheFormats
  exact ⟨rfl, rfl, rfl, rfl, rfl, rfl, rfl, rfl, rfl, rfl, rfl⟩

end Sys2Proof
end

section
/-! Proofs of the family 40_schedule: the code-width schedule (R132 to R138). -/

namespace Sys2Proof.Machine

/-! ### TICK (R132) -/

theorem tickPair_one (n : Nat) : tickPair n 1 = (n + 1, 2 ^ n) := rfl

theorem tickPair_of_two_le {e : Nat} (n : Nat) (h : 2 ≤ e) : tickPair n e = (n, e - 1) := if_neg (by omega)

/-- TICK executes on the encoder's own pair (R130). -/
theorem exec_tick_enc (s : State) : exec (.tick .enc) s = .next { s with enc := s.enc.tick } := rfl

/-- TICK executes on the decoder's own pair (R130). -/
theorem exec_tick_dec (s : State) : exec (.tick .dec) s = .next { s with dec := s.dec.tick } := rfl

/-- Settles O11: on either engine's pair, TICK's two cases. -/
theorem tickCountsDownOrWidens : Obligations.TickCountsDownOrWidens := by
  unfold Obligations.TickCountsDownOrWidens
  intro s
  rw [exec_tick_enc, exec_tick_dec, Enc.tick, Dec.tick]
  refine ⟨fun h => ?_, fun h => ?_, fun h => ?_, fun h => ?_⟩
  · rw [h, tickPair_one]
  · rw [tickPair_of_two_le _ h]
  · rw [h, tickPair_one]
  · rw [tickPair_of_two_le _ h]

/-! ### The range of the pair (R134, R138) -/

/-- `(n', e')` comes after `(n, e)` with the width unchanged, or one wider at the end of the count, which then starts anew. -/
def WidensAtZero (n e n' e' : Nat) : Prop :=
  (e - 1 ≠ 0 ∧ n' = n) ∨ (e - 1 = 0 ∧ n' = n + 1 ∧ e' = 2 ^ (n' - 1))

theorem tickPair_widensAtZero {n e : Nat} (h : ScheduleOk n e) : WidensAtZero n e (tickPair n e).1 (tickPair n e).2 := by
  obtain ⟨-, hcount, -⟩ := h
  rcases tickPair_cases n e hcount with ⟨rfl, hpair⟩ | ⟨he, hpair⟩
  · rw [hpair]
    exact .inr ⟨rfl, rfl, rfl⟩
  · rw [hpair]
    exact .inl ⟨by omega, rfl⟩

/-- Settles O13: either engine's tick is `tickPair`, which keeps the range and widens at zero only. -/
theorem tickKeepsTheScheduleRange : Obligations.TickKeepsTheScheduleRange := by
  unfold Obligations.TickKeepsTheScheduleRange
  exact fun s =>
    ⟨fun h => ⟨s.enc.tick, exec_tick_enc s, tickPair_ok h, tickPair_widensAtZero h⟩,
      fun h => ⟨s.dec.tick, exec_tick_dec s, tickPair_ok h, tickPair_widensAtZero h⟩⟩

/-! ### The closed form (R135) -/

/-- numBits after `k` ticks from (2, 2). -/
def widthAfter (k : Nat) : Nat := Nat.log2 (k + 2) + 1

/-- The pair after `k` ticks from (2, 2). -/
def pairAfter (k : Nat) : Nat × Nat := (widthAfter k, 2 ^ widthAfter k - 2 - k)

theorem widthAfter_eq_succ_iff {k j : Nat} : widthAfter k = j + 1 ↔ 2 ^ j ≤ k + 2 ∧ k + 2 < 2 ^ (j + 1) := by
  rw [widthAfter, Nat.add_right_cancel_iff, Nat.log2_eq_iff (by omega)]

/-- Width `m` is in effect from 2^(m−1) − 2 to 2^m − 3 ticks. -/
theorem widthAfter_eq_iff {k m : Nat} (hm : 2 ≤ m) : widthAfter k = m ↔ 2 ^ (m - 1) - 2 ≤ k ∧ k ≤ 2 ^ m - 3 := by
  obtain ⟨j, rfl⟩ : ∃ j, m = j + 1 := ⟨m - 1, by omega⟩
  have hpow : 2 ^ 1 ≤ 2 ^ j := Nat.pow_le_pow_right (by decide) (by omega)
  rw [widthAfter_eq_succ_iff, Nat.pow_succ, Nat.add_sub_cancel]
  omega

theorem scheduleOk_pairAfter (k : Nat) : ScheduleOk (pairAfter k).1 (pairAfter k).2 := by
  obtain ⟨hmin, hmax⟩ := widthAfter_eq_succ_iff.1 (rfl : widthAfter k = Nat.log2 (k + 2) + 1)
  have hlog : 1 ≤ Nat.log2 (k + 2) := (Nat.le_log2 (by omega)).2 (by omega)
  simp only [pairAfter, ScheduleOk, widthAfter, Nat.add_sub_cancel]
  rw [Nat.pow_succ] at hmax ⊢
  omega

/-- One tick leads from the closed form at `k` to that at `k + 1`: the width grows when `k + 3` reaches the next power of 2. -/
theorem tickPair_pairAfter (k : Nat) : tickPair (pairAfter k).1 (pairAfter k).2 = pairAfter (k + 1) := by
  obtain ⟨j, hj⟩ : ∃ j, widthAfter k = j + 1 := ⟨_, rfl⟩
  obtain ⟨hmin, hmax⟩ := widthAfter_eq_succ_iff.1 hj
  have hpow : 2 ^ (j + 2) = 2 * 2 ^ (j + 1) := Nat.pow_succ'
  rw [pairAfter, pairAfter, hj]
  rcases tickPair_cases (j + 1) (2 ^ (j + 1) - 2 - k) (by omega) with ⟨hend, hpair⟩ | ⟨hmore, hpair⟩
  · have hnext : widthAfter (k + 1) = j + 2 := widthAfter_eq_succ_iff.2 ⟨by omega, by omega⟩
    rw [hpair, hnext, show 2 ^ (j + 2) - 2 - (k + 1) = 2 ^ (j + 1) by omega]
  · have hnext : widthAfter (k + 1) = j + 1 := widthAfter_eq_succ_iff.2 ⟨by omega, by omega⟩
    rw [hpair, hnext, Nat.sub_sub _ k 1]

/-- The encoder with the pair it has `k` ticks after (2, 2). -/
def Enc.afterTicks (k : Nat) (e : Enc) : Enc := { e with numBits := (pairAfter k).1, enlargeIn := (pairAfter k).2 }

/-- The decoder with the pair it has `k` ticks after (2, 2). -/
def Dec.afterTicks (k : Nat) (d : Dec) : Dec := { d with numBits := (pairAfter k).1, enlargeIn := (pairAfter k).2 }

theorem Enc.tick_afterTicks (k : Nat) (e : Enc) : (e.afterTicks k).tick = e.afterTicks (k + 1) := by
  rw [Enc.afterTicks, Enc.afterTicks, Enc.tick, tickPair_pairAfter]

theorem Dec.tick_afterTicks (k : Nat) (d : Dec) : (d.afterTicks k).tick = d.afterTicks (k + 1) := by
  rw [Dec.afterTicks, Dec.afterTicks, Dec.tick, tickPair_pairAfter]

theorem Enc.afterTicks_zero {e : Enc} (hn : e.numBits = 2) (hk : e.enlargeIn = 2) : e.afterTicks 0 = e := by
  rw [Enc.afterTicks, show pairAfter 0 = (e.numBits, e.enlargeIn) by rw [hn, hk]; decide]

theorem Dec.afterTicks_zero {d : Dec} (hn : d.numBits = 2) (hk : d.enlargeIn = 2) : d.afterTicks 0 = d := by
  rw [Dec.afterTicks, show pairAfter 0 = (d.numBits, d.enlargeIn) by rw [hn, hk]; decide]

/-- An instruction that leads along a sequence of states leads `k` places along it when executed `k` times. -/
theorem execTimes_along {i : Instr} {f : Nat → State} (h : ∀ j, exec i (f j) = .next (f (j + 1))) (k j : Nat) :
    execTimes i k (f j) = .next (f (j + k)) := by
  induction k generalizing j with
  | zero => rfl
  | succ k ih =>
    rw [execTimes, h]
    exact (ih (j + 1)).trans (by rw [Nat.add_right_comm, Nat.add_assoc])

theorem execTimes_tick_enc {s : State} (hn : s.enc.numBits = 2) (hk : s.enc.enlargeIn = 2) (k : Nat) :
    execTimes (.tick .enc) k s = .next { s with enc := s.enc.afterTicks k } := by
  have hrun := execTimes_along (i := .tick .enc) (f := fun j => { s with enc := s.enc.afterTicks j })
    (fun j => by rw [exec_tick_enc, Enc.tick_afterTicks]) k 0
  rwa [Enc.afterTicks_zero hn hk, Nat.zero_add] at hrun

theorem execTimes_tick_dec {s : State} (hn : s.dec.numBits = 2) (hk : s.dec.enlargeIn = 2) (k : Nat) :
    execTimes (.tick .dec) k s = .next { s with dec := s.dec.afterTicks k } := by
  have hrun := execTimes_along (i := .tick .dec) (f := fun j => { s with dec := s.dec.afterTicks j })
    (fun j => by rw [exec_tick_dec, Dec.tick_afterTicks]) k 0
  rwa [Dec.afterTicks_zero hn hk, Nat.zero_add] at hrun

/-- Settles O12: by induction on the ticks, each of which leads from the closed form at `k` to that at `k + 1`. -/
theorem scheduleHasItsClosedForm : Obligations.ScheduleHasItsClosedForm := by
  unfold Obligations.ScheduleHasItsClosedForm
  rintro s k n rfl
  exact ⟨fun hn hk => execTimes_tick_enc hn hk k, fun hn hk => execTimes_tick_dec hn hk k,
    fun m hm => widthAfter_eq_iff hm, scheduleOk_pairAfter k⟩

/-! ### Width sufficiency (R136) -/

/-- A match that is not pending leaves no character pending (R44 item 4). -/
theorem Enc.ScanOk.pend_eq_nil {p : Params} {e : Enc} (h : e.ScanOk p) {q : Phrase} (hw : e.w = phraseChars q)
    (hq : q ∉ e.pend) : e.pend = [] := by
  rcases h.pending with hnil | ⟨c, hpend, hc, -⟩
  · exact hnil
  · have hqc : q = single c := phraseChars_inj (by rw [← hw, hc, phraseChars_single])
    exact absurd (by rw [hpend, hqc]; exact List.mem_singleton_self _) hq

/-- Settles O24: with no character pending, `ticks` says dictSize = 2^numBits + 1 − enlargeIn, and every code is below dictSize. -/
theorem codesFitTheirWidth : Obligations.CodesFitTheirWidth := by
  unfold Obligations.CodesFitTheirWidth
  intro s q k h hw hq hk
  obtain ⟨hmin, hmax⟩ := h.code_lt hk
  have hticks := h.ticks
  rw [h.pend_eq_nil hw hq, List.length_nil] at hticks
  obtain ⟨-, hcount, -⟩ := h.schedule
  exact ⟨hmin, by omega⟩

end Sys2Proof.Machine
end

section
/-! Proofs of the family 41_bitcursor: the bit writer and the bit reader (R150 to R166), and that no step faults (R157, R288). -/

namespace Sys2Proof.Machine

/-! ### No step faults (R157, R195, R288) -/

section
variable {s : State}

/-- An access of the host is refused or answers a next state. -/
theorem Hosted.noFault {o : Host.Outcome State Fault Refusal} (h : Hosted s o) : NoFault o := by
  cases h with
  | refused r => exact nofun
  | next t hp he hd => exact nofun

theorem encOutcome_noFault {r : Run Enc Unit} (h : r.Goes) (s : State) : NoFault (encOutcome s r) := by
  cases r with
  | ok _ e => exact nofun
  | ended e => exact nofun
  | fault f => exact absurd rfl (h f)

/-- The unit of an encoder in phase SCAN sends a match that has a code (R28, R183, R188). -/
theorem encStep_noFault (h : s.EncoderOk) : NoFault (encStep s) := by
  unfold encStep
  cases hp : s.enc.phase with
  | idle => exact nofun
  | done => exact nofun
  | scan =>
    show NoFault (exec (encUnit s.enc) s)
    unfold encUnit
    split
    · exact encOutcome_noFault (Enc.charStep_goes (h hp)) s
    · exact encOutcome_noFault (Enc.finishStep_goes (h hp)) s

theorem decStep_noFault (s : State) : NoFault (decStep s) := by
  unfold decStep
  cases s.dec.phase with
  | idle => exact nofun
  | done => exact nofun
  | header =>
    obtain ⟨d, hd⟩ := execDecHeader_goes s
    exact fun f h => nomatch hd.symm.trans h
  | loop =>
    obtain ⟨d, hd⟩ := execDecToken_goes s
    exact fun f h => nomatch hd.symm.trans h

end

/-- Settles O49: a step is a step of one agent, and of the three only the encoder's needs the invariant. -/
theorem noStepFaults : Obligations.NoStepFaults := by
  unfold Obligations.NoStepFaults
  intro s hs
  obtain ⟨a, rest, hstep⟩ := step_eq_agentStep s
  rw [hstep]
  cases a with
  | host => exact (hostStep_hosted _).noFault
  | enc => exact encStep_noFault (s := { s with sched := rest }) hs
  | dec => exact decStep_noFault _

/-! ### PUTBIT (R151) -/

section
variable {p : Params} {e : Enc} {b : Bool}

/-- A bit that completes no symbol is collected. -/
theorem Enc.putBit_within (h : e.pos + 1 ≠ e.bpc) :
    e.putBit p b = .ok () { e with acc := (e.acc <<< 1) ||| b.toNat, pos := e.pos + 1 } := if_neg h

/-- The bit that completes a symbol appends it where OUTLEN has room (R66). -/
theorem Enc.putBit_room (h : e.pos + 1 = e.bpc) (hroom : outFull p e.outLen = false) :
    e.putBit p b = .ok () { e with
      acc := 0, pos := 0, outMem := Memory.write e.outMem e.outLen ((e.acc <<< 1) ||| b.toNat)
      outLen := e.outLen + 1 } := by
  simp [Enc.putBit, h, Enc.outAppend_room, hroom]

/-- The bit that completes a symbol ends the command where OUTLEN has no room (R66, R274). -/
theorem Enc.putBit_full (h : e.pos + 1 = e.bpc) (hfull : outFull p e.outLen = true) :
    e.putBit p b = .ended (Enc.raise .capacityExceeded e.ii
      { e with acc := (e.acc <<< 1) ||| b.toNat, pos := e.pos + 1 }) := by
  simp [Enc.putBit, h, Enc.outAppend_full, hfull]

end

/-- Settles O14: the three outcomes of PUTBIT, and which of them the cursor and the capacity pick. -/
theorem putbitShiftsIn : Obligations.PutbitShiftsIn := by
  unfold Obligations.PutbitShiftsIn
  intro s b hlenW
  refine ⟨fun h => ?_, fun h hroom => ?_, fun h hfull => ?_⟩
  · exact congrArg (encOutcome s) (Enc.putBit_within h)
  · exact congrArg (encOutcome s) (Enc.putBit_room h ((outFull_eq_false_iff hlenW).mpr hroom))
  · exact congrArg (encOutcome s) (Enc.putBit_full h ((outFull_iff hlenW).mpr hfull))

/-! ### FLUSH (R156, R100) -/

/-- As many zero bits as complete the symbol shift its bits to the top and append it. -/
theorem Enc.putBits_zeros {p : Params} {e : Enc} {k : Nat} (hk : e.pos + (k + 1) = e.bpc)
    (hroom : outFull p e.outLen = false) :
    e.putBits p (List.replicate (k + 1) false) = .ok () { e with
      acc := 0, pos := 0, outLen := e.outLen + 1, outMem := Memory.write e.outMem e.outLen (e.acc <<< (k + 1)) } := by
  induction k generalizing e with
  | zero => simp [Enc.putBits, Enc.putBit_room hk hroom]
  | succ k ih =>
    rw [List.replicate_succ, Enc.putBits, Enc.putBit_within (by omega), Run.andThen_ok, ih]
    · simp [← Nat.shiftLeft_add, Nat.add_comm 1]
    · simp only; omega
    · exact hroom

theorem Enc.flush_room {p : Params} {e : Enc} (hc : e.CursorOk) (hroom : outFull p e.outLen = false) :
    e.flush p = .ok () { e with
      acc := 0, pos := 0, outLen := e.outLen + 1
      outMem := Memory.write e.outMem e.outLen (e.acc <<< (e.bpc - e.pos)) } := by
  obtain ⟨k, hk⟩ := Nat.exists_eq_add_of_lt hc.1
  have hcount : e.bpc - e.pos = k + 1 := by omega
  rw [Enc.flush, hcount]
  exact Enc.putBits_zeros hk.symm hroom

/-- Settles O16: FLUSH and PAD are the same run, the zeros up to the symbol boundary. -/
theorem flushCompletesOneSymbol : Obligations.FlushCompletesOneSymbol := by
  unfold Obligations.FlushCompletesOneSymbol
  intro s hc hroom
  have hflush := congrArg (encOutcome s) (Enc.flush_room hc hroom)
  rw [List.forall_mem_cons, List.forall_mem_singleton]
  exact ⟨hflush, hflush⟩

/-! ### PUTLSB and PUTMSB (R152, R153, R154) -/

/-- Counting down to 0 instead of up from it. -/
theorem reverse_map_range {α : Type} (f : Nat → α) (n : Nat) :
    ((List.range n).map f).reverse = (List.range n).map fun i => f (n - 1 - i) := by
  apply List.ext_getElem <;> simp

/-- R94, written out: a payload goes from its highest bit down, or from bit 0 up. -/
theorem payloadBits_eq (msb : Bool) (v m : Nat) :
    payloadBits msb v m =
      if msb then (List.range m).map fun i => v.testBit (m - 1 - i) else (List.range m).map v.testBit := by
  unfold payloadBits codeBits
  rw [reverse_map_range]

/-- With nothing to exceed, a run of PUTBITs of the machine's encoder appends its bits. -/
theorem encOutcome_putBits {s : State} (hp : s.Unbounded) (hc : s.enc.CursorOk) (hm : Memory.wf s.enc.outMem)
    (bits : List Bool) :
    ∃ e, s.enc.Appended bits e ∧ encOutcome s (s.enc.putBits s.cfg bits) = .next { s with enc := e } := by
  obtain ⟨e, hrun, happ⟩ := Enc.putBits_ok hp bits s.enc hc hm
  exact ⟨e, happ, by rw [hrun, encOutcome_ok]⟩

/-- Settles O15: each is a run of PUTBITs over its field's bits. -/
theorem putFieldsAppendTheirBits : Obligations.PutFieldsAppendTheirBits := by
  unfold Obligations.PutFieldsAppendTheirBits
  intro s v n hp hc hm
  rw [← payloadBits_eq]
  exact ⟨encOutcome_putBits hp hc hm (codeBits v n), encOutcome_putBits hp hc hm (payloadBits s.cfg.litMsbFirst v n)⟩

/-! ### REFILL and GETBIT (R160, R161, R162) -/

theorem exec_refill (s : State) : exec .refill s = .next { s with dec := s.dec.refill } := rfl

/-- Settles O19: the test of the index against the length. -/
theorem refillLoadsOrExhausts : Obligations.RefillLoadsOrExhausts := by
  unfold Obligations.RefillLoadsOrExhausts
  intro s
  rw [exec_refill, Dec.refill]
  exact ⟨fun h => by rw [if_pos h], fun h => by rw [if_neg (Nat.not_lt.mpr h)]⟩

section
variable {s : State} {d : Dec}

/-- REFILL sets the mask anew, whatever it was (R161). -/
theorem Dec.refill_of_position (d : Dec) (m : Nat) : Dec.refill { d with position := m } = d.refill := by
  unfold Dec.refill
  rfl

/-- GETBIT while the mask has a lower bit to move to (R160). -/
theorem Dec.getBit_shift (hx : d.exh = false) (h : d.position >>> 1 ≠ 0) :
    d.getBit = .ok (!(d.val &&& d.position == 0)) { d with position := d.position >>> 1 } := by
  simp [Dec.getBit, hx, h]

/-- GETBIT of the last bit of a symbol (R160, R161). -/
theorem Dec.getBit_last (hx : d.exh = false) (h : d.position >>> 1 = 0) :
    d.getBit = .ok (!(d.val &&& d.position == 0)) d.refill := by
  rw [← Dec.refill_of_position d (d.position >>> 1)]
  simp [Dec.getBit, hx, h]

theorem exec_getbit_ok {b : Bool} {e : Dec} (h : s.dec.getBit = .ok b e) :
    exec .getbit s = .next { s with dec := e, ret := b.toNat } := by
  show readOutcome s (s.dec.getBit.andThen fun b d => .ok b.toNat d) = _
  rw [h, Run.andThen_ok, readOutcome_ok]

theorem exec_getbit_ended {e : Dec} (h : s.dec.getBit = .ended e) : exec .getbit s = .next { s with dec := e } := by
  show readOutcome s (s.dec.getBit.andThen fun b d => .ok b.toNat d) = _
  rw [h, Run.andThen_ended, readOutcome_ended]

/-- The bit as the number that GETBIT returns. -/
theorem toNat_not_beq_zero (n : Nat) : (!(n == 0)).toNat = if n ≠ 0 then 1 else 0 := by
  by_cases h : n = 0 <;> simp [h]

end

/-- Settles O18: the three outcomes of GETBIT, the last of which refills. -/
theorem getbitTestsTheMask : Obligations.GetbitTestsTheMask := by
  unfold Obligations.GetbitTestsTheMask
  intro s
  simp only [← toNat_not_beq_zero]
  exact ⟨fun hx => exec_getbit_ended (Dec.getBit_ended hx), fun hx h => exec_getbit_ok (Dec.getBit_shift hx h),
    fun hx h => ⟨_, exec_refill s, exec_getbit_ok (Dec.getBit_last hx h)⟩⟩

/-! ### GETLSB and GETMSB (R163, R164, R99) -/

/-- R99, written out: the i-th bit of a code weighs 2^i. -/
theorem codeOfBits_eq_sum (bits : List Bool) :
    codeOfBits bits = ((List.range bits.length).map fun i => (bits.getD i false).toNat * 2 ^ i).sum := by
  induction bits with
  | nil => rfl
  | cons b bits ih =>
    rw [codeOfBits, ih, List.length_cons, List.range_succ_eq_map, List.map_cons, List.sum_cons, List.map_map,
      ← List.sum_map_mul_left]
    simp [Function.comp_def, Nat.pow_succ', Nat.mul_left_comm]

/-- R99, written out: the i-th bit of a payload of `m` bits weighs 2^(m - 1 - i), or 2^i. -/
theorem payloadOfBits_eq_sum (msb : Bool) (bits : List Bool) :
    payloadOfBits msb bits =
      if msb then ((List.range bits.length).map fun i => (bits.getD i false).toNat * 2 ^ (bits.length - 1 - i)).sum
      else ((List.range bits.length).map fun i => (bits.getD i false).toNat * 2 ^ i).sum := by
  unfold payloadOfBits
  rw [← codeOfBits_eq_sum]
  congr 1
  rw [codeOfBits_eq_sum, List.length_reverse, ← List.sum_reverse, reverse_map_range]
  refine congrArg List.sum (List.map_congr_left fun i hi => ?_)
  have hlt := List.mem_range.mp hi
  rw [List.getD_reverse _ (by omega), Nat.sub_sub_self (by omega)]

section
variable {s : State} {n : Nat}

theorem exec_getlsb_ok {bits : List Bool} {e : Dec} (h : s.dec.getBits n = .ok bits e) :
    exec (.getlsb n) s = .next { s with dec := e, ret := codeOfBits bits } := by
  show readOutcome s ((s.dec.getBits n).andThen fun bs d => .ok (codeOfBits bs) d) = _
  rw [h, Run.andThen_ok, readOutcome_ok]

theorem exec_getmsb_ok {bits : List Bool} {e : Dec} (h : s.dec.getBits n = .ok bits e) :
    exec (.getmsb n) s = .next { s with dec := e, ret := payloadOfBits s.cfg.litMsbFirst bits } := by
  show readOutcome s ((s.dec.getBits n).andThen fun bs d => .ok (payloadOfBits s.cfg.litMsbFirst bs) d) = _
  rw [h, Run.andThen_ok, readOutcome_ok]

theorem exec_getlsb_ended {e : Dec} (h : s.dec.getBits n = .ended e) : exec (.getlsb n) s = .next { s with dec := e } := by
  show readOutcome s ((s.dec.getBits n).andThen fun bs d => .ok (codeOfBits bs) d) = _
  rw [h, Run.andThen_ended, readOutcome_ended]

theorem exec_getmsb_ended {e : Dec} (h : s.dec.getBits n = .ended e) : exec (.getmsb n) s = .next { s with dec := e } := by
  show readOutcome s ((s.dec.getBits n).andThen fun bs d => .ok (payloadOfBits s.cfg.litMsbFirst bs) d) = _
  rw [h, Run.andThen_ended, readOutcome_ended]

end

/-- Settles O20: each is a run of GETBITs, which delivers the bits ahead or finds too few of them. -/
theorem readerDeliversTheBitsAhead : Obligations.ReaderDeliversTheBitsAhead := by
  unfold Obligations.ReaderDeliversTheBitsAhead
  intro s n hc
  refine ⟨fun b rest hahead => ?_, fun bits rest hahead hlen => ?_, fun hshort => ?_⟩
  · obtain ⟨d, hrun, hmoved, hrest⟩ := Dec.getBit_ok hc hahead
    exact ⟨d, hmoved, hrest, exec_getbit_ok hrun⟩
  · subst hlen
    rw [← payloadOfBits_eq_sum, ← codeOfBits_eq_sum]
    obtain ⟨d, hrun, hmoved, hrest⟩ := Dec.getBits_ok hc hahead
    exact ⟨d, hmoved, hrest, exec_getlsb_ok hrun, exec_getmsb_ok hrun⟩
  · obtain ⟨d, hrun, hmoved, hx⟩ := Dec.getBits_ended hc hshort
    exact ⟨d, hmoved, hx, exec_getlsb_ended hrun, exec_getmsb_ended hrun⟩

/-! ### The reader inverts the writer (R165) -/

/-- With no bits collected, the writer's bits are those of its symbols (R154). -/
theorem Enc.written_of_pos_zero {e : Enc} (h : e.pos = 0) :
    e.written = streamBits e.bpc (Memory.slice e.outMem 0 e.outLen) := by
  rw [Enc.written, h, symbolBits_zero, List.append_nil]

/-- Reading every bit ahead uses the input up, and the bit after it raises TruncatedInput (R160, R271). -/
theorem Dec.getBits_all {d : Dec} (hc : d.CursorOk) :
    ∃ e, d.getBits d.ahead.length = .ok d.ahead e ∧ e.getBit = .ended (e.raise .truncatedInput 0) := by
  obtain ⟨e, hrun, -, hrest⟩ := Dec.getBits_ok hc (List.append_nil d.ahead).symm
  exact ⟨e, hrun, Dec.getBit_ended (Dec.ahead_eq_nil.mp hrest)⟩

/-- Settles O21: what START finds ahead is what the writer has written. -/
theorem readerInvertsWriter : Obligations.ReaderInvertsWriter := by
  unfold Obligations.ReaderInvertsWriter
  intro s hpos hout hmin hmax hidle hreset hlen hslice
  have hlegal : legalReset s.cfg s.dec.resetReg = true := legalReset_iff.mpr ⟨s.enc.bpc - 1, by omega, hreset⟩
  obtain ⟨d, hstart, hok, -, -, -, -, hahead⟩ := Dec.start_ok hidle hlegal (by omega)
  have hwidth : Nat.log2 s.dec.resetReg + 1 = s.enc.bpc := by rw [hreset, Nat.log2_two_pow, Nat.sub_add_cancel hmin]
  rw [hwidth, hlen, hslice, ← Enc.written_of_pos_zero hpos] at hahead
  obtain ⟨e, hrun, hend⟩ := Dec.getBits_all hok.cursor
  rw [hahead, Enc.length_written, hpos, Nat.add_zero] at hrun
  exact ⟨{ s with dec := d }, e, congrArg (decOutcome s) hstart, hrun, hend⟩

end Sys2Proof.Machine
end

section
/-! Proofs of the family 42_encoder: the encoder's operations, its two units of execution, and a whole ENCODE (R180 to R199). -/

namespace Sys2Proof.Machine

/-! ### What the encoder executes in each phase (R183, R199, R247) -/

theorem State.TurnOf.enc_eq {s t : State} {a : Agent} (h : s.TurnOf a t) : t.enc = s.enc := by
  obtain ⟨-, -, rfl⟩ | ⟨rest, -, rfl⟩ := h <;> rfl

theorem State.TurnOf.dec_eq {s t : State} {a : Agent} (h : s.TurnOf a t) : t.dec = s.dec := by
  obtain ⟨-, -, rfl⟩ | ⟨rest, -, rfl⟩ := h <;> rfl

theorem encUnit_of_lt {e : Enc} (h : e.ii < e.len) : encUnit e = .encChar := if_pos h

theorem encUnit_of_le {e : Enc} (h : e.len ≤ e.ii) : encUnit e = .encFinish := if_neg (Nat.not_lt.mpr h)

theorem encStep_scan {s : State} (h : s.enc.phase = .scan) : encStep s = exec (encUnit s.enc) s := by
  unfold encStep
  rw [h]

theorem encStep_rest {s : State} (h : s.enc.phase = .idle ∨ s.enc.phase = .done) : encStep s = .next s := by
  unfold encStep
  obtain h | h := h <;> rw [h]

theorem decStep_rest {s : State} (h : s.dec.phase = .idle ∨ s.dec.phase = .done) : decStep s = .next s := by
  unfold decStep
  obtain h | h := h <;> rw [h]

/-- Settles O6: the step is the agent's own, and the turn leaves the engine's phase and cursor as they are. -/
theorem engineStepsFollowThePhase : Obligations.EngineStepsFollowThePhase := by
  unfold Obligations.EngineStepsFollowThePhase
  intro s t
  refine ⟨fun hturn hscan => ?_, fun hturn hrest => ?_, fun hturn hrest => ?_⟩
  · have hstep : step s = exec (encUnit t.enc) t := (step_of_turn hturn).trans (encStep_scan (hturn.enc_eq ▸ hscan))
    rw [hstep, hturn.enc_eq]
    exact ⟨fun h => by rw [encUnit_of_lt h], fun h => by rw [encUnit_of_le h]⟩
  · exact (step_of_turn hturn).trans (encStep_rest (hturn.enc_eq ▸ hrest))
  · exact (step_of_turn hturn).trans (decStep_rest (hturn.dec_eq ▸ hrest))

/-! ### START (R180 to R182) -/

theorem legalBpc_iff {p : Params} {n : Nat} : legalBpc p n = true ↔ 1 ≤ n ∧ n ≤ p.bpcMax := by
  simp [legalBpc]

/-- The encoder after the assignments with which START begins, before its checks (R180). -/
def Enc.latched (e : Enc) : Enc :=
  { e with status := statusBusy, outLen := 0, fInfo := 0, bpc := e.bpcReg.toNat, len := e.lenReg }

section
variable {p : Params} {e : Enc}

theorem Enc.start_present (hb : isBusy e.status = false) (hl : legalBpc p e.bpcReg.toNat = true)
    (hroom : dictFull p 2 = false) :
    e.start p false = .ok () { e.latched with
      dict := [], pend := [], dictSize := 3, numBits := 2, enlargeIn := 2, w := [], ii := 0, acc := 0, pos := 0
      phase := .scan } := by
  simp [Enc.start, Enc.latched, hb, hl, hroom]

theorem Enc.start_absent (hb : isBusy e.status = false) (hl : legalBpc p e.bpcReg.toNat = true) :
    e.start p true = .ended (e.latched.finish .seq) := by
  simp [Enc.start, Enc.latched, hb, hl]

/-- The width is checked before anything else (R182). -/
theorem Enc.start_illegal (hb : isBusy e.status = false) (hl : legalBpc p e.bpcReg.toNat = false) (absent : Bool) :
    e.start p absent = .ended (e.latched.raise .invalidArgument e.bpcReg.toNat) := by
  simp [Enc.start, Enc.latched, hb, hl]

end

/-- Settles O7: START's three outcomes, picked by the width and then by ABSENT. -/
theorem encStartFollowsTheChecks : Obligations.EncStartFollowsTheChecks := by
  unfold Obligations.EncStartFollowsTheChecks
  intro s hb
  refine ⟨fun hlegal => ?_, fun hillegal => ?_⟩
  · have hl := legalBpc_iff.mpr hlegal
    exact ⟨fun hroom => congrArg (encOutcome s) (Enc.start_present hb hl hroom),
      congrArg (encOutcome s) (Enc.start_absent hb hl)⟩
  · have hl : legalBpc s.cfg s.enc.bpcReg.toNat = false := by
      rw [Bool.eq_false_iff, ne_eq, legalBpc_iff]
      omega
    rw [List.forall_mem_cons, List.forall_mem_singleton]
    exact ⟨congrArg (encOutcome s) (Enc.start_illegal hb hl false),
      congrArg (encOutcome s) (Enc.start_illegal hb hl true)⟩

/-! ### Registrations (R185, R187) -/

theorem mem_insertPhrase {q r : Phrase} {m : List Phrase} : r ∈ insertPhrase q m ↔ r ∈ m ∨ r = q := by
  unfold insertPhrase
  split
  · rename_i hq
    exact ⟨.inl, fun h => h.elim id fun hr => hr ▸ hq⟩
  · simp

theorem mem_removePhrase {q r : Phrase} {m : List Phrase} : r ∈ removePhrase q m ↔ r ∈ m ∧ r ≠ q := by
  simp [removePhrase]

section
variable {p : Params} {e : Enc}

theorem Enc.registerChar_room (hroom : dictFull p e.dictSize = false) (c : Char16) :
    e.registerChar p c = .ok () { e with
      dict := assign e.dict (single c) e.dictSize, dictSize := e.dictSize + 1, pend := insertPhrase (single c) e.pend } := by
  simp [Enc.registerChar, hroom]

theorem Enc.register_room (hroom : dictFull p e.dictSize = false) (q : Phrase) :
    e.register p q = .ok () { e with dict := assign e.dict q e.dictSize, dictSize := e.dictSize + 1 } := by
  simp [Enc.register, hroom]

end

/-- Settles O22: a registration with room is one assignment to ENC.dict. -/
theorem encoderRegistrationsTakeTheNextCode : Obligations.EncoderRegistrationsTakeTheNextCode := by
  unfold Obligations.EncoderRegistrationsTakeTheNextCode
  exact fun s c wc hroom =>
    ⟨⟨_, _, fun q => find_assign _ q _ _, fun _ => mem_insertPhrase,
        congrArg (encOutcome s) (Enc.registerChar_room hroom c)⟩,
      _, fun q => find_assign _ q _ _, congrArg (encOutcome s) (Enc.register_room hroom wc)⟩

/-! ### Emissions (R188 to R190) -/

theorem Enc.Appended.pend_eq {bs : List Bool} {e f : Enc} (h : e.Appended bs f) : f.pend = e.pend := by
  rw [h.frame]

section
variable {p : Params} {e f : Enc} {q : Phrase}

theorem Enc.tokenBits_of_pending (hq : q ∈ e.pend) : e.tokenBits p q = some (literalBits p e q.first) := if_pos hq

theorem Enc.tokenBits_of_not_pending (hq : q ∉ e.pend) :
    e.tokenBits p q = (find e.dict q).map fun k => codeBits k e.numBits := if_neg hq

theorem Enc.emitLiteral_of_putBits (hrun : e.putBits p (literalBits p e q.first) = .ok () f) :
    e.emitLiteral p q = .ok () { f.tick with pend := removePhrase q f.pend } := by
  rw [Enc.emitLiteral_eq, hrun, Run.andThen_ok]

/-- EMIT of a pending phrase ticks once more than EMIT_LITERAL, which it runs (R133, R189). -/
theorem Enc.emit_pending (hq : q ∈ e.pend) (hrun : e.putBits p (literalBits p e q.first) = .ok () f) :
    e.emit p q = .ok () { f.tick.tick with pend := removePhrase q f.pend } := by
  simp [Enc.emit_eq, Enc.tokenBits_of_pending hq, hrun, Enc.emitted, hq]

theorem Enc.emit_coded {k : Nat} (hq : q ∉ e.pend) (hk : find e.dict q = some k)
    (hrun : e.putBits p (codeBits k e.numBits) = .ok () f) : e.emit p q = .ok () f.tick := by
  simp [Enc.emit_eq, Enc.tokenBits_of_not_pending hq, hk, hrun, Enc.emitted, hq]

theorem Enc.emit_uncoded (hq : q ∉ e.pend) (hk : find e.dict q = none) : e.emit p q = .fault .emitWithoutCode := by
  rw [Enc.emit_eq, Enc.tokenBits_of_not_pending hq, hk, Option.map_none]

end

/-- Settles O23: one run of PUTBITs serves EMIT_LITERAL and EMIT of a pending character, and another EMIT of a code. -/
theorem emissionsSendTheirToken : Obligations.EmissionsSendTheirToken := by
  unfold Obligations.EmissionsSendTheirToken
  intro s c q k hp hc hm
  refine ⟨?_, fun hq hk => ?_, fun hq hk => congrArg (encOutcome s) (Enc.emit_uncoded hq hk)⟩
  · obtain ⟨e, hrun, happ⟩ := Enc.putBits_ok hp (literalBits s.cfg s.enc c) s.enc hc hm
    refine ⟨e, removePhrase (single c) s.enc.pend, happ, fun r => mem_removePhrase, ?_, fun hpend => ?_⟩
    · rw [← happ.pend_eq]
      exact congrArg (encOutcome s) (Enc.emitLiteral_of_putBits (q := single c) hrun)
    · rw [← happ.pend_eq]
      exact congrArg (encOutcome s) (Enc.emit_pending hpend hrun)
  · obtain ⟨e, hrun, happ⟩ := Enc.putBits_ok hp (codeBits k s.enc.numBits) s.enc hc hm
    exact ⟨e, happ, congrArg (encOutcome s) (Enc.emit_coded hq hk hrun)⟩

/-! ### ENC.CHAR (R184 to R187) -/

theorem phraseChars_extend (w : List Char16) (c : Char16) : phraseChars (extend w c) = w ++ [c] := by
  cases w <;> rfl

/-- A map reads, with a new key listed last, the new value at that key and the old one elsewhere. -/
theorem find_concat {κ β : Type} [DecidableEq κ] {m : List (κ × β)} {k : κ} (h : find m k = none) (v : β) (j : κ) :
    find (m ++ [(k, v)]) j = if j = k then some v else find m j := by
  rw [← assign_new m k v h, find_assign]

theorem find_eq_none_of_inDomain {κ β : Type} [DecidableEq κ] {m : List (κ × β)} {k : κ} (h : inDomain m k = false) :
    find m k = none := by
  simpa [inDomain] using h

section
variable {p : Params} {e : Enc} {c : Char16}

/-- A known character that extends the match to a phrase with a code (R186). -/
theorem Enc.charStep_extends (hread : Memory.read e.inMem e.ii = c) (hseen : inDomain e.dict (single c) = true)
    (hhit : inDomain e.dict (extend e.w c) = true) :
    e.charStep p = .ok () { e with ii := e.ii + 1, w := e.w ++ [c] } := by
  simp [Enc.charStep, hread, hseen, hhit, phraseChars_extend]

/-- A new character where nothing is matched yet: it is found once it is registered (R185, R186). -/
theorem Enc.charStep_first (hread : Memory.read e.inMem e.ii = c) (hnew : inDomain e.dict (single c) = false)
    (hw : e.w = []) (hroom : dictFull p e.dictSize = false) :
    e.charStep p = .ok () { e with
      ii := e.ii + 1, w := [c], dict := assign e.dict (single c) e.dictSize, dictSize := e.dictSize + 1
      pend := insertPhrase (single c) e.pend } := by
  simp [Enc.charStep, hread, hnew, Enc.registerChar_room, hroom, hw]

end

/-- Settles O25: with the phrase in the dictionary, or put there by step 2a, the step is step 2b. -/
theorem encCharExtendsTheMatch : Obligations.EncCharExtendsTheMatch := by
  unfold Obligations.EncCharExtendsTheMatch
  intro s c hread
  refine ⟨fun hseen hhit => ?_, fun hnew hw hroom => ?_⟩
  · exact congrArg (encOutcome s) (Enc.charStep_extends hread hseen hhit)
  · exact ⟨_, _, fun q => find_assign _ q _ _, fun _ => mem_insertPhrase,
      congrArg (encOutcome s) (Enc.charStep_first hread hnew hw hroom)⟩

/-- Settles O26: of the three ways a character step of a valid scan can go, a miss is the last. -/
theorem encCharSendsOnAMiss : Obligations.EncCharSendsOnAMiss := by
  unfold Obligations.EncCharSendsOnAMiss
  intro s c q hp hok hm hi hc hw hmiss
  obtain ⟨f, hrun, hstep, hcase⟩ := Enc.charStep_ok hp hok hm hi
  have hexec := congrArg (encOutcome s) (hrun.trans (congrArg (Run.ok ()) hstep.frame))
  rw [hc] at hcase
  have hnone := find_eq_none_of_inDomain hmiss
  obtain ⟨hempty, -⟩ | ⟨r, hr, hhit, -⟩ | ⟨r, bits, hr, -, hbits, happ, hfw, hdict, hsize, hpend, hticks⟩ := hcase
  · exact absurd (hw.symm.trans hempty) (phraseChars_ne_nil q)
  · obtain rfl := phraseChars_inj (hw.symm.trans hr)
    exact absurd (hhit.symm.trans hmiss) (by decide)
  · obtain rfl := phraseChars_inj (hw.symm.trans hr)
    refine ⟨bits, _, f.dict, f.numBits, f.enlargeIn, f.pend, hbits, happ, hticks, fun hknown => ?_, fun hnew => ?_⟩
    · simp only [hknown, Bool.not_true, Bool.false_eq_true, if_false, List.append_nil] at hdict hsize hpend
      refine ⟨fun r => by rw [hdict, find_concat hnone], hpend, ?_⟩
      rw [← hfw, ← hsize]
      exact hexec
    · simp only [hnew, Bool.not_false, if_true] at hdict hsize hpend
      have hsingle := find_eq_none_of_inDomain hnew
      have hstill : find (s.enc.dict ++ [(single c, s.enc.dictSize)]) (append q c) = none := by
        rw [find_concat hsingle, if_neg (append_ne_single q c c), hnone]
      refine ⟨fun r => by rw [hdict, find_concat hstill, find_concat hsingle], hpend, ?_⟩
      rw [← hfw, ← hsize]
      exact hexec

/-! ### ENC.FINISH (R191 to R193) -/

/-- Settles O27: the law of the finish step, its symbol count read as that of the bits before the padding. -/
theorem encFinishEndsTheStream : Obligations.EncFinishEndsTheStream := by
  unfold Obligations.EncFinishEndsTheStream
  intro s hp hok hm
  obtain ⟨f, tok, n, k, pad, htok, hmin, hmax, happ, hpos, hlen, hrun⟩ := Enc.finishStep_ok hp hok hm
  refine ⟨tok, n, k, pad, f, htok, hmin, hmax, happ, hpos, ?_, congrArg (encOutcome s) hrun⟩
  rw [hlen, List.length_append, List.length_append, length_codeBits]

/-! ### The units complete (R195, R276) -/

section
variable {p : Params} {e : Enc}

/-- A character step goes on in a valid scan, or a finite capacity ends it (R195, R274). -/
theorem Enc.ScanOk.charStep_completes (h : e.ScanOk p) (hm : Memory.wf e.outMem) (hi : e.ii < e.len) :
    (∃ f, e.charStep p = .ok () f ∧ e.Stepped p f) ∨
      ∃ g : Enc, e.charStep p = .ended (g.raise .capacityExceeded g.ii) ∧ ¬ p.unbounded := by
  obtain heq | ⟨g, hfull⟩ := Enc.capped_charStep p e
  · obtain ⟨f, hrun, hstep, -⟩ := Enc.charStep_ok (ideal_unbounded p) (Enc.scanOk_ideal.2 h) hm hi
    exact .inl ⟨f, heq.trans hrun, ⟨Enc.scanOk_ideal.1 hstep.ok, hstep.canonical, hstep.frame⟩⟩
  · refine .inr ⟨g, hfull, fun hp => ?_⟩
    obtain ⟨f, hrun, -⟩ := Enc.charStep_ok hp h hm hi
    exact nomatch hfull.symm.trans hrun

/-- The finish step ends with KIND = SEQ and at least one symbol, or a finite capacity ends it (R193, R274). -/
theorem Enc.ScanOk.finishStep_completes (h : e.ScanOk p) (hm : Memory.wf e.outMem) :
    (∃ f, e.finishStep p = .ended f ∧ f.phase = .done ∧ f.status = statusFinished .seq ∧ 1 ≤ f.outLen) ∨
      ∃ g : Enc, e.finishStep p = .ended (g.raise .capacityExceeded g.ii) ∧ ¬ p.unbounded := by
  have finishes : ∀ {p'}, p'.unbounded → e.ScanOk p' → ∃ f, e.finishStep p' = .ended f ∧ f.phase = .done ∧
      f.status = statusFinished .seq ∧ 1 ≤ f.outLen := by
    intro p' hp' h'
    obtain ⟨f, _, _, _, _, -, -, -, -, -, hlen, hrun⟩ := Enc.finishStep_ok hp' h' hm
    exact ⟨_, hrun, rfl, rfl, le_of_le_of_eq (Nat.le_add_left 1 _) hlen.symm⟩
  obtain heq | ⟨g, hfull⟩ := Enc.capped_finishStep p e
  · rw [heq]
    exact .inl (finishes (ideal_unbounded p) (Enc.scanOk_ideal.2 h))
  · refine .inr ⟨g, hfull, fun hp => ?_⟩
    obtain ⟨f, hrun, -, hstatus, -⟩ := finishes hp h
    cases hfull.symm.trans hrun
    exact absurd (show statusFailed .capacityExceeded = statusFinished .seq from hstatus) (by decide)

theorem Enc.Stepped.ii_eq {f : Enc} (h : e.Stepped p f) : f.ii = e.ii + 1 := by rw [h.frame]

theorem Enc.Stepped.len_eq {f : Enc} (h : e.Stepped p f) : f.len = e.len := by rw [h.frame]

theorem Enc.Stepped.phase_eq {f : Enc} (h : e.Stepped p f) : f.phase = e.phase := by rw [h.frame]

end

/-- A step of the encoder leaves the symbols below ENC_OUTLEN as they are (R62). -/
theorem encStep_keeps_stored {s t : State} (h : encStep s = .next t) (hm : Memory.wf s.enc.outMem) (a : Nat)
    (ha : a < s.enc.outLen) : Memory.read t.enc.outMem a = Memory.read s.enc.outMem a := by
  obtain rfl | ⟨-, e, rfl, -, hon | hover⟩ := encStep_cases h hm
  · rfl
  · exact hon.below a ha
  · exact hover.below a ha

/-- Settles O28: each unit's completions, within any capacities; what is stored stays as at every step of the encoder. -/
theorem encoderUnitsComplete : Obligations.EncoderUnitsComplete := by
  unfold Obligations.EncoderUnitsComplete
  intro s hscan hok hm
  have stored : ∀ {e}, exec (encUnit s.enc) s = .next { s with enc := e } →
      ∀ a, a < s.enc.outLen → Memory.read e.outMem a = Memory.read s.enc.outMem a :=
    fun h => encStep_keeps_stored ((encStep_scan hscan).trans h) hm
  by_cases hi : s.enc.ii < s.enc.len
  · rw [encUnit_of_lt hi] at stored ⊢
    obtain ⟨f, hrun, hstep⟩ | ⟨g, hrun, hcap⟩ := hok.charStep_completes hm hi
    · have hexec := congrArg (encOutcome s) hrun
      exact ⟨f, hexec, .inl ⟨hstep.phase_eq.trans hscan, hstep.ok, hstep.ii_eq, hi⟩, stored hexec⟩
    · have hexec := congrArg (encOutcome s) hrun
      exact ⟨_, hexec, .inr (.inr ⟨rfl, rfl, rfl, rfl, hcap⟩), stored hexec⟩
  · rw [encUnit_of_le (Nat.not_lt.mp hi)] at stored ⊢
    obtain ⟨f, hrun, hdone, hstatus, -⟩ | ⟨g, hrun, hcap⟩ := hok.finishStep_completes hm
    · have hexec := congrArg (encOutcome s) hrun
      exact ⟨f, hexec, .inr (.inl ⟨hdone, hstatus, Nat.le_antisymm hok.input (Nat.not_lt.mp hi)⟩), stored hexec⟩
    · have hexec := congrArg (encOutcome s) hrun
      exact ⟨_, hexec, .inr (.inr ⟨rfl, rfl, rfl, rfl, hcap⟩), stored hexec⟩

/-! ### A whole ENCODE (R195, R199, R324) -/

/-- A run of one more step is the run and then the step. -/
theorem steps_succ_of_steps {k : Nat} {s t : State} (h : steps k s = .next t) : steps (k + 1) s = step t := by
  induction k generalizing s with
  | zero =>
    cases h
    cases hstep : step t <;> simp [steps, hstep]
  | succ k ih =>
    rw [steps] at h ⊢
    cases hstep : step s with
    | next u => rw [hstep] at h; exact ih h
    | fault f => rw [hstep] at h; cases h
    | refused r => rw [hstep] at h; cases h

/-- An encoder between the character steps of an ENCODE. -/
structure Enc.InScan (p : Params) (e : Enc) : Prop where
  phase : e.phase = .scan
  ok : e.ScanOk p
  canonical : Memory.wf e.outMem

theorem Enc.Stepped.inScan {p : Params} {e f : Enc} (h : e.Stepped p f) (he : e.InScan p) : f.InScan p :=
  ⟨h.phase_eq.trans he.phase, h.ok, h.canonical⟩

section
variable {s : State}

/-- With no schedule named, a machine whose encoder is in phase SCAN executes the encoder's unit (log 6). -/
theorem step_scan (hsched : s.sched = []) (hscan : s.enc.phase = .scan) : step s = exec (encUnit s.enc) s :=
  (step_of_turn (.inl ⟨hsched, if_pos hscan, rfl⟩)).trans (encStep_scan hscan)

/-- With unbounded capacities, each step of a scan with input left is one character step. -/
theorem step_scan_char (hp : s.Unbounded) (hsched : s.sched = []) (h : s.enc.InScan s.cfg) (hi : s.enc.ii < s.enc.len) :
    ∃ e, step s = .next { s with enc := e } ∧ s.enc.Stepped s.cfg e := by
  obtain ⟨e, hrun, hstep, -⟩ := Enc.charStep_ok hp h.ok h.canonical hi
  refine ⟨e, ?_, hstep⟩
  rw [step_scan hsched h.phase, encUnit_of_lt hi]
  exact congrArg (encOutcome s) hrun

/-- With unbounded capacities, the step of a scan at the end of its input is the finish step. -/
theorem step_scan_finish (hp : s.Unbounded) (hsched : s.sched = []) (h : s.enc.InScan s.cfg) (hi : s.enc.len ≤ s.enc.ii) :
    ∃ e, step s = .next { s with enc := e } ∧ e.phase = .done ∧ e.status = statusFinished .seq ∧ 1 ≤ e.outLen := by
  obtain ⟨e, hrun, hend⟩ | ⟨-, -, hcap⟩ := h.ok.finishStep_completes h.canonical
  · refine ⟨e, ?_, hend⟩
    rw [step_scan hsched h.phase, encUnit_of_le hi]
    exact congrArg (encOutcome s) hrun
  · exact absurd hp hcap

/-- As many steps as characters are left, or fewer, each take one character and go on. -/
theorem steps_scan (hp : s.Unbounded) (hsched : s.sched = []) (h : s.enc.InScan s.cfg) (k : Nat)
    (hk : k ≤ s.enc.len - s.enc.ii) :
    ∃ e, steps k s = .next { s with enc := e } ∧ e.InScan s.cfg ∧ e.ii = s.enc.ii + k ∧ e.len = s.enc.len := by
  induction k with
  | zero => exact ⟨s.enc, rfl, h, rfl, rfl⟩
  | succ k ih =>
    obtain ⟨e, hsteps, he, hii, hlen⟩ := ih (by omega)
    obtain ⟨f, hstep, hf⟩ := step_scan_char (s := { s with enc := e }) hp hsched he (by simp only; omega)
    refine ⟨f, (steps_succ_of_steps hsteps).trans hstep, hf.inScan he, ?_, hf.len_eq.trans hlen⟩
    rw [hf.ii_eq]
    simp only [hii, Nat.add_assoc]

end

/-- Settles O58: by induction on the characters left, each step takes one, and the step after the last is the finish step. -/
theorem encoderTerminates : Obligations.EncoderTerminates := by
  unfold Obligations.EncoderTerminates
  intro s hp hsched hscan hok hm
  have scan := steps_scan hp hsched ⟨hscan, hok, hm⟩
  refine ⟨fun k hk => ?_, ?_⟩
  · obtain ⟨e, hsteps, he, hii, -⟩ := scan k hk
    exact ⟨e, hsteps, he.phase, hii⟩
  · obtain ⟨e, hsteps, he, hii, hlen⟩ := scan _ (Nat.le_refl _)
    obtain ⟨f, hstep, hend⟩ := step_scan_finish (s := { s with enc := e }) hp hsched he (by simp only; omega)
    exact ⟨f, (steps_succ_of_steps hsteps).trans hstep, hend⟩

end Sys2Proof.Machine
end

section
/-! Proofs of the family 43_decoder: START, the tokens and the units of the decoder, a whole DECODE, and the round trip
(R220 to R247). -/

namespace Sys2Proof.Machine

/-! ### START (R220 to R223) -/

/-- The decoder after the assignments with which START begins, before its checks (R220). -/
def Dec.latched (d : Dec) : Dec :=
  { d with status := statusBusy, outLen := 0, fInfo := 0, fIdx := 0, resetValue := d.resetReg, len := d.lenReg }

section
variable {p : Params} {d : Dec}

theorem Dec.start_present (hb : isBusy d.status = false) (hr : legalReset p d.resetReg = true) (hl : d.lenReg ≠ 0) :
    d.start p false = .ok () { d.latched with
      dict := [], exh := false, val := Memory.read d.inMem 0, position := d.resetReg, index := 1, phase := .header } := by
  simp [Dec.start, Dec.latched, hb, hr, hl]

theorem Dec.start_empty (hb : isBusy d.status = false) (hr : legalReset p d.resetReg = true) (hl : d.lenReg = 0) :
    d.start p false = .ended (d.latched.finish .null) := by
  simp [Dec.start, Dec.latched, hb, hr, hl]

theorem Dec.start_absent (hb : isBusy d.status = false) (hr : legalReset p d.resetReg = true) :
    d.start p true = .ended (d.latched.finish .seq) := by
  simp [Dec.start, Dec.latched, hb, hr]

/-- The reset value is checked before anything else (R223). -/
theorem Dec.start_illegal (hb : isBusy d.status = false) (hr : legalReset p d.resetReg = false) (absent : Bool) :
    d.start p absent = .ended (d.latched.raise .invalidArgument d.resetReg) := by
  simp [Dec.start, Dec.latched, hb, hr]

/-- In the phases from which START begins, a failure leaves DEC_FIDX as it is (R280, log 22). -/
theorem Dec.raise_before_start (h : d.phase = .idle ∨ d.phase = .done) (c : Cause) (info : Nat) :
    d.raise c info = { d with outLen := 0, fInfo := info, status := statusFailed c, phase := .done } := by
  obtain h | h := h <;> simp [Dec.raise, h, DecPhase.pastStart]

/-- In the phases of a DECODE, a failure reports the index (R280, log 22). -/
theorem Dec.raise_past_start (h : d.phase = .header ∨ d.phase = .loop) (c : Cause) (info : Nat) :
    d.raise c info =
      { d with outLen := 0, fInfo := info, fIdx := d.index, status := statusFailed c, phase := .done } := by
  obtain h | h := h <;> simp [Dec.raise, h, DecPhase.pastStart]

end

/-- Settles O8: START's outcomes, picked by the reset value, by ABSENT and by the length. -/
theorem decStartFollowsTheChecks : Obligations.DecStartFollowsTheChecks := by
  unfold Obligations.DecStartFollowsTheChecks
  intro s hb hp
  refine ⟨fun hlegal => ?_, fun hillegal => ?_⟩
  · have hr := legalReset_iff.mpr hlegal
    exact ⟨fun hl => congrArg (decOutcome s) (Dec.start_present hb hr hl),
      fun hl => congrArg (decOutcome s) (Dec.start_empty hb hr hl), congrArg (decOutcome s) (Dec.start_absent hb hr)⟩
  · have hr : legalReset s.cfg s.dec.resetReg = false := by
      rw [Bool.eq_false_iff, ne_eq, legalReset_iff]
      exact fun ⟨j, hj, heq⟩ => hillegal j hj heq
    have hraise := Dec.raise_before_start (d := s.dec.latched) hp .invalidArgument s.dec.resetReg
    rw [List.forall_mem_cons, List.forall_mem_singleton]
    exact ⟨congrArg (decOutcome s) ((Dec.start_illegal hb hr false).trans (congrArg Run.ended hraise)),
      congrArg (decOutcome s) ((Dec.start_illegal hb hr true).trans (congrArg Run.ended hraise))⟩

/-! ### Registrations (R234, R240) -/

theorem Dec.registerNext_room {p : Params} {d : Dec} (hroom : dictFull p d.dictSize = false) (q : Phrase) :
    d.registerNext p q =
      .ok () { d.tick with dict := assign d.dict d.dictSize q, dictSize := d.dictSize + 1 } :=
  Dec.registerNext_ok q hroom

/-- Settles O33: both are one assignment to DEC.dict, and a TICK. -/
theorem decoderRegistrationsFillTheNextIndex : Obligations.DecoderRegistrationsFillTheNextIndex := by
  unfold Obligations.DecoderRegistrationsFillTheNextIndex
  exact fun s c q hroom =>
    ⟨⟨_, fun k => find_assign _ k _ _, congrArg (decOutcome s) (Dec.registerNext_room hroom (single c))⟩,
      _, fun k => find_assign _ k _ _, congrArg (decOutcome s) (Dec.registerNext_room hroom q)⟩

/-! ### Tokens (R228 to R230, R234 to R240) -/

/-- The two forms of a header literal do the same with the same character (R99). -/
theorem exec_hdrLit8 (c : BitVec 8) (s : State) : exec (.hdrLit8 c) s = exec (.hdrLit16 (c.setWidth 16)) s := rfl

/-- The two forms of a literal token do the same with the same character (R99). -/
theorem exec_lit8 (c : BitVec 8) (s : State) : exec (.lit8 c) s = exec (.lit16 (c.setWidth 16)) s := rfl

section
variable {p : Params} {d e : Dec} {q : Phrase}

theorem Dec.headerLiteral_room (hdict : dictFull p 3 = false) (hout : outFull p d.outLen = false)
    (hm : Memory.wf d.outMem) (c : Char16) :
    ∃ e, d.Wrote [c] e ∧ d.headerLiteral p c = .ok () { e with
      dict := assign d.dict 3 (single c), dictSize := 4, numBits := 3, enlargeIn := 4, w := single c, phase := .loop } := by
  obtain ⟨e, he, hwrote⟩ := Dec.outAppend_ok c hout hm
  rw [Dec.outAppend_room hout] at he
  cases he
  exact ⟨_, hwrote, by simp [Dec.headerLiteral, hdict, Dec.outAppend, hout]⟩

theorem Dec.resolve_above {k : Nat} (h : d.dictSize < k) : d.resolve k = none := by
  rw [Dec.resolve, if_neg (by omega), if_neg (by omega)]

theorem Dec.resolve_self (d : Dec) : d.resolve d.dictSize = some (append d.w d.w.first) := by
  rw [Dec.resolve, if_neg (Nat.lt_irrefl _), if_pos rfl]

theorem Dec.resolve_stored {k : Nat} (h : k < d.dictSize) : d.resolve k = find d.dict k := if_pos h

/-- After the characters of its phrase, a token registers one phrase more, with one tick (R240). -/
theorem Dec.Wrote.registered_eq {cs : List Char16} (h : d.Wrote cs e) :
    e.registered q = { e.tick with
      dict := assign d.dict d.dictSize (append d.w q.first), dictSize := d.dictSize + 1, w := q } := by
  obtain ⟨hdict, hsize, -, -, hw, -, -⟩ := h.eqs
  rw [← hdict, ← hsize, ← hw]
  rfl

/-- A literal token registers its character and then, as the reference to it, one phrase more, with a tick each (R234, R240). -/
theorem Dec.literal_eq (hp : p.unbounded) (hm : Memory.wf d.outMem) (c : Char16) :
    ∃ e, d.Wrote [c] e ∧ d.literal p c = .ok () { e.tick.tick with
      dict := assign (assign d.dict d.dictSize (single c)) (d.dictSize + 1) (append d.w c)
      dictSize := d.dictSize + 2, w := single c } := by
  obtain ⟨e, hwrote, hrun⟩ := Dec.literal_ok hp c hm
  refine ⟨{ d with outMem := e.outMem, outLen := e.outLen },
    ⟨rfl, hwrote.length, hwrote.canonical, hwrote.output, hwrote.elsewhere⟩, ?_⟩
  rw [hrun, hwrote.registered_eq, hwrote.frame]
  rfl

end

/-- Settles O29: the character is registered under index 3 and appended. -/
theorem headerLiteralSetsTheDictionary : Obligations.HeaderLiteralSetsTheDictionary := by
  unfold Obligations.HeaderLiteralSetsTheDictionary
  intro s c8 c
  refine ⟨fun hc => by rw [hc, exec_hdrLit8], fun hdict hout hm => ?_⟩
  obtain ⟨d, hwrote, hrun⟩ := Dec.headerLiteral_room hdict hout hm c
  exact ⟨_, d, fun k => find_assign _ k _ _, hwrote, congrArg (decOutcome s) hrun⟩

/-- Settles O30: completion with KIND = SEQ, and failure in a phase of a DECODE. -/
theorem endAndIllegalCodesHalt : Obligations.EndAndIllegalCodesHalt := by
  unfold Obligations.EndAndIllegalCodesHalt
  intro s hp
  refine ⟨?_, fun i k hi => ?_⟩
  · rw [List.forall_mem_cons, List.forall_mem_singleton]
    exact ⟨rfl, rfl⟩
  · rw [← Dec.raise_past_start hp .corruptCode k]
    obtain ⟨rfl, rfl⟩ | rfl | ⟨rfl, hk⟩ := hi
    · rfl
    · rfl
    · exact congrArg (decOutcome s) (Dec.tail_corrupt s.cfg (Dec.resolve_above hk))

/-- Settles O32: the code of the reference resolves to its phrase. -/
theorem referencesAppendTheirPhrase : Obligations.ReferencesAppendTheirPhrase := by
  unfold Obligations.ReferencesAppendTheirPhrase
  intro s i entry hp hm href
  obtain ⟨k, hexec, hk⟩ : ∃ k, exec i s = decOutcome s (s.dec.tail s.cfg k) ∧ s.dec.resolve k = some entry := by
    obtain ⟨k, rfl, hlt, hfind⟩ | ⟨rfl | rfl, rfl⟩ := href
    · exact ⟨k, rfl, (Dec.resolve_stored hlt).trans hfind⟩
    · exact ⟨s.dec.dictSize, rfl, s.dec.resolve_self⟩
    · exact ⟨s.dec.dictSize, rfl, s.dec.resolve_self⟩
  obtain ⟨d, hwrote, hrun⟩ := Dec.tail_ok hp hk hm
  refine ⟨_, d, fun j => find_assign _ j _ _, hwrote, ?_⟩
  rw [hexec, hrun, decOutcome_ok, hwrote.registered_eq]

/-- Settles O31: a literal registers its character, and then is a reference to it. -/
theorem loopLiteralRegistersTwice : Obligations.LoopLiteralRegistersTwice := by
  unfold Obligations.LoopLiteralRegistersTwice
  intro s c8 c hp hm
  refine ⟨fun hc => by rw [hc, exec_lit8], ?_⟩
  obtain ⟨d, hwrote, hrun⟩ := Dec.literal_eq hp hm c
  refine ⟨_, d, fun k => ?_, hwrote, congrArg (decOutcome s) hrun⟩
  rw [find_assign, find_assign]
  by_cases h : k = s.dec.dictSize
  · rw [if_pos h, if_pos h, if_neg (by omega)]
  · rw [if_neg h, if_neg h]

/-! ### The units read the token ahead (R224, R231 to R233, R271) -/

theorem decStep_header {s : State} (h : s.dec.phase = .header) : decStep s = exec .decHeader s := by
  unfold decStep
  rw [h]

theorem decStep_loop {s : State} (h : s.dec.phase = .loop) : decStep s = exec .decToken s := by
  unfold decStep
  rw [h]

theorem State.TurnOf.cfg_eq {s t : State} {a : Agent} (h : s.TurnOf a t) : t.cfg = s.cfg := by
  obtain ⟨-, -, rfl⟩ | ⟨rest, -, rfl⟩ := h <;> rfl

section
variable {s : State}

/-- Bits that end inside the header token: the failure TruncatedInput, with no bit left (R271). -/
theorem execDecHeader_truncated (hc : s.dec.CursorOk) (hd : decodeHeader s.cfg s.dec.ahead = .error .truncated) :
    ∃ d, s.dec.Moved d ∧ d.exh = true ∧ execDecHeader s = .next { s with dec := d.raise .truncatedInput 0 } := by
  obtain ⟨_, _, _, hok, -⟩ | ⟨d, -, hrun, hmoved, hx⟩ := Dec.fetchHeader_reads s.cfg hc
  · exact nomatch hd.symm.trans hok
  · exact ⟨d, hmoved, hx, by rw [execDecHeader, hrun]⟩

/-- The same of a loop token. -/
theorem execDecToken_truncated (hc : s.dec.CursorOk) (hexh : s.dec.exh = false)
    (hd : decodeLoop s.cfg s.dec.numBits s.dec.dictSize s.dec.ahead = .error .truncated) :
    ∃ d, s.dec.Moved d ∧ d.exh = true ∧ execDecToken s = .next { s with dec := d.raise .truncatedInput 0 } := by
  obtain ⟨_, _, _, hok, -⟩ | ⟨d, -, hrun, hmoved, hx⟩ := Dec.fetchLoop_reads s.cfg hc
  · exact nomatch hd.symm.trans hok
  · exact ⟨d, hmoved, hx, by simp [execDecToken, hexh, hrun]⟩

/-- An exhausted cursor is one past the length (R38), which the failure reports. -/
theorem Dec.Moved.raise_truncated {d e : Dec} (h : d.Moved e) (hx : e.exh = true)
    (hp : d.phase = .header ∨ d.phase = .loop) :
    e.raise .truncatedInput 0 = { e with
      outLen := 0, fInfo := 0, fIdx := d.len + 1, status := statusFailed .truncatedInput, phase := .done } := by
  have hphase : e.phase = d.phase := by rw [h.frame]
  have hlen : e.len = d.len := by rw [h.frame]
  obtain ⟨-, -, -, hindex, -⟩ := h.cursor
  rw [Dec.raise_past_start (hphase ▸ hp), hindex hx, hlen]

/-- A unit of the decoder does what the port's token does, read from the bits ahead, or fails where they end inside it. -/
def Dec.RunsDecoded (s : State) (q : Port) (o : Host.Outcome State Fault Refusal) : Prop :=
  (∀ i rest, decode s.cfg q s.dec.ahead = .ok (i, rest) →
    ∃ d, s.dec.Moved d ∧ d.ahead = rest ∧ o = exec i { s with dec := d }) ∧
  (decode s.cfg q s.dec.ahead = .error .truncated →
    ∃ d, s.dec.Moved d ∧ o = .next { s with dec := { d with
      outLen := 0, fInfo := 0, fIdx := s.dec.len + 1, status := statusFailed .truncatedInput, phase := .done } })

theorem decode_header_error {p : Params} {bs : List Bool} {x : DecodeError} :
    decode p .header bs = .error x ↔ decodeHeader p bs = .error x := by
  rw [decode]
  rcases decodeHeader p bs with e | ⟨t, r⟩ <;> simp

theorem decode_loop_error {p : Params} {n d : Nat} {bs : List Bool} {x : DecodeError} :
    decode p (.loop n d) bs = .error x ↔ decodeLoop p n d bs = .error x := by
  rw [decode]
  rcases decodeLoop p n d bs with e | ⟨t, r⟩ <;> simp

theorem decHeader_runsDecoded (hc : s.dec.CursorOk) (hp : s.dec.phase = .header) :
    Dec.RunsDecoded s .header (exec .decHeader s) := by
  refine ⟨fun i rest h => ?_, fun h => ?_⟩
  · obtain ⟨t, rfl, ht⟩ := decode_header_iff.1 h
    obtain ⟨d, hmoved, hrest, hexec⟩ := execDecHeader_of_decode hc ht
    exact ⟨d, hmoved, hrest, hexec.trans (runHeaderToken_eq_exec t _)⟩
  · obtain ⟨d, hmoved, hx, hexec⟩ := execDecHeader_truncated hc (decode_header_error.1 h)
    rw [hmoved.raise_truncated hx (.inl hp)] at hexec
    exact ⟨d, hmoved, hexec⟩

theorem decToken_runsDecoded (hc : s.dec.CursorOk) (hp : s.dec.phase = .loop) (hexh : s.dec.exh = false) :
    Dec.RunsDecoded s (.loop s.dec.numBits s.dec.dictSize) (exec .decToken s) := by
  refine ⟨fun i rest h => ?_, fun h => ?_⟩
  · obtain ⟨t, rfl, ht⟩ := decode_loop_iff.1 h
    obtain ⟨d, hmoved, hrest, hexec⟩ := execDecToken_of_decode hc ht hexh
    exact ⟨d, hmoved, hrest, hexec.trans (runLoopToken_eq_exec t _)⟩
  · obtain ⟨d, hmoved, hx, hexec⟩ := execDecToken_truncated hc hexh (decode_loop_error.1 h)
    rw [hmoved.raise_truncated hx (.inr hp)] at hexec
    exact ⟨d, hmoved, hexec⟩

end

/-- Settles O5: the step is the unit of the phase, which fetches what the decoder reads. -/
theorem decoderStepRunsTheToken : Obligations.DecoderStepRunsTheToken := by
  unfold Obligations.DecoderStepRunsTheToken
  intro s t q hturn hc hport
  have hstep : step s = decStep t := step_of_turn hturn
  rw [← hturn.dec_eq] at hc hport ⊢
  rw [hstep, ← hturn.cfg_eq]
  obtain ⟨hp, rfl⟩ | ⟨hp, hexh, rfl⟩ := hport
  · rw [decStep_header hp]
    exact decHeader_runsDecoded hc hp
  · rw [decStep_loop hp]
    exact decToken_runsDecoded hc hp hexh

/-- Settles O35: the token read completes, as every token does. -/
theorem decTokenRunsTheNextToken : Obligations.DecTokenRunsTheNextToken := by
  unfold Obligations.DecTokenRunsTheNextToken
  intro s t rest hc hexh hd
  obtain ⟨d, hmoved, hrest, hexec⟩ := execDecToken_of_decode hc hd hexh
  obtain ⟨e, hrun⟩ := runLoopToken_goes t { s with dec := d }
  exact ⟨d, _, hmoved, hrest, (runLoopToken_eq_exec t _).symm.trans hrun, hexec.trans hrun⟩

section
variable {s : State} {rest : List Bool}

/-- The header step over the word of a header token. -/
theorem decHeader_word (t : HeaderToken) (hc : s.dec.CursorOk) (ha : s.dec.ahead = t.word s.cfg ++ rest) :
    ∃ d, s.dec.Moved d ∧ d.ahead = rest ∧ exec .decHeader s = exec t.instr { s with dec := d } := by
  obtain ⟨d, hmoved, hrest, hexec⟩ := execDecHeader_of_decode hc (ha ▸ decodeHeader_word t rest)
  exact ⟨d, hmoved, hrest, hexec.trans (runHeaderToken_eq_exec t _)⟩

/-- The header step over a literal in either form: that of 16 bits with the same character (R95, R99). -/
theorem decHeader_literal (c : Char16) (hc : s.dec.CursorOk)
    (ha : (c.toNat < 256 ∧ s.dec.ahead = [false, false] ++ payloadBits s.cfg.litMsbFirst c.toNat 8 ++ rest) ∨
      s.dec.ahead = [true, false] ++ payloadBits s.cfg.litMsbFirst c.toNat 16 ++ rest) :
    ∃ d, s.dec.Moved d ∧ d.ahead = rest ∧ exec .decHeader s = exec (.hdrLit16 c) { s with dec := d } := by
  obtain ⟨hlt, ha⟩ | ha := ha
  · have hnat : (c.setWidth 8).toNat = c.toNat := by
      rw [BitVec.toNat_setWidth, Nat.mod_eq_of_lt hlt]
    have hwide : (c.setWidth 8).setWidth 16 = c := by
      apply BitVec.eq_of_toNat_eq
      rw [BitVec.toNat_setWidth, hnat, Nat.mod_eq_of_lt c.isLt]
    rw [← hnat] at ha
    obtain ⟨d, hmoved, hrest, hexec⟩ := decHeader_word (.lit8 (c.setWidth 8)) hc ha
    rw [HeaderToken.instr, exec_hdrLit8, hwide] at hexec
    exact ⟨d, hmoved, hrest, hexec⟩
  · exact decHeader_word (.lit16 c) hc ha

end

/-- Settles O34: the words of the four header tokens; a literal then leaves what it leaves of its own. -/
theorem decHeaderReadsTheFirstToken : Obligations.DecHeaderReadsTheFirstToken := by
  unfold Obligations.DecHeaderReadsTheFirstToken
  intro s rest hc
  refine ⟨fun c ha => ?_, decHeader_word .eos hc, decHeader_word .illegal hc⟩
  obtain ⟨d, hmoved, hrest, hexec⟩ := decHeader_literal c hc ha
  refine ⟨d, hmoved, hrest, hexec, fun hdict hout hm => ?_⟩
  obtain ⟨hd, -, -, -, -, hmem, hlen, -⟩ := hmoved.eqs
  obtain ⟨e, hwrote, hrun⟩ := Dec.headerLiteral_room (d := d) hdict (hlen ▸ hout) (hmem ▸ hm) c
  refine ⟨_, e, hwrote, fun k => ?_, hexec.trans (congrArg (decOutcome { s with dec := d }) hrun)⟩
  rw [hd, find_assign]

section
variable {s : State}

theorem execDecToken_overrun (hx : s.dec.exh = true) (hstrict : s.cfg.strictOverrun = false) :
    execDecToken s = .next { s with dec := s.dec.finish .overrun } := by
  simp [execDecToken, hx, hstrict]

theorem execDecToken_strict (hx : s.dec.exh = true) (hstrict : s.cfg.strictOverrun = true) :
    execDecToken s = .next { s with dec := s.dec.raise .truncatedInput 0 } := by
  simp [execDecToken, hx, hstrict]

end

/-- Settles O36: the loop-top test comes before anything is read. -/
theorem loopTopEndsOnExhaustion : Obligations.LoopTopEndsOnExhaustion := by
  unfold Obligations.LoopTopEndsOnExhaustion
  intro s hx
  refine ⟨fun hstrict => execDecToken_overrun hx hstrict, fun hstrict hp => ?_⟩
  rw [← Dec.raise_past_start (.inr hp)]
  exact execDecToken_strict hx hstrict

/-! ### The decoder's units (R241, R247) -/

/-- The decoder's next unit (R247): the header step in phase HEADER, else a token step. -/
def decUnit (d : Dec) : Instr := if d.phase = .header then .decHeader else .decToken

/-- A decoder between the units of a DECODE, with the invariant of its phase. -/
def Dec.Running (p : Params) (d : Dec) : Prop := (d.phase = .header ∧ d.HeaderOk p) ∨ (d.phase = .loop ∧ d.LoopOk p)

theorem Dec.Running.phase {p : Params} {d : Dec} (h : d.Running p) : d.phase = .header ∨ d.phase = .loop :=
  h.imp And.left And.left

theorem decStep_running {s : State} (h : s.dec.phase = .header ∨ s.dec.phase = .loop) :
    decStep s = exec (decUnit s.dec) s := by
  obtain h | h := h
  · rw [decStep_header h, decUnit, if_pos h]
  · rw [decStep_loop h, decUnit, if_neg (by simp [h])]

/-- Each unit of a DECODE goes on with at least two bits fewer ahead, or ends the command (R241). -/
theorem Dec.Running.stepped {s : State} (h : s.dec.Running s.cfg) (hm : Memory.wf s.dec.outMem) :
    Dec.Stepped s 2 (exec (decUnit s.dec) s) := by
  rw [← decStep_running h.phase]
  obtain ⟨hp, hok⟩ | ⟨hp, hok⟩ := h
  · rw [decStep_header hp]
    exact execDecHeader_stepped hok hp hm
  · rw [decStep_loop hp]
    exact execDecToken_stepped hok hp hm

/-- Settles O37: the laws of the two units say what a unit leaves. -/
theorem decoderUnitsComplete : Obligations.DecoderUnitsComplete := by
  unfold Obligations.DecoderUnitsComplete
  intro s hrun hm
  obtain ⟨d, hexec, -, hstored, hcase⟩ := Dec.Running.stepped hrun hm
  exact ⟨d, hexec, hcase.imp_left fun ⟨hp, hok, _⟩ => ⟨hp, hok⟩, hstored⟩

/-! ### A whole DECODE (R243) -/

/-- The machine's next steps are the decoder's until it is DONE: no schedule is named, and no encoder is at work (log 6). -/
def State.LeftToDecoder (s : State) : Prop := s.sched = [] ∧ s.enc.phase ≠ .scan

theorem step_decoding {s : State} (h : s.LeftToDecoder) (hp : s.dec.phase = .header ∨ s.dec.phase = .loop) :
    step s = decStep s := by
  obtain ⟨hsched, henc⟩ := h
  have hagent : defaultAgent s = .dec := by rw [defaultAgent, if_neg henc, if_pos hp]
  exact step_of_turn (.inl ⟨hsched, hagent, rfl⟩)

theorem steps_succ_of_step {s t : State} (h : step s = .next t) (k : Nat) : steps (k + 1) s = steps k t := by
  rw [steps, h]

/-- A step of a DECODE ends the command, or goes on with at least two bits fewer ahead. -/
theorem step_running {s : State} (hs : s.LeftToDecoder) (h : s.dec.Running s.cfg) (hm : Memory.wf s.dec.outMem) :
    ∃ d, step s = .next { s with dec := d } ∧ Memory.wf d.outMem ∧
      (d.phase = .done ∨ (d.Running s.cfg ∧ d.ahead.length + 2 ≤ s.dec.ahead.length)) := by
  obtain ⟨d, hexec, hd, -, hcase⟩ := h.stepped hm
  refine ⟨d, (step_decoding hs h.phase).trans ((decStep_running h.phase).trans hexec), hd, ?_⟩
  obtain ⟨hp, hok, hfewer⟩ | ⟨hdone, -⟩ | ⟨hdone, -⟩ := hcase
  · exact .inr ⟨.inr ⟨hp, hok⟩, hfewer⟩
  · exact .inl hdone
  · exact .inl hdone

/-- By induction on the bits ahead. -/
theorem steps_to_done {s : State} (hs : s.LeftToDecoder) (h : s.dec.Running s.cfg) (hm : Memory.wf s.dec.outMem) :
    ∃ k d, k ≤ s.dec.ahead.length / 2 + 1 ∧ steps k s = .next { s with dec := d } ∧ d.phase = .done := by
  induction hn : s.dec.ahead.length using Nat.strong_induction_on generalizing s with
  | _ n ih =>
    obtain ⟨d, hstep, hd, hdone | ⟨hrun, hfewer⟩⟩ := step_running hs h hm
    · exact ⟨1, d, by omega, steps_succ_of_step hstep 0, hdone⟩
    · obtain ⟨k, e, hk, hsteps, hdone⟩ := ih d.ahead.length (by omega) (s := { s with dec := d }) hs hrun hd rfl
      exact ⟨k + 1, e, by omega, (steps_succ_of_step hstep k).trans hsteps, hdone⟩

/-- Settles O59: each unit ends the command or consumes two of the bits ahead. -/
theorem decoderTerminates : Obligations.DecoderTerminates := by
  unfold Obligations.DecoderTerminates
  exact fun s hsched henc hrun hm => steps_to_done ⟨hsched, henc⟩ hrun hm


/-! ### The round trip (R242) -/

/-- From `v` on, the DECODE ends with KIND = SEQ and the output `text`. -/
def DecodesTo (v : State) (text : List Char16) : Prop :=
  ∃ k y, steps k v = .next y ∧ y.dec.status = statusFinished .seq ∧ y.dec.output = text

theorem DecodesTo.of_step {v w : State} {text : List Char16} (hstep : step v = .next w) (h : DecodesTo w text) :
    DecodesTo v text := by
  obtain ⟨k, y, hsteps, hend⟩ := h
  exact ⟨k + 1, y, (steps_succ_of_step hstep k).trans hsteps, hend⟩

theorem DecodesTo.of_finish {v : State} {d : Dec} (hstep : step v = .next { v with dec := d.finish .seq }) :
    DecodesTo v d.output := ⟨1, _, steps_succ_of_step hstep 0, rfl, rfl⟩

theorem Dec.Moved.output_eq {d e : Dec} (h : d.Moved e) : e.output = d.output := by
  rw [h.frame]
  rfl

/-- The end marker as the header token (R229). -/
theorem DecodesTo.of_header_eos {v : State} {rest : List Bool} (hv : v.LeftToDecoder) (hp : v.dec.phase = .header)
    (hc : v.dec.CursorOk) (ha : v.dec.ahead = codeBits 2 2 ++ rest) : DecodesTo v v.dec.output := by
  obtain ⟨d, hmoved, hexec⟩ := execDecHeader_eos hc ha
  rw [← hmoved.output_eq]
  exact .of_finish ((step_decoding hv (.inl hp)).trans ((decStep_header hp).trans hexec))

/-- The end marker in the loop (R235). -/
theorem DecodesTo.of_loop_eos {v : State} {rest : List Bool} (hv : v.LeftToDecoder) (hp : v.dec.phase = .loop)
    (hok : v.dec.LoopOk v.cfg) (ha : v.dec.ahead = codeBits 2 v.dec.numBits ++ rest) : DecodesTo v v.dec.output := by
  obtain ⟨d, hmoved, hexec⟩ := execDecToken_eos hok.cursor hok.schedule.1 ha
  rw [← hmoved.output_eq]
  exact .of_finish ((step_decoding hv (.inr hp)).trans ((decStep_loop hp).trans hexec))

/-- The decoder before the header token, and the encoder with nothing read. -/
structure AtStart (p : Params) (e : Enc) (d : Dec) : Prop where
  header : d.HeaderOk p
  phase : d.phase = .header
  output : Memory.wf d.outMem
  unread : e.ii = 0 ∧ e.w = [] ∧ e.numBits = 2 ∧ e.enlargeIn = 2

/-- The decoder has consumed exactly the bits the encoder has sent. -/
def InStep (p : Params) (e : Enc) (d : Dec) : Prop := AtStart p e d ∨ AtHeader p e d ∨ InLoop p e d

section
variable {p : Params} {e f : Enc} {d : Dec} {v : State} {q : Phrase} {bits rest : List Bool}

theorem Dec.output_of_outLen (h : d.outLen = 0) : d.output = [] := by
  rw [Dec.output, h, Memory.slice_zero]

theorem InStep.phase (h : InStep p e d) : d.phase = .header ∨ d.phase = .loop :=
  h.elim (fun h => .inl h.phase) fun h => h.imp AtHeader.phase InLoop.phase

/-- With nothing matched, nothing has been read. -/
theorem InStep.of_nil (h : InStep p e d) (hw : e.w = []) : AtStart p e d := by
  obtain h | h | h := h
  · exact h
  · obtain ⟨c, hc, -⟩ := h.first
    exact nomatch hw.symm.trans hc
  · obtain ⟨c, r, hc, -⟩ := h.entries
    exact nomatch hw.symm.trans hc

/-- The output and the match are what has been read (R244). -/
theorem InStep.text (h : InStep p e d) : d.output ++ e.w = Memory.slice e.inMem 0 e.ii := by
  obtain h | h | h := h
  · obtain ⟨hii, hw, -⟩ := h.unread
    rw [Dec.output_of_outLen h.header.output, hw, hii, List.append_nil, Memory.slice_zero]
  · obtain ⟨c, hw, -, -, -, -, -, hslice⟩ := h.first
    rw [Dec.output_of_outLen h.header.output, hw, ← hslice, List.nil_append]
  · exact h.text

/-- The decoder's step over the token of the match. -/
theorem InStep.token (hv : v.LeftToDecoder) (hp : v.cfg.unbounded) (h : InStep v.cfg e v.dec) (hq : e.w = phraseChars q)
    (hb : e.tokenBits v.cfg q = some bits) (ha : v.dec.ahead = bits ++ rest) :
    ∃ d, step v = .next { v with dec := d } ∧ d.ahead = rest ∧ Received v.cfg e q v.dec d := by
  rw [step_decoding hv h.phase]
  obtain h | h | h := h
  · exact absurd (hq.symm.trans h.unread.2.1) (phraseChars_ne_nil q)
  · rw [decStep_header h.phase]
    exact h.token hp hq hb ha
  · rw [decStep_loop h.phase]
    exact h.token hp hq hb ha

/-- The first character leaves the decoder before its header token (R185, R186). -/
theorem AtStart.first (h : AtStart p e d) (hf : f.ScanOk p) (hm : Memory.wf f.outMem)
    (heq : f = { e with
      ii := e.ii + 1, w := [Memory.read e.inMem e.ii], dict := [(single (Memory.read e.inMem e.ii), 3)], dictSize := 4
      pend := [single (Memory.read e.inMem e.ii)] }) : AtHeader p f d := by
  obtain ⟨hii, -, hn, hk⟩ := h.unread
  refine ⟨hf, hm, h.header, h.phase, h.output, Memory.read e.inMem e.ii, ?_⟩
  subst heq
  refine ⟨rfl, rfl, rfl, rfl, hn, hk, ?_⟩
  simp only [hii]
  rw [Memory.slice_cons, Memory.slice_zero]

/-- A step that extends a match with no character pending finds the decoder in the loop, and leaves it in step (R186). -/
theorem InStep.hit (h : InStep p e d) (hf : f.ScanOk p) (hq : e.w = phraseChars q) (hpe : e.pend = [])
    (heq : f = { e with ii := e.ii + 1, w := phraseChars (append q (Memory.read e.inMem e.ii)) }) : InStep p f d := by
  obtain h | h | h := h
  · exact absurd (hq.symm.trans h.unread.2.1) (phraseChars_ne_nil q)
  · obtain ⟨c, -, hpend, -⟩ := h.first
    exact nomatch hpe.symm.trans hpend
  · exact .inr (.inr (h.hit hf hq hpe heq))

end

/-- What the encoder has yet to send is `bits`: a decoder in step with it, with these bits ahead, ends with the whole input. -/
def Completes (p : Params) (e : Enc) (bits : List Bool) : Prop :=
  ∀ v : State, v.cfg = p → v.LeftToDecoder → InStep p e v.dec → v.dec.ahead = bits →
    DecodesTo v (Memory.slice e.inMem 0 e.len)

section
variable {p : Params} {e : Enc}

/-- The finish step sends what completes the stream (R191, R192, R156). -/
theorem Enc.ScanOk.finish_completes (hp : p.unbounded) (h : e.ScanOk p) (hm : Memory.wf e.outMem) (hi : e.ii = e.len) :
    ∃ f bits, e.finishStep p = .ended f ∧ f.status = statusFinished .seq ∧ f.pos = 0 ∧ f.bpc = e.bpc ∧ 1 ≤ f.outLen ∧
      f.written = e.written ++ bits ∧ Completes p e bits := by
  obtain ⟨f, tok, n, k, pad, hmatch, -, -, happ, hpos, hlen, hrun⟩ := Enc.finishStep_ok hp h hm
  refine ⟨_, _, hrun, rfl, hpos, by rw [happ.frame], le_of_le_of_eq (Nat.le_add_left 1 _) hlen.symm, happ.bits, ?_⟩
  rintro v rfl hv hin hahead
  have htext := hin.text
  rw [hi] at htext
  obtain ⟨hw, rfl, hwidth⟩ | ⟨q, hw, htok, hwidth⟩ := hmatch
  · have hstart := hin.of_nil hw
    obtain ⟨-, -, hn2, -⟩ := hstart.unread
    cases hwidth
    rw [hn2, List.nil_append] at hahead
    rw [← htext, hw, List.append_nil]
    exact .of_header_eos hv hstart.phase hstart.header.cursor hahead
  · rw [List.append_assoc] at hahead
    obtain ⟨d, hstep, hrest, hreceived⟩ := hin.token hv hp hw htok hahead
    have hd : d.numBits = n := congrArg Prod.fst (hreceived.widths.trans hwidth.symm)
    rw [← hd] at hrest
    rw [← htext, hw, ← hreceived.output]
    exact .of_step hstep (.of_loop_eos (v := { v with dec := d }) hv hreceived.phase hreceived.loop hrest)

/-- A character step sends what, before the bits that complete the stream after it, completes the stream (R184). -/
theorem Enc.ScanOk.char_completes (hp : p.unbounded) (h : e.ScanOk p) (hm : Memory.wf e.outMem) (hi : e.ii < e.len) :
    ∃ f bits, e.charStep p = .ok () f ∧ e.Stepped p f ∧ f.written = e.written ++ bits ∧
      ∀ rest, Completes p f rest → Completes p e (bits ++ rest) := by
  obtain ⟨f, hrun, hstep, hcase⟩ := Enc.charStep_ok hp h hm hi
  have hinput : Memory.slice f.inMem 0 f.len = Memory.slice e.inMem 0 e.len := by rw [hstep.frame]
  obtain ⟨hw, hfw, hwritten, hf⟩ | ⟨q, hw, -, hpend, hf⟩ | ⟨q, bits, hw, -, htok, happ, hfw, hleft⟩ := hcase
  · refine ⟨f, [], hrun, hstep, by rw [hwritten, List.append_nil], fun rest hrest v hcfg hv hin hahead => ?_⟩
    rw [hfw] at hf
    rw [← hinput]
    exact hrest v hcfg hv (.inr (.inl ((hin.of_nil hw).first hstep.ok hstep.canonical hf))) hahead
  · have hwritten : f.written = e.written := by rw [hf]; rfl
    refine ⟨f, [], hrun, hstep, by rw [hwritten, List.append_nil], fun rest hrest v hcfg hv hin hahead => ?_⟩
    rw [← hinput]
    exact hrest v hcfg hv (hin.hit hstep.ok hw hpend hf) hahead
  · have hwritten : f.written = e.written ++ bits := by rw [← happ.bits, hstep.frame]; rfl
    refine ⟨f, bits, hrun, hstep, hwritten, ?_⟩
    rintro rest hrest v rfl hv hin hahead
    obtain ⟨d, hdec, hdrest, hreceived⟩ := hin.token hv hp hw htok hahead
    have htext := hin.text
    rw [hw] at htext
    have hloop := hreceived.next hstep.ok hstep.canonical htext ⟨by rw [hstep.frame], hstep.ii_eq⟩ hfw hleft
    rw [← hinput]
    exact .of_step hdec (hrest { v with dec := d } rfl hv (.inr (.inr hloop)) hdrest)

end

/-- By induction on the characters left: the rest of an ENCODE ends with KIND = SEQ at a symbol boundary, and sends what
completes its stream. -/
theorem steps_completes {s : State} (hp : s.Unbounded) (hsched : s.sched = []) (h : s.enc.InScan s.cfg) (n : Nat)
    (hn : s.enc.ii + n = s.enc.len) :
    ∃ e bits, steps (n + 1) s = .next { s with enc := e } ∧ e.status = statusFinished .seq ∧ e.pos = 0 ∧
      e.bpc = s.enc.bpc ∧ 1 ≤ e.outLen ∧ e.written = s.enc.written ++ bits ∧ Completes s.cfg s.enc bits := by
  induction n generalizing s with
  | zero =>
    obtain ⟨e, bits, hrun, hend⟩ := h.ok.finish_completes hp h.canonical hn
    have hstep : step s = .next { s with enc := e } := by
      rw [step_scan hsched h.phase, encUnit_of_le (Nat.le_of_eq hn.symm)]
      exact congrArg (encOutcome s) hrun
    exact ⟨e, bits, steps_succ_of_step hstep 0, hend⟩
  | succ n ih =>
    obtain ⟨f, sent, hrun, hchar, hwritten, hcompletes⟩ := h.ok.char_completes hp h.canonical (by omega)
    have hstep : step s = .next { s with enc := f } := by
      rw [step_scan hsched h.phase, encUnit_of_lt (by omega)]
      exact congrArg (encOutcome s) hrun
    obtain ⟨e, bits, hsteps, hstatus, hpos, hbpc, hlen, hbits, hrest⟩ :=
      ih (s := { s with enc := f }) hp hsched (hchar.inScan h) (by
        simp only [hchar.ii_eq, hchar.len_eq]
        omega)
    refine ⟨e, sent ++ bits, (steps_succ_of_step hstep _).trans hsteps, hstatus, hpos, ?_, hlen, ?_, hcompletes _ hrest⟩
    · rw [hbpc, hchar.frame]
    · rw [hbits, hwritten, List.append_assoc]

/-- START leaves an encoder that has read nothing and sent nothing (R180). -/
theorem Enc.start_unread {p : Params} {e : Enc} (hp : p.unbounded) (hb : isBusy e.status = false)
    (hl : legalBpc p e.bpcReg.toNat = true) (hm : Memory.wf e.outMem) :
    ∃ f, e.start p false = .ok () f ∧ f.InScan p ∧ (f.ii = 0 ∧ f.w = [] ∧ f.numBits = 2 ∧ f.enlargeIn = 2) ∧
      f.written = [] ∧ f.inMem = e.inMem ∧ f.len = e.lenReg ∧ f.bpc = e.bpcReg.toNat := by
  have hstart := Enc.start_present hb hl (dictFull_unbounded hp 2)
  obtain ⟨f, hf, hok, -⟩ := Enc.start_ok hb hl (dictFull_unbounded hp 2)
  cases hf.symm.trans hstart
  exact ⟨_, hstart, ⟨rfl, hok, hm⟩, ⟨rfl, rfl, rfl, rfl⟩, rfl, rfl, rfl, rfl⟩

/-- Settles O60: an ENCODE sends what completes its stream, and a DECODE starts in step with it, these bits ahead. -/
theorem decodingTheEncodingGivesTheInput : Obligations.DecodingTheEncodingGivesTheInput := by
  unfold Obligations.DecodingTheEncodingGivesTheInput
  intro s hp hsched hb hm hmin hmax
  obtain ⟨e, hstart, hscan, hunread, hwritten, hin, hlen, hbpc⟩ :=
    Enc.start_unread hp hb (legalBpc_iff.mpr ⟨hmin, hmax⟩) hm
  obtain ⟨f, bits, hsteps, hstatus, hpos, hfbpc, hout, hbits, hcompletes⟩ :=
    steps_completes (s := { s with enc := e }) hp hsched hscan s.enc.lenReg (by simp only [hunread.1, hlen, Nat.zero_add])
  refine ⟨_, _, congrArg (encOutcome s) hstart, hsteps, hstatus, ?_⟩
  intro v hcfg hvsched hvenc hvb hvm hreset hvlen hslice
  simp only at hfbpc hbits hvlen hslice hcompletes
  have hlegal : legalReset v.cfg v.dec.resetReg = true := legalReset_iff.mpr ⟨_, by rw [hcfg]; omega, hreset⟩
  obtain ⟨d, hdstart, hok, hphase, -, hdout, -, hahead⟩ := Dec.start_ok hvb hlegal (by omega)
  have hwidth : Nat.log2 v.dec.resetReg + 1 = f.bpc := by
    rw [hreset, Nat.log2_two_pow, Nat.sub_add_cancel hmin, hfbpc, hbpc]
  rw [hwidth, hvlen, hslice, ← Enc.written_of_pos_zero hpos, hbits, hwritten, List.nil_append] at hahead
  rw [hcfg] at hok
  obtain ⟨k, y, hdsteps, hend⟩ := hcompletes { v with dec := d } hcfg ⟨hvsched, hvenc⟩
    (.inl ⟨hok, hphase, by rw [hdout]; exact hvm, hunread⟩) hahead
  rw [hin, hlen] at hend
  exact ⟨k, _, y, congrArg (decOutcome v) hdstart, hdsteps, hend⟩

end Sys2Proof.Machine
end

section
/-! Proofs of the family 60_exceptions: the two ends of a command, completion and failure, in the numbers of R25 (R279, R280). -/

namespace Sys2Proof.Machine

theorem exec_finish_enc (k : Kind) (s : State) : exec (.finish .enc k) s = .next { s with enc := s.enc.finish k } := rfl

theorem exec_finish_dec (k : Kind) (s : State) : exec (.finish .dec k) s = .next { s with dec := s.dec.finish k } := rfl

theorem exec_raise_enc (c : Cause) (info : Nat) (s : State) :
    exec (.raise .enc c info) s = .next { s with enc := s.enc.raise c info } := rfl

theorem exec_raise_dec (c : Cause) (info : Nat) (s : State) :
    exec (.raise .dec c info) s = .next { s with dec := s.dec.raise c info } := rfl

/-- The phases past START's checks are the two in which a DECODE consumes its input (R220, log 22). -/
theorem DecPhase.pastStart_iff {ph : DecPhase} : ph.pastStart = true ↔ ph = .header ∨ ph = .loop := by
  cases ph <;> simp [DecPhase.pastStart]

/-- Settles O39: SEQ keeps the encoder's OUTLEN, and each kind has its number in the decoder's word. -/
theorem finishReportsItsKind : Obligations.FinishReportsItsKind := by
  unfold Obligations.FinishReportsItsKind
  intro s k
  refine ⟨exec_finish_enc .seq s, (exec_finish_dec k s).trans ?_⟩
  cases k <;> rfl

/-- Settles O40: each cause has its number in the word, and the phase says whether DEC_FIDX is written. -/
theorem raiseReportsItsCause : Obligations.RaiseReportsItsCause := by
  unfold Obligations.RaiseReportsItsCause
  intro s c info number hnumber
  have hcause : causeNumber c = number := by
    rw [hnumber]
    cases c <;> rfl
  have hstatus : statusFailed c = statusWord 2 3 number := congrArg (statusWord stateDone kindFail) hcause
  constructor
  · rw [exec_raise_enc, Enc.raise, hstatus]
  · simp only [exec_raise_dec, Dec.raise, hstatus, DecPhase.pastStart_iff]

end Sys2Proof.Machine
end

section
/-! Proofs of the family 70_reset_and_hazards: the reset input, what START forgets, and that steps of the two engines commute
(R310, R319, R327). -/

namespace Sys2Proof.Machine

/-! ### The reset input (R310) -/

theorem hardReset_memoriesOk (s : State) : (hardReset s).MemoriesOk :=
  ⟨Memory.wf_ofCells _, Memory.wf_ofCells _, Memory.wf_ofCells _, Memory.wf_ofCells _⟩

/-- Settles O56: the engines are those of the state after reset, but for their spaces. -/
theorem hardResetAbandonsCommands : Obligations.HardResetAbandonsCommands := by
  unfold Obligations.HardResetAbandonsCommands
  intro s
  exact ⟨hardReset s, rfl, rfl, rfl, rfl, hardReset_memoriesOk s, rfl, rfl, rfl, rfl, rfl, rfl, rfl, rfl, rfl, rfl, rfl, rfl,
    rfl⟩

/-! ### START (R319) -/

/-- Settles O10: every register but those left out is set from the configuration, the input or a constant. -/
theorem startForgetsEarlierCommands : Obligations.StartForgetsEarlierCommands := by
  unfold Obligations.StartForgetsEarlierCommands
  intro s t hcfg
  constructor
  · intro hs ht hbpc hlen hin hlegal hroom
    have hstart := Enc.start_present hs hlegal hroom
    rw [hbpc, hcfg] at hlegal
    rw [hcfg] at hroom
    refine ⟨_, _, congrArg (encOutcome s) hstart, congrArg (encOutcome t) (Enc.start_present ht hlegal hroom), ?_⟩
    simp only [Enc.latched, hbpc, hlen, hin]
  · intro hs ht hreset hlen hin hlegal hsome
    have hstart := Dec.start_present hs hlegal hsome
    rw [hreset, hcfg] at hlegal
    rw [hlen] at hsome
    refine ⟨_, _, congrArg (decOutcome s) hstart, congrArg (decOutcome t) (Dec.start_present ht hlegal hsome), ?_⟩
    simp only [Dec.latched, hreset, hlen, hin]

/-! ### A step of an engine as a run of that engine alone (R20) -/

/-- What a step of the encoder runs in each phase (R183, R199). -/
def Enc.stepRun (p : Params) (e : Enc) : Run Enc Unit :=
  match e.phase with
  | .idle => .ok () e
  | .scan => if e.ii < e.len then e.charStep p else e.finishStep p
  | .done => .ok () e

theorem exec_encUnit (s : State) :
    exec (encUnit s.enc) s =
      encOutcome s (if s.enc.ii < s.enc.len then s.enc.charStep s.cfg else s.enc.finishStep s.cfg) := by
  unfold encUnit
  split
  · rfl
  · rfl

theorem encStep_eq_stepRun (s : State) : encStep s = encOutcome s (s.enc.stepRun s.cfg) := by
  unfold encStep Enc.stepRun
  cases s.enc.phase with
  | idle => rfl
  | scan => exact exec_encUnit s
  | done => rfl

/-- What a header token does to the decoder (R224). -/
def HeaderToken.run (p : Params) (d : Dec) : HeaderToken → Run Dec Unit
  | .lit8 c => d.headerLiteral p (c.setWidth 16)
  | .lit16 c => d.headerLiteral p c
  | .eos => .ended (d.finish .seq)
  | .illegal => .ended (d.raise .corruptCode 3)

theorem runHeaderToken_eq_run (k : HeaderToken) (s : State) :
    runHeaderToken k s = decOutcome s (HeaderToken.run s.cfg s.dec k) := by cases k <;> rfl

/-- What a loop token does to the decoder (R231). -/
def LoopToken.run (p : Params) (d : Dec) : LoopToken → Run Dec Unit
  | .lit8 c => d.literal p (c.setWidth 16)
  | .lit16 c => d.literal p c
  | .eos => .ended (d.finish .seq)
  | .ref k => d.tail p k
  | .refnew => d.tail p d.dictSize
  | .illegal k => .ended (d.raise .corruptCode k)

theorem runLoopToken_eq_run (k : LoopToken) (s : State) :
    runLoopToken k s = decOutcome s (LoopToken.run s.cfg s.dec k) := by cases k <;> rfl

/-- The header step of the decoder (R224). -/
def Dec.headerRun (p : Params) (d : Dec) : Run Dec Unit := (d.fetchHeader p).andThen fun k d => HeaderToken.run p d k

/-- A token step of the decoder, the loop-top test first (R231, R232). -/
def Dec.tokenRun (p : Params) (d : Dec) : Run Dec Unit :=
  if d.exh then .ended (if p.strictOverrun then d.raise .truncatedInput 0 else d.finish .overrun)
  else (d.fetchLoop p).andThen fun k d => LoopToken.run p d k

theorem execDecHeader_eq_headerRun (s : State) : execDecHeader s = decOutcome s (s.dec.headerRun s.cfg) := by
  unfold execDecHeader Dec.headerRun
  cases s.dec.fetchHeader s.cfg with
  | ok k d => exact runHeaderToken_eq_run k { s with dec := d }
  | ended d => rfl
  | fault f => rfl

theorem execDecToken_eq_tokenRun (s : State) : execDecToken s = decOutcome s (s.dec.tokenRun s.cfg) := by
  unfold execDecToken Dec.tokenRun
  cases s.dec.exh with
  | true => cases s.cfg.strictOverrun <;> rfl
  | false =>
    cases s.dec.fetchLoop s.cfg with
    | ok k d => exact runLoopToken_eq_run k { s with dec := d }
    | ended d => rfl
    | fault f => rfl

/-- What a step of the decoder runs in each phase (R247). -/
def Dec.stepRun (p : Params) (d : Dec) : Run Dec Unit :=
  match d.phase with
  | .idle => .ok () d
  | .header => d.headerRun p
  | .loop => d.tokenRun p
  | .done => .ok () d

theorem decStep_eq_stepRun (s : State) : decStep s = decOutcome s (s.dec.stepRun s.cfg) := by
  unfold decStep Dec.stepRun
  cases s.dec.phase with
  | idle => rfl
  | header => exact execDecHeader_eq_headerRun s
  | loop => exact execDecToken_eq_tokenRun s
  | done => rfl

/-! ### Steps of the two engines commute (R287, R327) -/

/-- The engine that a run leaves, whether or not the run ended the command. -/
def Run.Leaves {σ : Type} (r : Run σ Unit) (x : σ) : Prop := r = .ok () x ∨ r = .ended x

section
variable {s t : State}

theorem encStep_next_iff : encStep s = .next t ↔ ∃ e, t = { s with enc := e } ∧ (s.enc.stepRun s.cfg).Leaves e := by
  rw [encStep_eq_stepRun]
  refine ⟨encOutcome_next, ?_⟩
  rintro ⟨e, rfl, h | h⟩
  · rw [h, encOutcome_ok]
  · rw [h, encOutcome_ended]

theorem decStep_next_iff : decStep s = .next t ↔ ∃ d, t = { s with dec := d } ∧ (s.dec.stepRun s.cfg).Leaves d := by
  rw [decStep_eq_stepRun]
  refine ⟨decOutcome_next, ?_⟩
  rintro ⟨d, rfl, h | h⟩
  · rw [h, decOutcome_ok]
  · rw [h, decOutcome_ended]

end

/-- Settles O57: what each engine's step runs and writes is that engine alone, so in either order each runs from the same
engine, and the two updates of the state commute. -/
theorem engineStepsCommute : Obligations.EngineStepsCommute := by
  unfold Obligations.EngineStepsCommute
  intro s u
  simp only [encStep_next_iff, decStep_next_iff]
  constructor
  · rintro ⟨_, ⟨e, rfl, he⟩, d, rfl, hd⟩
    exact ⟨_, ⟨d, rfl, hd⟩, e, rfl, he⟩
  · rintro ⟨_, ⟨d, rfl, hd⟩, e, rfl, he⟩
    exact ⟨_, ⟨e, rfl, he⟩, d, rfl, hd⟩

end Sys2Proof.Machine
end
